-- ==== Sys2Proof/Word.lean ====
section
/-!
DEFINITION. The bit-vector types of the PTC's ports and registers, by the names of 00_scope.md rule R10, and the observable
labels of 60_exceptions.md. Nothing here computes.
-/
namespace Sys2Proof

/-- A timestamp, and a duration: `TS_W` = 32 bits, one unit is one microsecond (00_scope.md R10, D2). -/
abbrev Timestamp := BitVec 32

/-- The command byte `cmd` (20_memory.md R61). -/
abbrev CmdByte := BitVec 8

/-- The operand port `arg_a` (20_memory.md R61). -/
abbrev ArgA := BitVec 36

/-- The operand port `arg_b` (20_memory.md R61). -/
abbrev ArgB := BitVec 8

/-- A frame word of any protocol in the common container of 36 bits, the longest frame (00_scope.md R12: `TOTAL ≤ 36`);
a protocol's own frame word has `Config.total p` bits. -/
abbrev Word36 := BitVec 36

end Sys2Proof
end

