-- ==== Sys2Proof/Config.lean ====
section
/-!
DEFINITION. What an implementation of the PTC fixes: the five protocols and their ids, the frame lengths (they are the widths of
registers, so State's types need them), the shape of a protocol's descriptor, the two parameters the spec leaves open, and the one
free value. The descriptors' numbers stand in Sys2Proof/Machine/Descriptor.lean.
-/
namespace Sys2Proof

/-- The five protocols (00_scope.md R2). No other protocol is part of the PTC. -/
inductive Proto
  | aur | wt4 | liv | kop | quh
deriving DecidableEq, Repr

/-- The five protocols in the order of their ids. -/
def Proto.all : List Proto := [.aur, .wt4, .liv, .kop, .quh]

/-- One value for each protocol, indexed by protocol: the strobes `edge_stb[p]`, `msg_stb[p]` and the pins `tx_pin[p]`. -/
structure PerProto (α : Type) where
  aur : α
  wt4 : α
  liv : α
  kop : α
  quh : α
deriving DecidableEq, Repr

/-- The bit coding kinds of 30_encoding.md R80. -/
inductive BitKind
  | pw2 | pp | var
deriving DecidableEq, Repr

/-- The symbolic pulse classes of 00_scope.md R14. -/
inductive PulseClass
  | sync | short | long | invalid
deriving DecidableEq, Repr

/-- What one pulse does to the bit being received (41_decoder_step.md R145): it is illegal here, it was the first pulse of a
two-pulse bit (the flag is its class, `true` for LONG), or it completes the bit. -/
inductive SymResult
  | bad
  | more (first : Bool)
  | bit (b : Bool)
deriving DecidableEq, Repr

/-- The labels of the four error conditions (60_exceptions.md R260 to R263). -/
inductive ErrLabel
  | e1 | e2 | e3 | e4
deriving DecidableEq, Repr

/-- A protocol's descriptor, the constants of 00_scope.md R11 (durations in microseconds, every window half-open). `TOTAL` is the
width `Config.total` of the protocol's registers; `TX_PRESENT` is in `Machine.txPresent`, since for AUR it is open. -/
structure Desc where
  pid : Nat
  unitT : Nat
  shortNom : Nat
  longNom : Nat
  syncNom : Nat
  shortLo : Nat
  shortHi : Nat
  longLo : Nat
  longHi : Nat
  syncLo : Nat
  syncHi : Nat
  kind : BitKind
  /-- `VLONG`: the value of a lone LONG pulse. Read only where `kind = var`. -/
  vlong : Bool
  hasPar : Bool
  hasConst : Bool
  rearm : Bool
  syncPerFrame : Bool
  minrepReset : BitVec 8
deriving DecidableEq, Repr

/-- The parameters that the spec leaves open: read-only control state (10_state.md R32) which no operation writes and RESET does
not touch (70_reset_and_hazards.md R292). -/
structure Params where
  /-- `TX_PRESENT[AUR]`: an AUR encoder exists. "open, default no" (00_scope.md R11, D21). -/
  txPresentAur : Bool
  /-- `CLK_PER_US`: clock cycles per microsecond. "open, an integer ≥ 1" (00_scope.md R10, D35). -/
  clkPerUs : Nat
deriving DecidableEq, Repr

namespace Config

/-- `C.TOTAL[p]`, the bits of one frame (00_scope.md R11, 30_encoding.md R87). LIV is `LIV_ADDR_BITS + LIV_UNIT_BITS` = 16 + 14. -/
@[reducible] def total : Proto → Nat
  | .aur => 32
  | .wt4 => 32
  | .liv => 30
  | .kop => 24
  | .quh => 36

/-- `RECV_BITS`: complete bits after sync at which a decoder counts as receiving (00_scope.md R10, D20). -/
def recvBits : Nat := 4

/-- FREE VALUE (log 1): what the port `res` shows outside its strobe once an answer has been given. "After a POLL or ISRECV has
answered, `res` outside its strobe is unspecified" (93_implementation_defined.md U17). Applied to the counter `State.freeIx`, once for each answer
(DESIGN CHOICE, log 1: the value drawn is held until the next answer or RESET). -/
opaque freeRes : Nat → Bool

end Config
end Sys2Proof
end

