-- ==== Sys2Proof/Syntax.lean ====
section
/-!
DEFINITION. The operations of the PTC, one constructor for each row of spec/opcode_table.json, with the operands of 30_encoding.md
R101; and the form in which an operation is presented to the PTC.
-/
namespace Sys2Proof

/-- The operations. EDGE to SEND are the command bytes of 30_encoding.md R101, one constructor per protocol; RESET is the `rst` pin
(R290); TXSTEP is the sequencer's own step (R237); FRAME is one frame in its wire format (R90 to R94), as an operation the
pseudo-operation of R106. A SEND's operands are the frame fields a caller gives: the constant and the parity field are the
encoder's own (R98). -/
inductive Instr
  | edgeAur (ts : Timestamp)
  | edgeWt4 (ts : Timestamp)
  | edgeLiv (ts : Timestamp)
  | edgeKop (ts : Timestamp)
  | edgeQuh (ts : Timestamp)
  | enableAur
  | enableWt4
  | enableLiv
  | enableKop
  | enableQuh
  | disableAur
  | disableWt4
  | disableLiv
  | disableKop
  | disableQuh
  | initAur (minrep irq : BitVec 8)
  | initWt4 (minrep irq : BitVec 8)
  | initLiv (minrep irq : BitVec 8)
  | initKop (minrep irq : BitVec 8)
  | initQuh (minrep irq : BitVec 8)
  | pollAur
  | pollWt4
  | pollLiv
  | pollKop
  | pollQuh
  | isrecvAur (timeoutMs : BitVec 16)
  | isrecvWt4 (timeoutMs : BitVec 16)
  | isrecvLiv (timeoutMs : BitVec 16)
  | isrecvKop (timeoutMs : BitVec 16)
  | isrecvQuh (timeoutMs : BitVec 16)
  | cbretAur
  | cbretWt4
  | cbretLiv
  | cbretKop
  | cbretQuh
  | sendAur (addr : BitVec 8) (temp : BitVec 12) (n1 : BitVec 4) (n2 : BitVec 7) (n : BitVec 8)
  | sendWt4 (addr : BitVec 4) (chan : BitVec 2) (hum : BitVec 7) (temp : BitVec 15) (n : BitVec 8)
  | sendLiv (addr : BitVec 16) (unit : BitVec 14) (n : BitVec 8)
  | sendKop (addr : BitVec 16) (unit : BitVec 8) (n : BitVec 8)
  | sendQuh (addr : BitVec 28) (unit : BitVec 8) (n : BitVec 8)
  | reset
  | txstep
  | frameAur (w : BitVec 32)
  | frameWt4 (w : BitVec 32)
  | frameLiv (w : BitVec 30)
  | frameKop (w : BitVec 24)
  | frameQuh (w : BitVec 36)
deriving DecidableEq, Repr

/-- The bits by which one operation reaches the PTC (20_memory.md R61, 30_encoding.md R101): the `rst` pin, the expiry of the
encoder's down-counter, an edge strobe with the shared `ts` bus, a command with its two operand ports, or the bits of one frame on
the wire of decoder `p` (the wire format of R90 to R94; no port carries it as one word, log 6). -/
inductive OpWord
  | rstPin
  | txExpiry
  | edgeStrobe (p : Proto) (ts : Timestamp)
  | command (cmd : CmdByte) (argA : ArgA) (argB : ArgB)
  | wireFrame (p : Proto) (bits : BitVec (Config.total p))
deriving DecidableEq, Repr

end Sys2Proof
end

