-- ==== Sys2Proof/WellFormed.lean ====
section
/-!
DEFINITION. Which operations have an encoding. Every operand is a bit vector of its field's width, so the one check left is the
fixed field of the FRAME.WT4 row.
-/
namespace Sys2Proof

/-- The fixed bits of the FRAME.WT4 row: the constant field, frame word bits 25:23, is `0b110` (30_encoding.md R91, R96). -/
def wt4ConstOk (w : BitVec 32) : Bool := w.extractLsb' 23 3 == 0b110#3

/-- An operation that spec/opcode_table.json has a row for: its fixed bits are as the row has them. A frame on the WT4 wire with
another constant is no FRAME.WT4 row; the decoder still reads it and its meaning is the E2 of 60_exceptions.md R261. (Whether an AUR encoder exists is a parameter of the
machine, not of the encoding: SEND.AUR is well formed, and the machine ignores it where R102 says so.) -/
def Instr.wellFormed : Instr → Bool
  | .frameWt4 w => wt4ConstOk w
  | .edgeAur _ | .edgeWt4 _ | .edgeLiv _ | .edgeKop _ | .edgeQuh _ => true
  | .enableAur | .enableWt4 | .enableLiv | .enableKop | .enableQuh => true
  | .disableAur | .disableWt4 | .disableLiv | .disableKop | .disableQuh => true
  | .initAur _ _ | .initWt4 _ _ | .initLiv _ _ | .initKop _ _ | .initQuh _ _ => true
  | .pollAur | .pollWt4 | .pollLiv | .pollKop | .pollQuh => true
  | .isrecvAur _ | .isrecvWt4 _ | .isrecvLiv _ | .isrecvKop _ | .isrecvQuh _ => true
  | .cbretAur | .cbretWt4 | .cbretLiv | .cbretKop | .cbretQuh => true
  | .sendAur _ _ _ _ _ | .sendWt4 _ _ _ _ _ | .sendLiv _ _ _ | .sendKop _ _ _ | .sendQuh _ _ _ => true
  | .reset | .txstep => true
  | .frameAur _ | .frameLiv _ | .frameKop _ | .frameQuh _ => true

end Sys2Proof
end

