-- ==== Sys2Proof/Decode.lean ====
section
/-!
DEFINITION. The decoder, total on any bits, rejecting by name (30_encoding.md R100 to R103, R90 to R94), and after it the encoder
written from the same tables.
-/
namespace Sys2Proof

/-- Why the bits presented are no operation. The names are the model's (log 7). -/
inductive DecodeError
  /-- `cmd[7:4]` is 0 or 9 to 15 (30_encoding.md R102). -/
  | reservedOp
  /-- `cmd[3]` is 1 (R102). -/
  | reservedBit3
  /-- `cmd[2:0]` is 5, 6 or 7 (R102). -/
  | reservedPid
deriving DecidableEq, Repr

/-- The protocol of a protocol id (00_scope.md R11, `PID`). -/
def protoOfPid : Nat → Option Proto
  | 0 => some .aur
  | 1 => some .wt4
  | 2 => some .liv
  | 3 => some .kop
  | 4 => some .quh
  | _ => none

/-- `PID` (00_scope.md R11). -/
def pidOf : Proto → Nat
  | .aur => 0
  | .wt4 => 1
  | .liv => 2
  | .kop => 3
  | .quh => 4

/-- The EDGE operation of decoder `p`. -/
def edgeInstr (p : Proto) (ts : Timestamp) : Instr :=
  match p with
  | .aur => .edgeAur ts
  | .wt4 => .edgeWt4 ts
  | .liv => .edgeLiv ts
  | .kop => .edgeKop ts
  | .quh => .edgeQuh ts

def enableInstr : Proto → Instr
  | .aur => .enableAur
  | .wt4 => .enableWt4
  | .liv => .enableLiv
  | .kop => .enableKop
  | .quh => .enableQuh

def disableInstr : Proto → Instr
  | .aur => .disableAur
  | .wt4 => .disableWt4
  | .liv => .disableLiv
  | .kop => .disableKop
  | .quh => .disableQuh

def initInstr (p : Proto) (minrep irq : BitVec 8) : Instr :=
  match p with
  | .aur => .initAur minrep irq
  | .wt4 => .initWt4 minrep irq
  | .liv => .initLiv minrep irq
  | .kop => .initKop minrep irq
  | .quh => .initQuh minrep irq

def pollInstr : Proto → Instr
  | .aur => .pollAur
  | .wt4 => .pollWt4
  | .liv => .pollLiv
  | .kop => .pollKop
  | .quh => .pollQuh

def isrecvInstr (p : Proto) (timeoutMs : BitVec 16) : Instr :=
  match p with
  | .aur => .isrecvAur timeoutMs
  | .wt4 => .isrecvWt4 timeoutMs
  | .liv => .isrecvLiv timeoutMs
  | .kop => .isrecvKop timeoutMs
  | .quh => .isrecvQuh timeoutMs

def cbretInstr : Proto → Instr
  | .aur => .cbretAur
  | .wt4 => .cbretWt4
  | .liv => .cbretLiv
  | .kop => .cbretKop
  | .quh => .cbretQuh

/-- SEND with its fields taken from their frame word slices on `arg_a` (30_encoding.md R99; 46_encoder.md R238 to R242): the bits
at and above `TOTAL` and those at the constant and parity positions are ignored. -/
def sendInstr (p : Proto) (a : ArgA) (n : BitVec 8) : Instr :=
  match p with
  | .aur => .sendAur (a.extractLsb' 24 8) (a.extractLsb' 12 12) (a.extractLsb' 8 4) (a.extractLsb' 1 7) n
  | .wt4 => .sendWt4 (a.extractLsb' 28 4) (a.extractLsb' 26 2) (a.extractLsb' 16 7) (a.extractLsb' 1 15) n
  | .liv => .sendLiv (a.extractLsb' 14 16) (a.extractLsb' 0 14) n
  | .kop => .sendKop (a.extractLsb' 8 16) (a.extractLsb' 0 8) n
  | .quh => .sendQuh (a.extractLsb' 8 28) (a.extractLsb' 0 8) n

/-- The command port (30_encoding.md R100, R101). Operand bits that R101 does not name are ignored (R103). DESIGN
CHOICE (log 7): where several fields are reserved the refusal names bit 3, else the id, else the code; and a SEND to a protocol without
an encoder decodes, its meaning ignores it. -/
def decodeCommand (cmd : CmdByte) (argA : ArgA) (argB : ArgB) : Except DecodeError Instr :=
  if cmd.getLsbD 3 then .error .reservedBit3
  else
    match protoOfPid (cmd.extractLsb' 0 3).toNat with
    | none => .error .reservedPid
    | some p =>
      match (cmd.extractLsb' 4 4).toNat with
      | 1 => .ok (edgeInstr p (argA.extractLsb' 0 32))
      | 2 => .ok (enableInstr p)
      | 3 => .ok (disableInstr p)
      | 4 => .ok (initInstr p (argA.extractLsb' 0 8) argB)
      | 5 => .ok (pollInstr p)
      | 6 => .ok (isrecvInstr p (argA.extractLsb' 0 16))
      | 7 => .ok (cbretInstr p)
      | 8 => .ok (sendInstr p argA argB)
      | _ => .error .reservedOp

/-- One frame on the wire (30_encoding.md R90 to R94). Any word of the frame's length is a frame on the wire: what a wrong constant
or parity does is the decoder's business (R261, R263). -/
def frameInstr (p : Proto) (w : BitVec (Config.total p)) : Instr :=
  match p, w with
  | .aur, w => .frameAur w
  | .wt4, w => .frameWt4 w
  | .liv, w => .frameLiv w
  | .kop, w => .frameKop w
  | .quh, w => .frameQuh w

/-- The decoder. An edge strobe is the same EDGE operation as the command (30_encoding.md R101). -/
def decode : OpWord → Except DecodeError Instr
  | .rstPin => .ok .reset
  | .txExpiry => .ok .txstep
  | .edgeStrobe p ts => .ok (edgeInstr p ts)
  | .command cmd a b => decodeCommand cmd a b
  | .wireFrame p w => .ok (frameInstr p w)

/-- The command byte of operation code `op` and protocol `p`: `op` in bits 7:4, 0 in bit 3, `pid` in bits 2:0 (R100). -/
def cmdByte (op : Nat) (p : Proto) : CmdByte := BitVec.ofNat 8 (16 * op + pidOf p)

/-- A command word whose operands stand as R101 places them; bits it does not name are 0. -/
def encodeCommand (op : Nat) (p : Proto) (argA : ArgA) (argB : ArgB) : OpWord := .command (cmdByte op p) argA argB

/-- `arg_a` of SEND.AUR: each field at its frame word slice (46_encoder.md R238). -/
def sendArgAur (addr : BitVec 8) (temp : BitVec 12) (n1 : BitVec 4) (n2 : BitVec 7) : ArgA :=
  (addr ++ temp ++ n1 ++ n2 ++ 0#1 : BitVec 32).setWidth 36

/-- `arg_a` of SEND.WT4 (R239). -/
def sendArgWt4 (addr : BitVec 4) (chan : BitVec 2) (hum : BitVec 7) (temp : BitVec 15) : ArgA :=
  (addr ++ chan ++ 0#3 ++ hum ++ temp ++ 0#1 : BitVec 32).setWidth 36

/-- `arg_a` of SEND.LIV (R240). -/
def sendArgLiv (addr : BitVec 16) (unit : BitVec 14) : ArgA := (addr ++ unit : BitVec 30).setWidth 36

/-- `arg_a` of SEND.KOP (R241). -/
def sendArgKop (addr : BitVec 16) (unit : BitVec 8) : ArgA := (addr ++ unit : BitVec 24).setWidth 36

/-- `arg_a` of SEND.QUH (R242). -/
def sendArgQuh (addr : BitVec 28) (unit : BitVec 8) : ArgA := (addr ++ unit : BitVec 36)

/-- The encoder: the bits that present a well-formed operation, from the tables of R90 to R94, R99 and R101. -/
def encode : Instr → OpWord
  | .edgeAur ts => encodeCommand 1 .aur (ts.setWidth 36) 0
  | .edgeWt4 ts => encodeCommand 1 .wt4 (ts.setWidth 36) 0
  | .edgeLiv ts => encodeCommand 1 .liv (ts.setWidth 36) 0
  | .edgeKop ts => encodeCommand 1 .kop (ts.setWidth 36) 0
  | .edgeQuh ts => encodeCommand 1 .quh (ts.setWidth 36) 0
  | .enableAur => encodeCommand 2 .aur 0 0
  | .enableWt4 => encodeCommand 2 .wt4 0 0
  | .enableLiv => encodeCommand 2 .liv 0 0
  | .enableKop => encodeCommand 2 .kop 0 0
  | .enableQuh => encodeCommand 2 .quh 0 0
  | .disableAur => encodeCommand 3 .aur 0 0
  | .disableWt4 => encodeCommand 3 .wt4 0 0
  | .disableLiv => encodeCommand 3 .liv 0 0
  | .disableKop => encodeCommand 3 .kop 0 0
  | .disableQuh => encodeCommand 3 .quh 0 0
  | .initAur m i => encodeCommand 4 .aur (m.setWidth 36) i
  | .initWt4 m i => encodeCommand 4 .wt4 (m.setWidth 36) i
  | .initLiv m i => encodeCommand 4 .liv (m.setWidth 36) i
  | .initKop m i => encodeCommand 4 .kop (m.setWidth 36) i
  | .initQuh m i => encodeCommand 4 .quh (m.setWidth 36) i
  | .pollAur => encodeCommand 5 .aur 0 0
  | .pollWt4 => encodeCommand 5 .wt4 0 0
  | .pollLiv => encodeCommand 5 .liv 0 0
  | .pollKop => encodeCommand 5 .kop 0 0
  | .pollQuh => encodeCommand 5 .quh 0 0
  | .isrecvAur t => encodeCommand 6 .aur (t.setWidth 36) 0
  | .isrecvWt4 t => encodeCommand 6 .wt4 (t.setWidth 36) 0
  | .isrecvLiv t => encodeCommand 6 .liv (t.setWidth 36) 0
  | .isrecvKop t => encodeCommand 6 .kop (t.setWidth 36) 0
  | .isrecvQuh t => encodeCommand 6 .quh (t.setWidth 36) 0
  | .cbretAur => encodeCommand 7 .aur 0 0
  | .cbretWt4 => encodeCommand 7 .wt4 0 0
  | .cbretLiv => encodeCommand 7 .liv 0 0
  | .cbretKop => encodeCommand 7 .kop 0 0
  | .cbretQuh => encodeCommand 7 .quh 0 0
  | .sendAur addr temp n1 n2 n => encodeCommand 8 .aur (sendArgAur addr temp n1 n2) n
  | .sendWt4 addr chan hum temp n => encodeCommand 8 .wt4 (sendArgWt4 addr chan hum temp) n
  | .sendLiv addr unit n => encodeCommand 8 .liv (sendArgLiv addr unit) n
  | .sendKop addr unit n => encodeCommand 8 .kop (sendArgKop addr unit) n
  | .sendQuh addr unit n => encodeCommand 8 .quh (sendArgQuh addr unit) n
  | .reset => .rstPin
  | .txstep => .txExpiry
  | .frameAur w => .wireFrame .aur w
  | .frameWt4 w => .wireFrame .wt4 w
  | .frameLiv w => .wireFrame .liv w
  | .frameKop w => .wireFrame .kop w
  | .frameQuh w => .wireFrame .quh w

/-- The bits of an opcode-table row, numbered as spec/opcode_table.json numbers them, as they are presented to the PTC (log 9).
8 bits are a command byte; with the operand ports (52 bits, in whole bytes 56) `arg_a` stands from bit 8 and `arg_b` from bit 44.
24, 30 and 36 bits (in whole bytes 40) are the frame of KOP, LIV and QUH. 32 bits are the frame of WT4 where its constant field
stands in them, else of AUR. No bits at all are the `rst` pin, the one input that carries none. -/
def tableWord (nbits w : Nat) : Option OpWord :=
  let bits := w % 2 ^ nbits
  let command := OpWord.command (BitVec.ofNat 8 bits) (BitVec.ofNat 36 (bits >>> 8)) (BitVec.ofNat 8 (bits >>> 44))
  match nbits with
  | 0 => some .rstPin
  | 8 => some command
  | 52 => some command
  | 56 => some command
  | 24 => some (.wireFrame .kop (BitVec.ofNat 24 bits))
  | 30 => some (.wireFrame .liv (BitVec.ofNat 30 bits))
  | 32 =>
    if wt4ConstOk (BitVec.ofNat 32 bits) then some (.wireFrame .wt4 (BitVec.ofNat 32 bits))
    else some (.wireFrame .aur (BitVec.ofNat 32 bits))
  | 36 => some (.wireFrame .quh (BitVec.ofNat 36 bits))
  | 40 => some (.wireFrame .quh (BitVec.ofNat 36 bits))
  | _ => none

/-- The instruction the decoder reads from a row's bits; `none` where it refuses. -/
def decodeTableWord (nbits w : Nat) : Option Instr :=
  match tableWord nbits w with
  | none => none
  | some word =>
    match decode word with
    | .ok i => some i
    | .error _ => none

end Sys2Proof
end

