-- ==== Sys2Proof/Machine/Descriptor.lean ====
section
/-!
DEFINITION. The descriptors of the five protocols: the numbers of 00_scope.md R11, the constraints of R12, and which protocols have
an encoder.
-/
namespace Sys2Proof.Machine

/-- Auriol (00_scope.md R11, column AUR). -/
def descAur : Desc where
  pid := 0
  unitT := 500
  shortNom := 500
  longNom := 1500
  syncNom := 4000
  shortLo := 350
  shortHi := 650
  longLo := 1050
  longHi := 1950
  syncLo := 2800
  syncHi := 5200
  kind := .pw2
  vlong := false
  hasPar := true
  hasConst := false
  rearm := false
  syncPerFrame := true
  minrepReset := 2

/-- WT440 (column WT4). The sync window is the SHORT window (40_classifier.md R123, 90_conflicts.md C1). -/
def descWt4 : Desc where
  pid := 1
  unitT := 1000
  shortNom := 1000
  longNom := 2000
  syncNom := 1000
  shortLo := 700
  shortHi := 1300
  longLo := 1400
  longHi := 2600
  syncLo := 700
  syncHi := 1300
  kind := .var
  vlong := false
  hasPar := true
  hasConst := true
  rearm := true
  syncPerFrame := false
  minrepReset := 2

/-- Livolo (column LIV). -/
def descLiv : Desc where
  pid := 2
  unitT := 140
  shortNom := 140
  longNom := 420
  syncNom := 1120
  shortLo := 98
  shortHi := 182
  longLo := 294
  longHi := 546
  syncLo := 784
  syncHi := 1456
  kind := .var
  vlong := true
  hasPar := false
  hasConst := false
  rearm := false
  syncPerFrame := true
  minrepReset := 2

/-- Kopou (column KOP). -/
def descKop : Desc where
  pid := 3
  unitT := 120
  shortNom := 120
  longNom := 360
  syncNom := 960
  shortLo := 84
  shortHi := 156
  longLo := 252
  longHi := 468
  syncLo := 672
  syncHi := 1248
  kind := .pp
  vlong := false
  hasPar := false
  hasConst := false
  rearm := false
  syncPerFrame := true
  minrepReset := 2

/-- Quhwa (column QUH). The SHORT and LONG windows keep DOC0's printed bounds (90_conflicts.md C4). -/
def descQuh : Desc where
  pid := 4
  unitT := 350
  shortNom := 350
  longNom := 1050
  syncNom := 2800
  shortLo := 245
  shortHi := 451
  longLo := 900
  longHi := 1251
  syncLo := 1960
  syncHi := 3640
  kind := .pw2
  vlong := false
  hasPar := false
  hasConst := false
  rearm := false
  syncPerFrame := true
  minrepReset := 2

/-- `C.x[p]` (00_scope.md R11, R13). -/
def desc : Proto → Desc
  | .aur => descAur
  | .wt4 => descWt4
  | .liv => descLiv
  | .kop => descKop
  | .quh => descQuh

/-- `C.TX_PRESENT[p]` (00_scope.md R11, 46_encoder.md R231): open for AUR, yes for the others. -/
def txPresent (q : Params) : Proto → Bool
  | .aur => q.txPresentAur
  | .wt4 | .liv | .kop | .quh => true

/-- The constraints of 00_scope.md R12 on a descriptor whose frame has `W` bits. -/
def meetsR12 (C : Desc) (W : Nat) : Bool :=
  (0 < C.shortLo && C.shortLo < C.shortHi && C.shortHi ≤ C.longLo && C.longLo < C.longHi)
  && C.syncLo < C.syncHi
  && ((C.syncLo == C.shortLo && C.syncHi == C.shortHi)
      || ((C.syncHi ≤ C.shortLo || C.shortHi ≤ C.syncLo) && (C.syncHi ≤ C.longLo || C.longHi ≤ C.syncLo)))
  && (C.shortLo ≤ C.shortNom && C.shortNom < C.shortHi)
  && (C.longLo ≤ C.longNom && C.longNom < C.longHi)
  && (C.syncLo ≤ C.syncNom && C.syncNom < C.syncHi)
  && W ≤ 36
  && (1 ≤ C.minrepReset.toNat && C.minrepReset.toNat ≤ 255)

end Sys2Proof.Machine
end

