-- ==== Sys2Proof/Machine/State.lean ====
section
/-!
DEFINITION. The state of the PTC as plain data (10_state.md), the reasons a step can stop, and the state after RESET
(70_reset_and_hazards.md R290, R291).
-/
namespace Sys2Proof.Machine

/-- Why the machine stops with a fault: never. "No error leaves the PTC" (60_exceptions.md R264) and "There are no fatal errors in
the receive path"; E1 to E4 are next states, so this type has no constructor (safe: nothing can be proved of a fault). -/
inductive Fault
deriving DecidableEq, Repr

/-- Why an operation has no meaning. -/
inductive Refusal
  /-- Raised by an arm of `exec` whose instruction has no meaning yet; no arm raises it now. Safe: the model stops. -/
  | notModelled (mnemonic : String)
deriving DecidableEq, Repr

/-- The decoder record of 10_state.md R22 for a protocol with frames of `W` bits. -/
structure Dec (W : Nat) where
  /-- enabled flag; edges are processed -/
  en : Bool
  /-- `false` = WAITING_SYNC, `true` = BIT_k -/
  insync : Bool
  /-- index of the bit now being received -/
  k : BitVec 6
  /-- the first pulse of bit `k` has been seen -/
  ph : Bool
  /-- class of that first pulse: `false` SHORT, `true` LONG -/
  first : Bool
  /-- Candidate Message, last received bit at bit 0 -/
  cand : BitVec W
  /-- exclusive or of the bits shifted into `cand` since the sync -/
  px : Bool
  /-- the previous completed, valid candidate -/
  prev : BitVec W
  /-- repeat counter -/
  rep : BitVec 8
  /-- configured minimum repeat count -/
  minrep : BitVec 8
  /-- configured interrupt line, signed; stored only (10_state.md R31) -/
  irq : BitVec 8
  /-- in-callback reentrancy flag `in_cb` -/
  inCb : Bool
  /-- timestamp `last_ts` of the previous processed edge -/
  lastTs : Timestamp
  /-- the message last delivered: the output port `msg[p]` -/
  msg : BitVec W
deriving DecidableEq, Repr

/-- What one EDGE step raises or emits, at most one of these (60_exceptions.md R268, R284). -/
inductive DecEvent (W : Nat)
  /-- `emit CALLBACK(p, w)` (44_dispatcher.md R201) -/
  | callback (w : BitVec W)
  /-- E3: the accepted message is dropped (44_dispatcher.md R202) -/
  | drop (w : BitVec W)
  /-- E1, E2 or E4 -/
  | error (e : ErrLabel)
deriving DecidableEq, Repr

/-- The encoder record of 10_state.md R33, with the down-counter of R34. -/
structure Enc where
  /-- a burst is being emitted; the output port `tx_busy` -/
  busy : Bool
  /-- protocol of the burst in progress (a protocol id of 3 bits, log 10) -/
  p : Proto
  /-- segments of the burst not yet emitted, in microseconds -/
  queue : List Nat
  /-- the level driven on each encoder's pin, `true` = HIGH; the output ports `tx_pin[p]` -/
  level : PerProto Bool
  /-- clock cycles left of the segment in progress (46_encoder.md R244, 60_exceptions.md R279) -/
  left : Nat
deriving DecidableEq, Repr

/-- A pending ISRECV (45_control_ops.md R216, R217) with the remaining ticks as the bound counter (60_exceptions.md R278). -/
structure Isrecv where
  p : Proto
  ticksLeft : BitVec 16
deriving DecidableEq, Repr

/-- What the environment drives on the input ports in one clock cycle (20_memory.md R61). -/
structure PortIn where
  rst : Bool
  edgeStb : PerProto Bool
  ts : Timestamp
  msTick : Bool
  cmdStb : Bool
  cmd : CmdByte
  argA : ArgA
  argB : ArgB
deriving DecidableEq, Repr

/-- One operation of the present cycle that is not done yet: an operation of the table as it is presented, or the `ms_tick`
strobe (45_control_ops.md R217), which is none. -/
inductive Pending
  | op (w : OpWord)
  | msTick
deriving DecidableEq, Repr

/-- What a step emits, as the trace syntax writes it (30_encoding.md R105), and the labels of 60_exceptions.md R284. Frame words
stand right-aligned in 36 bits. E3 is recorded as the drop with its word, with no label beside it (DESIGN CHOICE, log 11). -/
inductive Obs
  | callback (p : Proto) (w : Word36)
  | drop (p : Proto) (w : Word36)
  | error (p : Proto) (e : ErrLabel)
  | seg (p : Proto) (level : Bool) (d : Nat)
  | result (b : Bool)
deriving DecidableEq, Repr

/-- The state of the machine. The last four fields are the model's own: the input tape, the operations of the present cycle still
to do, what the last step emitted, and the counter of the free value `Config.freeRes`. -/
structure State where
  aur : Dec 32
  wt4 : Dec 32
  liv : Dec 30
  kop : Dec 24
  quh : Dec 36
  enc : Enc
  /-- the pending ISRECV, if any (45_control_ops.md R216) -/
  isrecv : Option Isrecv
  /-- the output strobes `msg_stb[p]` of the present cycle -/
  msgStb : PerProto Bool
  /-- the output strobe `res_stb` of the present cycle -/
  resStb : Bool
  /-- the output port `res` -/
  res : Bool
  /-- the open parameters: read-only control state (10_state.md R32) -/
  params : Params
  /-- the cycles the environment has yet to drive, the next one first -/
  inputs : List PortIn
  /-- the operations of the present cycle not yet done, the next one first (20_memory.md R68) -/
  todo : List Pending
  /-- what the last step emitted, the oldest first -/
  obs : List Obs
  /-- how many free values of `res` have been used -/
  freeIx : Nat
deriving DecidableEq, Repr

/-- One decoder right after RESET: all zero but `minrep` and `irq` (70_reset_and_hazards.md R290). -/
def Dec.atReset (C : Desc) (W : Nat) : Dec W where
  en := false
  insync := false
  k := 0
  ph := false
  first := false
  cand := 0
  px := false
  prev := 0
  rep := 0
  minrep := C.minrepReset
  irq := 0xFF
  inCb := false
  lastTs := 0
  msg := 0

/-- No protocol's strobe, and every pin LOW. -/
def allLow : PerProto Bool := { aur := false, wt4 := false, liv := false, kop := false, quh := false }

/-- The encoder right after RESET (70_reset_and_hazards.md R290). -/
def Enc.atReset : Enc where
  busy := false
  p := .aur
  queue := []
  level := allLow
  left := 0

/-- The machine right after RESET (70_reset_and_hazards.md R290, R291), with the spec's default for TX_PRESENT[AUR] (log 2), the
model's choice for the open CLK_PER_US (log 3) and nothing on the input tape (log 4). -/
def State.reset : State where
  aur := Dec.atReset descAur 32
  wt4 := Dec.atReset descWt4 32
  liv := Dec.atReset descLiv 30
  kop := Dec.atReset descKop 24
  quh := Dec.atReset descQuh 36
  enc := Enc.atReset
  isrecv := none
  msgStb := allLow
  resStb := false
  res := false
  params := { txPresentAur := false, clkPerUs := 1 }
  inputs := []
  todo := []
  obs := []
  freeIx := 0

end Sys2Proof.Machine
end

