-- ==== Sys2Proof/Machine/Operands.lean ====
section
/-!
DEFINITION. The operand forms of the PTC: a duration and its pulse class (40_classifier.md), pulse classes to bits and back
(30_encoding.md R80 to R86, 46_encoder.md R234), frame words and their fields (R87 to R99), and the burst of a SEND (R235, R236).
-/
namespace Sys2Proof

/-- The value of protocol `p`. -/
def PerProto.get {α : Type} (x : PerProto α) : Proto → α
  | .aur => x.aur
  | .wt4 => x.wt4
  | .liv => x.liv
  | .kop => x.kop
  | .quh => x.quh

/-- `x` with the value of protocol `p` replaced. -/
def PerProto.set {α : Type} (x : PerProto α) (p : Proto) (v : α) : PerProto α :=
  match p with
  | .aur => { x with aur := v }
  | .wt4 => { x with wt4 := v }
  | .liv => { x with liv := v }
  | .kop => { x with kop := v }
  | .quh => { x with quh := v }

namespace Machine

/-! ### Durations and pulse classes -/

/-- `ts −_32 last_ts`: unsigned subtraction modulo `2^32` (41_decoder_step.md R153). -/
def duration (ts lastTs : Timestamp) : Timestamp := ts - lastTs

/-- `classify(p, d)` (40_classifier.md R121): SHORT, then LONG, then SYNC, else INVALID; half-open windows. -/
def classify (C : Desc) (d : Timestamp) : PulseClass :=
  if C.shortLo ≤ d.toNat ∧ d.toNat < C.shortHi then .short
  else if C.longLo ≤ d.toNat ∧ d.toNat < C.longHi then .long
  else if C.syncLo ≤ d.toNat ∧ d.toNat < C.syncHi then .sync
  else .invalid

/-- `sync_hit(p, d)` (40_classifier.md R122), the test of WAITING_SYNC. -/
def syncHit (C : Desc) (d : Timestamp) : Bool := decide (C.syncLo ≤ d.toNat ∧ d.toNat < C.syncHi)

/-! ### Pulse classes to bits -/

/-- PW2 (41_decoder_step.md R146): a SHORT delimiter, then SHORT = 0 or LONG = 1. -/
def symStepPw2 (ph : Bool) (c : PulseClass) : SymResult :=
  match ph, c with
  | false, .short => .more false
  | false, _ => .bad
  | true, .short => .bit false
  | true, .long => .bit true
  | true, _ => .bad

/-- PP (R147): SHORT then LONG = 0, LONG then SHORT = 1. -/
def symStepPp (ph first : Bool) (c : PulseClass) : SymResult :=
  match ph, first, c with
  | false, _, .short => .more false
  | false, _, .long => .more true
  | false, _, _ => .bad
  | true, false, .long => .bit false
  | true, true, .short => .bit true
  | true, _, _ => .bad

/-- VAR (R148): a lone LONG has the value `VLONG`, a SHORT pair the other value. -/
def symStepVar (vlong ph : Bool) (c : PulseClass) : SymResult :=
  match ph, c with
  | false, .long => .bit vlong
  | false, .short => .more false
  | false, _ => .bad
  | true, .short => .bit (!vlong)
  | true, _ => .bad

/-- `sym_step` (41_decoder_step.md R145). -/
def symStep (C : Desc) (ph first : Bool) (c : PulseClass) : SymResult :=
  match C.kind with
  | .pw2 => symStepPw2 ph c
  | .pp => symStepPp ph first c
  | .var => symStepVar C.vlong ph c

/-! ### Bits to pulses -/

/-- `sym(p, b)`: the nominal durations of one bit (46_encoder.md R234). -/
def sym (C : Desc) (b : Bool) : List Nat :=
  match C.kind with
  | .pw2 => if b then [C.shortNom, C.longNom] else [C.shortNom, C.shortNom]
  | .pp => if b then [C.longNom, C.shortNom] else [C.shortNom, C.longNom]
  | .var => if b = C.vlong then [C.longNom] else [C.shortNom, C.shortNom]

/-- The bits of a frame word in wire order: `b_i = w[TOTAL−1−i]` (30_encoding.md R89). -/
def wireBits {W : Nat} (w : BitVec W) : List Bool := (List.range W).map fun i => w.getMsbD i

/-- `frame_segs(p, W)`: the nominal pulse durations of one frame without its sync (46_encoder.md R234; `FRAME` of
30_encoding.md R106). -/
def frameSegs {W : Nat} (C : Desc) (w : BitVec W) : List Nat := (wireBits w).flatMap (sym C)

/-- One frame with the sync pulse before it where it has one: frame number 0 always, a later one where `SYNC_PER_FRAME`
(46_encoder.md R235). -/
def burstFrame {W : Nat} (C : Desc) (w : BitVec W) (f : Nat) : List Nat :=
  (if C.syncPerFrame || f == 0 then [C.syncNom] else []) ++ frameSegs C w

/-- `body(p, W, n)` (46_encoder.md R236). -/
def burstBody {W : Nat} (C : Desc) (w : BitVec W) (n : Nat) : List Nat := (List.range n).flatMap (burstFrame C w)

/-- `burst(p, W, n)`: the body, and the terminator pulse where its number of segments is even (46_encoder.md R236). -/
def burst {W : Nat} (C : Desc) (w : BitVec W) (n : Nat) : List Nat :=
  let b := burstBody C w n
  if b.length % 2 = 0 then b ++ [C.shortNom] else b

/-! ### Frame words and their fields -/

/-- Exclusive or of all bits (30_encoding.md R95, R98). -/
def xorOfAllBits {n : Nat} (v : BitVec n) : Bool := (List.range n).foldl (fun acc i => xor acc (v.getLsbD i)) false

/-- `frameword(AUR, …)` (30_encoding.md R98). The fields have their widths already: the truncation of R98 is `BitVec.ofNat`. -/
def framewordAur (addr : BitVec 8) (temp : BitVec 12) (n1 : BitVec 4) (n2 : BitVec 7) : BitVec 32 :=
  let d : BitVec 31 := addr ++ temp ++ n1 ++ n2
  d ++ BitVec.ofBool (xorOfAllBits d)

/-- `frameword(WT4, …)`: the encoder inserts the constant `0b110` (30_encoding.md R98). -/
def framewordWt4 (addr : BitVec 4) (chan : BitVec 2) (hum : BitVec 7) (temp : BitVec 15) : BitVec 32 :=
  let d : BitVec 31 := addr ++ chan ++ 0b110#3 ++ hum ++ temp
  d ++ BitVec.ofBool (xorOfAllBits d)

/-- `frameword(LIV, …)` (30_encoding.md R98). -/
def framewordLiv (addr : BitVec 16) (unit : BitVec 14) : BitVec 30 := addr ++ unit

/-- `frameword(KOP, …)` (30_encoding.md R98). -/
def framewordKop (addr : BitVec 16) (unit : BitVec 8) : BitVec 24 := addr ++ unit

/-- `frameword(QUH, …)` (30_encoding.md R98). -/
def framewordQuh (addr : BitVec 28) (unit : BitVec 8) : BitVec 36 := addr ++ unit

/-- The fields of an AUR frame word (30_encoding.md R90). -/
structure AurFields where
  addr : BitVec 8
  temp : BitVec 12
  n1 : BitVec 4
  n2 : BitVec 7
  par : BitVec 1
deriving DecidableEq, Repr

/-- The fields of a WT4 frame word (R91). -/
structure Wt4Fields where
  addr : BitVec 4
  chan : BitVec 2
  const : BitVec 3
  hum : BitVec 7
  temp : BitVec 15
  par : BitVec 1
deriving DecidableEq, Repr

/-- The fields of a LIV frame word (R92). -/
structure LivFields where
  addr : BitVec 16
  unit : BitVec 14
deriving DecidableEq, Repr

/-- The fields of a KOP frame word (R93). -/
structure KopFields where
  addr : BitVec 16
  unit : BitVec 8
deriving DecidableEq, Repr

/-- The fields of a QUH frame word (R94). -/
structure QuhFields where
  addr : BitVec 28
  unit : BitVec 8
deriving DecidableEq, Repr

/-- `w[31:24]`, `w[23:12]`, `w[11:8]`, `w[7:1]`, `w[0]` (30_encoding.md R90). -/
def aurFields (w : BitVec 32) : AurFields :=
  { addr := w.extractLsb' 24 8, temp := w.extractLsb' 12 12, n1 := w.extractLsb' 8 4, n2 := w.extractLsb' 1 7,
    par := w.extractLsb' 0 1 }

/-- `w[31:28]`, `w[27:26]`, `w[25:23]`, `w[22:16]`, `w[15:1]`, `w[0]` (R91). -/
def wt4Fields (w : BitVec 32) : Wt4Fields :=
  { addr := w.extractLsb' 28 4, chan := w.extractLsb' 26 2, const := w.extractLsb' 23 3, hum := w.extractLsb' 16 7,
    temp := w.extractLsb' 1 15, par := w.extractLsb' 0 1 }

/-- `w[29:14]`, `w[13:0]` (R92). -/
def livFields (w : BitVec 30) : LivFields := { addr := w.extractLsb' 14 16, unit := w.extractLsb' 0 14 }

/-- `w[23:8]`, `w[7:0]` (R93). -/
def kopFields (w : BitVec 24) : KopFields := { addr := w.extractLsb' 8 16, unit := w.extractLsb' 0 8 }

/-- `w[35:8]`, `w[7:0]` (R94). -/
def quhFields (w : BitVec 36) : QuhFields := { addr := w.extractLsb' 8 28, unit := w.extractLsb' 0 8 }

/-- The validity/parity indicator of a delivered Message (10_state.md R41): the received parity bit for AUR and WT4, else 0. -/
def validityIndicator {W : Nat} (C : Desc) (w : BitVec W) : Bool := C.hasPar && w.getLsbD 0

end Machine
end Sys2Proof
end

