-- ==== Sys2Proof/Machine/Flags.lean ====
section
/-!
DEFINITION. The one-bit results the PTC computes: the running parity, the structural and the completion check, `receiving`, and
the state ordinal (10_state.md R25, R29). The PTC has no arithmetic condition codes.
-/
namespace Sys2Proof.Machine

/-- `px ^ b` (41_decoder_step.md R149). -/
def nextParity (px b : Bool) : Bool := xor px b

/-- `trunc_W((cand << 1) | b)` (41_decoder_step.md R149). -/
def nextCand {W : Nat} (cand : BitVec W) (b : Bool) : BitVec W := (cand <<< 1) ||| (BitVec.ofBool b).setWidth W

/-- `structural_ok(p, k', cand')` (41_decoder_step.md R150): the WT4 constant, as soon as it is complete. -/
def structuralOk {W : Nat} (C : Desc) (k' : Nat) (cand' : BitVec W) : Bool :=
  if C.hasConst && k' == 9 then cand'.extractLsb' 0 3 == 0b110#3 else true

/-- The completion check (41_decoder_step.md R151, 30_encoding.md R95). -/
def completionValid (C : Desc) (px' : Bool) : Bool := !C.hasPar || !px'

/-- `receiving(p)` (45_control_ops.md R214). It does not read `en`. -/
def Dec.receiving {W : Nat} (d : Dec W) : Bool := d.insync && decide (Config.recvBits ≤ d.k.toNat)

/-- The state ordinal `ord(p)` (10_state.md R25): −1 in WAITING_SYNC, else `2·k + ph`. -/
def Dec.ord {W : Nat} (d : Dec W) : Int := if d.insync then 2 * (d.k.toNat : Int) + d.ph.toNat else -1

end Sys2Proof.Machine
end

