-- ==== Sys2Proof/Machine/Ops.lean ====
section
/-!
DEFINITION. The named operations over the decoder record, the encoder record and the ports. The first part is one decoder
(41_decoder_step.md, 43_repeat_filter.md, 44_dispatcher.md, 45_control_ops.md); the second lifts it to the machine, with the
callback as trap entry and CBRET as the return from it (60_exceptions.md R269, R271); the third is ISRECV and the encoder.
-/
namespace Sys2Proof.Machine

variable {W : Nat}

/-! ### One decoder -/

/-- `goto WAITING_SYNC` (41_decoder_step.md R141). -/
def Dec.gotoWaitingSync (d : Dec W) : Dec W :=
  { d with insync := false, k := 0, ph := false, first := false, cand := 0, px := false }

/-- `goto BIT_0` (41_decoder_step.md R142). -/
def Dec.gotoBit0 (d : Dec W) : Dec W :=
  { d with insync := true, k := 0, ph := false, first := false, cand := 0, px := false }

/-- `raise E1`, `raise E2` and `raise E4`: `goto WAITING_SYNC` and nothing else (60_exceptions.md R260, R261, R263). -/
def Dec.raiseReset (d : Dec W) (e : ErrLabel) : Dec W × Option (DecEvent W) := (d.gotoWaitingSync, some (.error e))

/-- `dispatch(p, w)` (44_dispatcher.md R201, R202): TRAP ENTRY. It saves the message in `msg`, sets `in_cb` and emits the CALLBACK
(60_exceptions.md R269); with `in_cb` set already it is E3, the silent drop (R262). -/
def Dec.dispatch (d : Dec W) (w : BitVec W) : Dec W × Option (DecEvent W) :=
  if d.inCb then (d, some (.drop w)) else ({ d with inCb := true, msg := w }, some (.callback w))

/-- CBRET on one decoder (44_dispatcher.md R203, 60_exceptions.md R271): TRAP RETURN. It clears `in_cb` and forces WAITING_SYNC;
with `in_cb` clear it does nothing. -/
def Dec.cbret (d : Dec W) : Dec W := if d.inCb then { d with inCb := false }.gotoWaitingSync else d

/-- `r1` of 43_repeat_filter.md R191: the count that the completed frame `w` reaches, 1 where it differs from `prev`. -/
def Dec.nextRep (d : Dec W) (w : BitVec W) : Nat := (if w = d.prev then d.rep.toNat else 0) + 1

/-- `repeat_filter(p, w)` (43_repeat_filter.md R191). -/
def Dec.repeatFilter (d : Dec W) (w : BitVec W) : Dec W × Option (DecEvent W) :=
  if d.minrep.toNat ≤ d.nextRep w then Dec.dispatch { d with prev := w, rep := 0 } w
  else ({ d with prev := w, rep := BitVec.ofNat 8 (d.nextRep w) }, none)

/-- `complete(p, w, px')` (41_decoder_step.md R151, R152). -/
def Dec.complete (C : Desc) (d : Dec W) (w : BitVec W) (px' : Bool) : Dec W × Option (DecEvent W) :=
  if completionValid C px' then Dec.repeatFilter (if C.rearm then d.gotoBit0 else d.gotoWaitingSync) w
  else d.raiseReset .e4

/-- `shift_in(p, b)` (41_decoder_step.md R149). -/
def Dec.shiftIn (C : Desc) (d : Dec W) (b : Bool) : Dec W × Option (DecEvent W) :=
  let cand' := nextCand d.cand b
  let px' := nextParity d.px b
  let k' := d.k.toNat + 1
  if !structuralOk C k' cand' then d.raiseReset .e2
  else if k' = W then Dec.complete C d cand' px'
  else ({ d with ph := false, first := false, cand := cand', px := px', k := BitVec.ofNat 6 k' }, none)

/-- `waiting_sync_step(p, d)` (41_decoder_step.md R144). -/
def Dec.waitingSyncStep (C : Desc) (d : Dec W) (dur : Timestamp) : Dec W × Option (DecEvent W) :=
  (if syncHit C dur then d.gotoBit0 else d, none)

/-- `bit_step(p, d)` (41_decoder_step.md R145). -/
def Dec.bitStep (C : Desc) (d : Dec W) (dur : Timestamp) : Dec W × Option (DecEvent W) :=
  match symStep C d.ph d.first (classify C dur) with
  | .bad => d.raiseReset .e1
  | .more f => ({ d with ph := true, first := f }, none)
  | .bit b => d.shiftIn C b

/-- The EDGE step of one decoder (41_decoder_step.md R143). A disabled decoder ignores the edge entirely (R156). -/
def Dec.edge (C : Desc) (ts : Timestamp) (d : Dec W) : Dec W × Option (DecEvent W) :=
  if d.en then
    let dur := duration ts d.lastTs
    let d' := { d with lastTs := ts }
    if d.insync then d'.bitStep C dur else d'.waitingSyncStep C dur
  else (d, none)

/-- ENABLE on one decoder (45_control_ops.md R211). -/
def Dec.enable (d : Dec W) : Dec W := { d with en := true }.gotoWaitingSync

/-- DISABLE on one decoder (45_control_ops.md R212): the decode in progress freezes. -/
def Dec.disable (d : Dec W) : Dec W := { d with en := false }

/-- INIT on one decoder (45_control_ops.md R213). -/
def Dec.init (d : Dec W) (minrep irq : BitVec 8) : Dec W :=
  { d with minrep := minrep, irq := irq, rep := 0, prev := 0, en := true }.gotoWaitingSync

/-! ### Decoders in the machine -/

/-- `dec[p]`. -/
def State.dec (s : State) : (p : Proto) → Dec (Config.total p)
  | .aur => s.aur
  | .wt4 => s.wt4
  | .liv => s.liv
  | .kop => s.kop
  | .quh => s.quh

/-- `s` with `dec[p]` replaced; no other decoder and nothing of the encoder changes (10_state.md R21). -/
def State.setDec (s : State) : (p : Proto) → Dec (Config.total p) → State
  | .aur, d => { s with aur := d }
  | .wt4, d => { s with wt4 := d }
  | .liv, d => { s with liv := d }
  | .kop, d => { s with kop := d }
  | .quh, d => { s with quh := d }

/-- Record one more output of the present step (00_scope.md R13, `emit`). -/
def State.emit (s : State) (o : Obs) : State := { s with obs := s.obs ++ [o] }

/-- What the machine puts out for a decoder's event: a CALLBACK raises the strobe `msg_stb[p]` (44_dispatcher.md R201); a drop and
an error have no port and are only recorded (60_exceptions.md R264). -/
def State.signal (s : State) (p : Proto) : Option (DecEvent (Config.total p)) → State
  | none => s
  | some (.callback w) => { s with msgStb := s.msgStb.set p true }.emit (.callback p (w.setWidth 36))
  | some (.drop w) => s.emit (.drop p (w.setWidth 36))
  | some (.error e) => s.emit (.error p e)

/-- `EDGE(p, ts)` (41_decoder_step.md R143). -/
def State.edge (s : State) (p : Proto) (ts : Timestamp) : State :=
  (s.setDec p (Dec.edge (desc p) ts (s.dec p)).1).signal p (Dec.edge (desc p) ts (s.dec p)).2

/-- `ENABLE(p)` (45_control_ops.md R211). -/
def State.enable (s : State) (p : Proto) : State := s.setDec p (s.dec p).enable

/-- `DISABLE(p)` (45_control_ops.md R212). -/
def State.disable (s : State) (p : Proto) : State := s.setDec p (s.dec p).disable

/-- `INIT(p, minrep, irq)` (45_control_ops.md R213). -/
def State.initDec (s : State) (p : Proto) (minrep irq : BitVec 8) : State := s.setDec p ((s.dec p).init minrep irq)

/-- `CBRET(p)` (44_dispatcher.md R203). -/
def State.cbret (s : State) (p : Proto) : State := s.setDec p (s.dec p).cbret

/-! ### POLL and ISRECV -/

/-- Put a Boolean on `res` with `res_stb` (20_memory.md R61). -/
def State.answer (s : State) (b : Bool) : State := { s with resStb := true, res := b }.emit (.result b)

/-- `POLL(p)` (45_control_ops.md R215). -/
def State.poll (s : State) (p : Proto) : State := s.answer (s.dec p).receiving

/-- The start of `ISRECV(p, timeout_ms)` with its first POLL (45_control_ops.md R216): the answer 1 at once, or the wait. -/
def State.isrecvStart (s : State) (p : Proto) (timeoutMs : BitVec 16) : State :=
  if (s.dec p).receiving then s.answer true else { s with isrecv := some { p := p, ticksLeft := timeoutMs } }

/-- One POLL of a pending ISRECV (45_control_ops.md R216): it ends with 1 as soon as `receiving(p)` holds. The machine makes it
after every operation (log 5). -/
def State.isrecvPoll (s : State) : State :=
  match s.isrecv with
  | none => s
  | some r => if (s.dec r.p).receiving then { s with isrecv := none }.answer true else s

/-- The strobe `ms_tick` (45_control_ops.md R217): the bound is reached at the `(timeout_ms + 1)`-th tick, and a POLL made then
that still returns 0 ends the ISRECV with 0. -/
def State.msTick (s : State) : State :=
  match s.isrecv with
  | none => s
  | some r =>
    if r.ticksLeft = 0 then { s with isrecv := none }.answer (s.dec r.p).receiving
    else { s with isrecv := some { r with ticksLeft := r.ticksLeft - 1 } }

/-! ### The encoder -/

/-- The effect of an accepted SEND on the encoder record (46_encoder.md R233). The down-counter stands at 0, so that the first
TXSTEP follows in the same cycle (log 4). -/
def Enc.load (e : Enc) (p : Proto) (segs : List Nat) : Enc := { e with queue := segs, p := p, busy := true, left := 0 }

/-- `SEND(p, f, n)` with its frame word `w = frameword(p, f)` (46_encoder.md R233, R245): ignored where `p` has no encoder or a
burst is running, nothing for `n = 0`. -/
def State.send (s : State) (p : Proto) (w : BitVec (Config.total p)) (n : BitVec 8) : State :=
  if txPresent s.params p then
    if s.enc.busy then s
    else if n = 0 then s
    else { s with enc := s.enc.load p (burst (desc p) w n.toNat) }
  else s

/-- One TXSTEP with a segment `d` left (46_encoder.md R237): the pin toggles and is held for `d` microseconds. -/
def State.txSegment (s : State) (d : Nat) (rest : List Nat) : State :=
  { s with enc := { s.enc with
      level := s.enc.level.set s.enc.p (!s.enc.level.get s.enc.p), queue := rest, left := d * s.params.clkPerUs } }.emit
    (.seg s.enc.p (!s.enc.level.get s.enc.p) d)

/-- The last TXSTEP of a burst (46_encoder.md R237): the pin goes LOW and the encoder is idle. DESIGN CHOICE (log 4): the
down-counter, of which no rule speaks here, is 0. -/
def State.txEnd (s : State) : State :=
  { s with enc := { s.enc with level := s.enc.level.set s.enc.p false, busy := false, left := 0 } }

/-- `TXSTEP` (46_encoder.md R237). -/
def State.txstep (s : State) : State :=
  if s.enc.busy then
    match s.enc.queue with
    | d :: rest => s.txSegment d rest
    | [] => s.txEnd
  else s

/-! ### RESET, and one frame on the wire -/

/-- `RESET` (70_reset_and_hazards.md R290, R291): every field of the spec's state at its reset value. The open parameters (R292)
and the model's own fields stay. -/
def State.resetOp (s : State) : State :=
  { State.reset with params := s.params, inputs := s.inputs, todo := s.todo, obs := s.obs, freeIx := s.freeIx }

/-- One pulse of `d` microseconds on the wire of decoder `p`: the EDGE that closes it, `d` after the edge that opened it
(30_encoding.md R106), and the POLL of a pending ISRECV that falls between two steps of a decoder (45_control_ops.md R216). -/
def State.pulse (s : State) (p : Proto) (d : Nat) : State :=
  (s.edge p ((s.dec p).lastTs + BitVec.ofNat 32 d)).isrecvPoll

/-- The pulses of a list of durations, one after another. -/
def State.pulses (s : State) (p : Proto) (ds : List Nat) : State := ds.foldl (fun t d => t.pulse p d) s

/-- `FRAME p w` (30_encoding.md R106): the nominal pulses of one frame, without a sync pulse (log 6). -/
def State.frame (s : State) (p : Proto) (w : BitVec (Config.total p)) : State := s.pulses p (frameSegs (desc p) w)

end Sys2Proof.Machine
end

