-- ==== Sys2Proof/Machine/Callback.lean ====
section
/-!
DEFINITION. The meanings of CBRET, the return from the callback, one per protocol (44_dispatcher.md R203).
-/
namespace Sys2Proof.Machine

/-- CBRET.AUR (44_dispatcher.md R203). -/
def execCbretAur (s : State) : Host.Outcome State Fault Refusal := .next (s.cbret .aur)

/-- CBRET.WT4 (44_dispatcher.md R203). -/
def execCbretWt4 (s : State) : Host.Outcome State Fault Refusal := .next (s.cbret .wt4)

/-- CBRET.LIV (44_dispatcher.md R203). -/
def execCbretLiv (s : State) : Host.Outcome State Fault Refusal := .next (s.cbret .liv)

/-- CBRET.KOP (44_dispatcher.md R203). -/
def execCbretKop (s : State) : Host.Outcome State Fault Refusal := .next (s.cbret .kop)

/-- CBRET.QUH (44_dispatcher.md R203). -/
def execCbretQuh (s : State) : Host.Outcome State Fault Refusal := .next (s.cbret .quh)

end Sys2Proof.Machine
end

