-- ==== Sys2Proof/Machine/Control.lean ====
section
/-!
DEFINITION. The meanings of ENABLE, DISABLE, INIT, POLL and ISRECV, one per protocol (45_control_ops.md).
-/
namespace Sys2Proof.Machine

/-- ENABLE.AUR (45_control_ops.md R211). -/
def execEnableAur (s : State) : Host.Outcome State Fault Refusal := .next (s.enable .aur)

/-- ENABLE.WT4 (45_control_ops.md R211). -/
def execEnableWt4 (s : State) : Host.Outcome State Fault Refusal := .next (s.enable .wt4)

/-- ENABLE.LIV (45_control_ops.md R211). -/
def execEnableLiv (s : State) : Host.Outcome State Fault Refusal := .next (s.enable .liv)

/-- ENABLE.KOP (45_control_ops.md R211). -/
def execEnableKop (s : State) : Host.Outcome State Fault Refusal := .next (s.enable .kop)

/-- ENABLE.QUH (45_control_ops.md R211). -/
def execEnableQuh (s : State) : Host.Outcome State Fault Refusal := .next (s.enable .quh)

/-- DISABLE.AUR (45_control_ops.md R212). -/
def execDisableAur (s : State) : Host.Outcome State Fault Refusal := .next (s.disable .aur)

/-- DISABLE.WT4 (45_control_ops.md R212). -/
def execDisableWt4 (s : State) : Host.Outcome State Fault Refusal := .next (s.disable .wt4)

/-- DISABLE.LIV (45_control_ops.md R212). -/
def execDisableLiv (s : State) : Host.Outcome State Fault Refusal := .next (s.disable .liv)

/-- DISABLE.KOP (45_control_ops.md R212). -/
def execDisableKop (s : State) : Host.Outcome State Fault Refusal := .next (s.disable .kop)

/-- DISABLE.QUH (45_control_ops.md R212). -/
def execDisableQuh (s : State) : Host.Outcome State Fault Refusal := .next (s.disable .quh)

/-- INIT.AUR (45_control_ops.md R213). -/
def execInitAur (minrep irq : BitVec 8) (s : State) : Host.Outcome State Fault Refusal := .next (s.initDec .aur minrep irq)

/-- INIT.WT4 (45_control_ops.md R213). -/
def execInitWt4 (minrep irq : BitVec 8) (s : State) : Host.Outcome State Fault Refusal := .next (s.initDec .wt4 minrep irq)

/-- INIT.LIV (45_control_ops.md R213). -/
def execInitLiv (minrep irq : BitVec 8) (s : State) : Host.Outcome State Fault Refusal := .next (s.initDec .liv minrep irq)

/-- INIT.KOP (45_control_ops.md R213). -/
def execInitKop (minrep irq : BitVec 8) (s : State) : Host.Outcome State Fault Refusal := .next (s.initDec .kop minrep irq)

/-- INIT.QUH (45_control_ops.md R213). -/
def execInitQuh (minrep irq : BitVec 8) (s : State) : Host.Outcome State Fault Refusal := .next (s.initDec .quh minrep irq)

/-- POLL.AUR (45_control_ops.md R215). -/
def execPollAur (s : State) : Host.Outcome State Fault Refusal := .next (s.poll .aur)

/-- POLL.WT4 (45_control_ops.md R215). -/
def execPollWt4 (s : State) : Host.Outcome State Fault Refusal := .next (s.poll .wt4)

/-- POLL.LIV (45_control_ops.md R215). -/
def execPollLiv (s : State) : Host.Outcome State Fault Refusal := .next (s.poll .liv)

/-- POLL.KOP (45_control_ops.md R215). -/
def execPollKop (s : State) : Host.Outcome State Fault Refusal := .next (s.poll .kop)

/-- POLL.QUH (45_control_ops.md R215). -/
def execPollQuh (s : State) : Host.Outcome State Fault Refusal := .next (s.poll .quh)

/-- ISRECV.AUR (45_control_ops.md R216): its start and first POLL. The later POLLs are `State.isrecvPoll` and the
bound `State.msTick`, both in the cycle of Machine/Cycle.lean. -/
def execIsrecvAur (timeoutMs : BitVec 16) (s : State) : Host.Outcome State Fault Refusal := .next (s.isrecvStart .aur timeoutMs)

/-- ISRECV.WT4 (45_control_ops.md R216): its start and first POLL. The later POLLs are `State.isrecvPoll` and the
bound `State.msTick`, both in the cycle of Machine/Cycle.lean. -/
def execIsrecvWt4 (timeoutMs : BitVec 16) (s : State) : Host.Outcome State Fault Refusal := .next (s.isrecvStart .wt4 timeoutMs)

/-- ISRECV.LIV (45_control_ops.md R216): its start and first POLL. The later POLLs are `State.isrecvPoll` and the
bound `State.msTick`, both in the cycle of Machine/Cycle.lean. -/
def execIsrecvLiv (timeoutMs : BitVec 16) (s : State) : Host.Outcome State Fault Refusal := .next (s.isrecvStart .liv timeoutMs)

/-- ISRECV.KOP (45_control_ops.md R216): its start and first POLL. The later POLLs are `State.isrecvPoll` and the
bound `State.msTick`, both in the cycle of Machine/Cycle.lean. -/
def execIsrecvKop (timeoutMs : BitVec 16) (s : State) : Host.Outcome State Fault Refusal := .next (s.isrecvStart .kop timeoutMs)

/-- ISRECV.QUH (45_control_ops.md R216): its start and first POLL. The later POLLs are `State.isrecvPoll` and the
bound `State.msTick`, both in the cycle of Machine/Cycle.lean. -/
def execIsrecvQuh (timeoutMs : BitVec 16) (s : State) : Host.Outcome State Fault Refusal := .next (s.isrecvStart .quh timeoutMs)

end Sys2Proof.Machine
end

