-- ==== Sys2Proof/Machine/Edge.lean ====
section
/-!
DEFINITION. The meanings of EDGE, one per protocol: the generic step of 41_decoder_step.md R143 with the protocol's descriptor
(42_decoder_protocols.md R170 to R175).
-/
namespace Sys2Proof.Machine

/-- EDGE.AUR (42_decoder_protocols.md R171). -/
def execEdgeAur (ts : Timestamp) (s : State) : Host.Outcome State Fault Refusal := .next (s.edge .aur ts)

/-- EDGE.WT4 (42_decoder_protocols.md R172). -/
def execEdgeWt4 (ts : Timestamp) (s : State) : Host.Outcome State Fault Refusal := .next (s.edge .wt4 ts)

/-- EDGE.LIV (42_decoder_protocols.md R173). -/
def execEdgeLiv (ts : Timestamp) (s : State) : Host.Outcome State Fault Refusal := .next (s.edge .liv ts)

/-- EDGE.KOP (42_decoder_protocols.md R174). -/
def execEdgeKop (ts : Timestamp) (s : State) : Host.Outcome State Fault Refusal := .next (s.edge .kop ts)

/-- EDGE.QUH (42_decoder_protocols.md R175). -/
def execEdgeQuh (ts : Timestamp) (s : State) : Host.Outcome State Fault Refusal := .next (s.edge .quh ts)

end Sys2Proof.Machine
end

