-- ==== Sys2Proof/Machine/Frame.lean ====
section
/-!
DEFINITION. The meanings of FRAME, one per protocol: one frame in its wire format reaches the decoder, pulse by pulse
(30_encoding.md R90 to R94, R106; log 6).
-/
namespace Sys2Proof.Machine

/-- FRAME.AUR (30_encoding.md R90, R106). -/
def execFrameAur (w : BitVec 32) (s : State) : Host.Outcome State Fault Refusal := .next (s.frame .aur w)

/-- FRAME.WT4 (30_encoding.md R91, R106). -/
def execFrameWt4 (w : BitVec 32) (s : State) : Host.Outcome State Fault Refusal := .next (s.frame .wt4 w)

/-- FRAME.LIV (30_encoding.md R92, R106). -/
def execFrameLiv (w : BitVec 30) (s : State) : Host.Outcome State Fault Refusal := .next (s.frame .liv w)

/-- FRAME.KOP (30_encoding.md R93, R106). -/
def execFrameKop (w : BitVec 24) (s : State) : Host.Outcome State Fault Refusal := .next (s.frame .kop w)

/-- FRAME.QUH (30_encoding.md R94, R106). -/
def execFrameQuh (w : BitVec 36) (s : State) : Host.Outcome State Fault Refusal := .next (s.frame .quh w)

end Sys2Proof.Machine
end

