-- ==== Sys2Proof/Machine/Send.lean ====
section
/-!
DEFINITION. The meanings of SEND, one per protocol (46_encoder.md R233, R238 to R242).
-/
namespace Sys2Proof.Machine

/-- SEND.AUR (46_encoder.md R238, ignored where TX_PRESENT[AUR] is no (30_encoding.md R102)). -/
def execSendAur (addr : BitVec 8) (temp : BitVec 12) (n1 : BitVec 4) (n2 : BitVec 7) (n : BitVec 8) (s : State) :
    Host.Outcome State Fault Refusal := .next (s.send .aur (framewordAur addr temp n1 n2) n)

/-- SEND.WT4 (46_encoder.md R239). -/
def execSendWt4 (addr : BitVec 4) (chan : BitVec 2) (hum : BitVec 7) (temp : BitVec 15) (n : BitVec 8) (s : State) :
    Host.Outcome State Fault Refusal := .next (s.send .wt4 (framewordWt4 addr chan hum temp) n)

/-- SEND.LIV (46_encoder.md R240). -/
def execSendLiv (addr : BitVec 16) (unit : BitVec 14) (n : BitVec 8) (s : State) :
    Host.Outcome State Fault Refusal := .next (s.send .liv (framewordLiv addr unit) n)

/-- SEND.KOP (46_encoder.md R241). -/
def execSendKop (addr : BitVec 16) (unit : BitVec 8) (n : BitVec 8) (s : State) :
    Host.Outcome State Fault Refusal := .next (s.send .kop (framewordKop addr unit) n)

/-- SEND.QUH (46_encoder.md R242). -/
def execSendQuh (addr : BitVec 28) (unit : BitVec 8) (n : BitVec 8) (s : State) :
    Host.Outcome State Fault Refusal := .next (s.send .quh (framewordQuh addr unit) n)

end Sys2Proof.Machine
end

