-- ==== Sys2Proof/Machine/System.lean ====
section
/-!
DEFINITION. The meanings of RESET and TXSTEP, the two operations without a command byte.
-/
namespace Sys2Proof.Machine

/-- RESET (70_reset_and_hazards.md R290). -/
def execReset (s : State) : Host.Outcome State Fault Refusal := .next s.resetOp

/-- TXSTEP (46_encoder.md R237). -/
def execTxstep (s : State) : Host.Outcome State Fault Refusal := .next s.txstep

end Sys2Proof.Machine
end

