-- ==== Sys2Proof/Machine/Dispatch.lean ====
section
/-!
DEFINITION. One operation: every constructor of Instr and its meaning.
-/
namespace Sys2Proof.Machine

/-- The effect of one operation (00_scope.md R13: a step is the whole effect of one operation). -/
def exec (i : Instr) (s : State) : Host.Outcome State Fault Refusal :=
  match i with
  | .edgeAur ts => Sys2Proof.Machine.execEdgeAur ts s
  | .edgeWt4 ts => Sys2Proof.Machine.execEdgeWt4 ts s
  | .edgeLiv ts => Sys2Proof.Machine.execEdgeLiv ts s
  | .edgeKop ts => Sys2Proof.Machine.execEdgeKop ts s
  | .edgeQuh ts => Sys2Proof.Machine.execEdgeQuh ts s
  | .enableAur => Sys2Proof.Machine.execEnableAur s
  | .enableWt4 => Sys2Proof.Machine.execEnableWt4 s
  | .enableLiv => Sys2Proof.Machine.execEnableLiv s
  | .enableKop => Sys2Proof.Machine.execEnableKop s
  | .enableQuh => Sys2Proof.Machine.execEnableQuh s
  | .disableAur => Sys2Proof.Machine.execDisableAur s
  | .disableWt4 => Sys2Proof.Machine.execDisableWt4 s
  | .disableLiv => Sys2Proof.Machine.execDisableLiv s
  | .disableKop => Sys2Proof.Machine.execDisableKop s
  | .disableQuh => Sys2Proof.Machine.execDisableQuh s
  | .initAur minrep irq => Sys2Proof.Machine.execInitAur minrep irq s
  | .initWt4 minrep irq => Sys2Proof.Machine.execInitWt4 minrep irq s
  | .initLiv minrep irq => Sys2Proof.Machine.execInitLiv minrep irq s
  | .initKop minrep irq => Sys2Proof.Machine.execInitKop minrep irq s
  | .initQuh minrep irq => Sys2Proof.Machine.execInitQuh minrep irq s
  | .pollAur => Sys2Proof.Machine.execPollAur s
  | .pollWt4 => Sys2Proof.Machine.execPollWt4 s
  | .pollLiv => Sys2Proof.Machine.execPollLiv s
  | .pollKop => Sys2Proof.Machine.execPollKop s
  | .pollQuh => Sys2Proof.Machine.execPollQuh s
  | .isrecvAur timeoutMs => Sys2Proof.Machine.execIsrecvAur timeoutMs s
  | .isrecvWt4 timeoutMs => Sys2Proof.Machine.execIsrecvWt4 timeoutMs s
  | .isrecvLiv timeoutMs => Sys2Proof.Machine.execIsrecvLiv timeoutMs s
  | .isrecvKop timeoutMs => Sys2Proof.Machine.execIsrecvKop timeoutMs s
  | .isrecvQuh timeoutMs => Sys2Proof.Machine.execIsrecvQuh timeoutMs s
  | .cbretAur => Sys2Proof.Machine.execCbretAur s
  | .cbretWt4 => Sys2Proof.Machine.execCbretWt4 s
  | .cbretLiv => Sys2Proof.Machine.execCbretLiv s
  | .cbretKop => Sys2Proof.Machine.execCbretKop s
  | .cbretQuh => Sys2Proof.Machine.execCbretQuh s
  | .sendAur addr temp n1 n2 n => Sys2Proof.Machine.execSendAur addr temp n1 n2 n s
  | .sendWt4 addr chan hum temp n => Sys2Proof.Machine.execSendWt4 addr chan hum temp n s
  | .sendLiv addr unit n => Sys2Proof.Machine.execSendLiv addr unit n s
  | .sendKop addr unit n => Sys2Proof.Machine.execSendKop addr unit n s
  | .sendQuh addr unit n => Sys2Proof.Machine.execSendQuh addr unit n s
  | .reset => Sys2Proof.Machine.execReset s
  | .txstep => Sys2Proof.Machine.execTxstep s
  | .frameAur w => Sys2Proof.Machine.execFrameAur w s
  | .frameWt4 w => Sys2Proof.Machine.execFrameWt4 w s
  | .frameLiv w => Sys2Proof.Machine.execFrameLiv w s
  | .frameKop w => Sys2Proof.Machine.execFrameKop w s
  | .frameQuh w => Sys2Proof.Machine.execFrameQuh w s

end Sys2Proof.Machine
end

