-- ==== Sys2Proof/Machine/Cycle.lean ====
section
/-!
DEFINITION. How operations come to run: the ports sampled in one clock cycle and their order (20_memory.md R61, R68), the command
port during an ISRECV (45_control_ops.md R218), the encoder's down-counter (46_encoder.md R232, R244), and one operation run as it
is presented. Machine/Step.lean puts these together.
-/
namespace Sys2Proof.Machine

/-- The input ports with nothing driven on them: what a cycle shows when the environment does nothing. -/
def PortIn.idle : PortIn where
  rst := false
  edgeStb := allLow
  ts := 0
  msTick := false
  cmdStb := false
  cmd := 0
  argA := 0
  argB := 0

/-- The operations of one cycle in the order of 20_memory.md R68: while `rst` is high the RESET alone (70_reset_and_hazards.md
R290); else the edges by rising `p`, the `ms_tick` (log 5), the command. The TXSTEP comes after these, from `State.txDue`. -/
def PortIn.operations (x : PortIn) : List Pending :=
  if x.rst then [.op .rstPin]
  else
    (Proto.all.filter fun p => x.edgeStb.get p).map (fun p => .op (.edgeStrobe p x.ts))
      ++ (if x.msTick then [.msTick] else [])
      ++ (if x.cmdStb then [.op (.command x.cmd x.argA x.argB)] else [])

/-- Whether an operation is taken while an ISRECV is pending: EDGE and CBRET commands, edge strobes (and so the pulses of a frame),
the `rst` pin and the encoder's own step are; "any other command" is ignored (45_control_ops.md R218). -/
def takenDuringIsrecv : Instr → Bool
  | .edgeAur _ | .edgeWt4 _ | .edgeLiv _ | .edgeKop _ | .edgeQuh _ => true
  | .cbretAur | .cbretWt4 | .cbretLiv | .cbretKop | .cbretQuh => true
  | .reset | .txstep => true
  | .frameAur _ | .frameWt4 _ | .frameLiv _ | .frameKop _ | .frameQuh _ => true
  | .enableAur | .enableWt4 | .enableLiv | .enableKop | .enableQuh => false
  | .disableAur | .disableWt4 | .disableLiv | .disableKop | .disableQuh => false
  | .initAur _ _ | .initWt4 _ _ | .initLiv _ _ | .initKop _ _ | .initQuh _ _ => false
  | .pollAur | .pollWt4 | .pollLiv | .pollKop | .pollQuh => false
  | .isrecvAur _ | .isrecvWt4 _ | .isrecvLiv _ | .isrecvKop _ | .isrecvQuh _ => false
  | .sendAur _ _ _ _ _ | .sendWt4 _ _ _ _ _ | .sendLiv _ _ _ | .sendKop _ _ _ | .sendQuh _ _ _ => false

/-- Whether the PTC takes operation `i` now (45_control_ops.md R218). -/
def State.accepts (s : State) (i : Instr) : Bool := s.isrecv.isNone || takenDuringIsrecv i

/-- Run operation `i`, and after it the POLL of a pending ISRECV (45_control_ops.md R216, log 5). -/
def State.runInstr (s : State) (i : Instr) : Host.Outcome State Fault Refusal :=
  match exec i s with
  | .next t => .next t.isrecvPoll
  | .fault r => .fault r
  | .refused r => .refused r

/-- Run what is presented. A reserved command encoding is ignored, "no state changes, no result strobe" (30_encoding.md R102), and
so is a command that is not taken while an ISRECV is pending (45_control_ops.md R218). -/
def State.runWord (s : State) (word : OpWord) : Host.Outcome State Fault Refusal :=
  match decode word with
  | .error _ => .next s
  | .ok i => if s.accepts i then s.runInstr i else .next s

/-- Run one operation of the present cycle. -/
def State.runPending (s : State) : Pending → Host.Outcome State Fault Refusal
  | .op word => s.runWord word
  | .msTick => .next s.msTick

/-- The sequencer's TXSTEP is due: in the cycle of an accepted SEND, and when the down-counter has expired (46_encoder.md R237). -/
def State.txDue (s : State) : Bool := s.enc.busy && s.enc.left == 0

/-- The output strobes last one cycle (20_memory.md R61). Once `res_stb` has fallen, `res` is the next free value
(93_implementation_defined.md U17, log 1). DESIGN CHOICE (log 1, unsafe): one free value is drawn when the strobe falls and held until
the next answer or RESET; U17 leaves `res` open in every one of those cycles. -/
def State.endStrobes (s : State) : State :=
  let t := { s with msgStb := allLow }
  if s.resStb then { t with resStb := false, res := Config.freeRes s.freeIx, freeIx := s.freeIx + 1 } else t

/-- The clock edge between two cycles: the strobes end and the encoder's down-counter counts one cycle (46_encoder.md R244). -/
def State.nextCycle (s : State) : State :=
  let t := s.endStrobes
  { t with enc := { t.enc with left := t.enc.left - 1 } }

/-- The next cycle: its ports are taken from the input tape, or are idle where the tape is at its end. -/
def State.clock (s : State) : State :=
  match s.inputs with
  | [] => s.nextCycle
  | x :: rest => { s.nextCycle with inputs := rest, todo := x.operations }

end Sys2Proof.Machine
end

