-- ==== Sys2Proof/Machine/Step.lean ====
section
/-!
DEFINITION. One step of the machine: one operation of the present cycle, or the TXSTEP that ends it, or the clock to the next
cycle; and the storing of an opcode-table row where the next step takes it.
-/
namespace Sys2Proof.Machine

/-- One step. What it emits stands in `obs`, which it clears first. While operations of the present cycle are left, the first of
them; then the TXSTEP where it is due (20_memory.md R68); then the next cycle. -/
def step (s : State) : Host.Outcome State Fault Refusal :=
  match s.todo with
  | p :: rest => State.runPending { s with todo := rest, obs := [] } p
  | [] => if s.txDue then State.runInstr { s with obs := [] } .txstep else .next (State.clock { s with obs := [] })

/-- `s` with the bits of an opcode-table row presented as the next operation of the present cycle (log 9): a host that drives
them on the ports. Bits that are the form of no row leave `s` as it is. -/
def State.withFetchWord (s : State) (nbits w : Nat) : State :=
  match tableWord nbits w with
  | none => s
  | some word => { s with todo := .op word :: s.todo }

end Sys2Proof.Machine
end

