-- ==== Sys2Proof/Machine/Trace.lean ====
section
/-!
DEFINITION. The trace syntax's lines as ports and operations (30_encoding.md R105), its pseudo-operations EDGEALL, PULSES, SYNC and
LOOPBACK (R106; FRAME is an operation of the table), and SEND lines with field values of any size (R98). These are what an
environment does; no step uses them.
-/
namespace Sys2Proof.Machine

/-! ### One input line as the ports of one cycle -/

/-- `EDGE <p> <ts>` by the strobe `edge_stb[p]`. -/
def edgeLine (p : Proto) (ts : Timestamp) : PortIn := { PortIn.idle with edgeStb := allLow.set p true, ts := ts }

/-- `EDGEALL <ts>`: the five strobes in one cycle, taken in the order of the ids (30_encoding.md R106, 20_memory.md R68, R74). -/
def edgeAllLine (ts : Timestamp) : PortIn :=
  { PortIn.idle with edgeStb := { aur := true, wt4 := true, liv := true, kop := true, quh := true }, ts := ts }

/-- A command line: `cmd / arg_a / arg_b` with `cmd_stb`. -/
def commandLine (cmd : CmdByte) (argA : ArgA) (argB : ArgB) : PortIn :=
  { PortIn.idle with cmdStb := true, cmd := cmd, argA := argA, argB := argB }

/-- `RESET`. -/
def resetLine : PortIn := { PortIn.idle with rst := true }

/-- `MSTICK`. -/
def msTickLine : PortIn := { PortIn.idle with msTick := true }

/-! ### PULSES -/

/-- The instants of `PULSES p @t0 d1 … dm`: the edge that opens the first pulse and the edge that closes each pulse, modulo `2^32`
(30_encoding.md R106). -/
def edgeTimes (t0 : Timestamp) : List Nat → List Timestamp
  | [] => [t0]
  | d :: ds => t0 :: edgeTimes (t0 + BitVec.ofNat 32 d) ds

/-- `PULSES p @t0 d1 … dm` as cycles of the input tape: `m + 1` EDGE lines. -/
def pulsesLines (p : Proto) (t0 : Timestamp) (ds : List Nat) : List PortIn := (edgeTimes t0 ds).map (edgeLine p)

/-- `PULSES p @t0 d1 … dm` as `m + 1` EDGE operations one after another. -/
def State.edgesAt (s : State) (p : Proto) (t0 : Timestamp) (ds : List Nat) : State :=
  (edgeTimes t0 ds).foldl (fun t ts => t.edge p ts) s

/-- `SYNC` inside a PULSES line. -/
def syncPulse (p : Proto) : List Nat := [(desc p).syncNom]

/-- `FRAME p w` inside a PULSES line. -/
def framePulses (p : Proto) (w : BitVec (Config.total p)) : List Nat := frameSegs (desc p) w

/-!
### SEND lines

Field values of any size are truncated to their width (30_encoding.md R98, 92_eei_decisions.md D24). R98 says this of the fields and
not of the count, and 46_encoder.md R245 gives `n` only from 0 to 255: that a line with a larger count is the SEND of its count modulo
256 (256 sends nothing) is a DESIGN CHOICE (log 12).
-/

/-- `SEND AUR addr=… temp=… n1=… n2=… n=…`. The count is taken modulo 256 (DESIGN CHOICE, log 12). -/
def sendAurLine (addr temp n1 n2 n : Nat) : Instr :=
  .sendAur (BitVec.ofNat 8 addr) (BitVec.ofNat 12 temp) (BitVec.ofNat 4 n1) (BitVec.ofNat 7 n2) (BitVec.ofNat 8 n)

/-- `SEND WT4 addr=… chan=… hum=… temp=… n=…`. The count is taken modulo 256 (DESIGN CHOICE, log 12). -/
def sendWt4Line (addr chan hum temp n : Nat) : Instr :=
  .sendWt4 (BitVec.ofNat 4 addr) (BitVec.ofNat 2 chan) (BitVec.ofNat 7 hum) (BitVec.ofNat 15 temp) (BitVec.ofNat 8 n)

/-- `SEND LIV addr=… unit=… n=…`. The count is taken modulo 256 (DESIGN CHOICE, log 12). -/
def sendLivLine (addr unit n : Nat) : Instr := .sendLiv (BitVec.ofNat 16 addr) (BitVec.ofNat 14 unit) (BitVec.ofNat 8 n)

/-- `SEND KOP addr=… unit=… n=…`. The count is taken modulo 256 (DESIGN CHOICE, log 12). -/
def sendKopLine (addr unit n : Nat) : Instr := .sendKop (BitVec.ofNat 16 addr) (BitVec.ofNat 8 unit) (BitVec.ofNat 8 n)

/-- `SEND QUH addr=… unit=… n=…`. The count is taken modulo 256 (DESIGN CHOICE, log 12). -/
def sendQuhLine (addr unit n : Nat) : Instr := .sendQuh (BitVec.ofNat 28 addr) (BitVec.ofNat 8 unit) (BitVec.ofNat 8 n)

/-! ### LOOPBACK -/

/-- One TXSTEP under LOOPBACK, at the instant `t` (30_encoding.md R106, 46_encoder.md R246): where it changes the level of encoder
`p`'s pin, the EDGE of decoder `p` follows with that instant. The pair is the state and the instant of the next TXSTEP. -/
def loopbackStep (p : Proto) (x : State × Timestamp) : State × Timestamp :=
  let s' := x.1.txstep
  ( if s'.enc.level.get p = x.1.enc.level.get p then s' else s'.edge p x.2,
    x.2 + BitVec.ofNat 32 (x.1.enc.queue.headD 0) )

/-- `m` TXSTEPs under LOOPBACK from the instant `t0`, with no CBRET. -/
def loopbackRun (p : Proto) : Nat → State × Timestamp → State × Timestamp
  | 0, x => x
  | m + 1, x => loopbackRun p m (loopbackStep p x)

/-- The whole burst in progress under LOOPBACK: a burst of `m` segments takes `m + 1` TXSTEPs (46_encoder.md R237). -/
def State.loopback (s : State) (p : Proto) (t0 : Timestamp) : State :=
  (loopbackRun p (s.enc.queue.length + 1) (s, t0)).1

/-- The same TXSTEP where the host answers a CALLBACK of decoder `p` with a CBRET before the next edge (46_encoder.md R246). -/
def loopbackStepAnswered (p : Proto) (x : State × Timestamp) : State × Timestamp :=
  let y := loopbackStep p x
  (y.1.cbret p, y.2)

/-- `m` such TXSTEPs. -/
def loopbackRunAnswered (p : Proto) : Nat → State × Timestamp → State × Timestamp
  | 0, x => x
  | m + 1, x => loopbackRunAnswered p m (loopbackStepAnswered p x)

/-- The whole burst under LOOPBACK with every CALLBACK answered. -/
def State.loopbackAnswered (s : State) (p : Proto) (t0 : Timestamp) : State :=
  (loopbackRunAnswered p (s.enc.queue.length + 1) (s, t0)).1

end Sys2Proof.Machine
end

