-- ==== Sys2Proof/Safety.lean ====
section
/-!
DEFINITION. What counts as a good state and a good run of the PTC, in the terms the statements use: the invariants of 10_state.md
R26 to R28, the encoder's (46_encoder.md R236, R237), which messages may be delivered, and what the host owes
(70_reset_and_hazards.md R295).
-/
namespace Sys2Proof.Machine

variable {W : Nat}

/-- A frame word that passes its protocol's validation (30_encoding.md R95 to R97): exclusive or of all bits 0 where there is a
parity, constant `0b110` where there is a constant. -/
def validFrame (C : Desc) (w : BitVec W) : Bool :=
  (!C.hasPar || !xorOfAllBits w) && (!C.hasConst || w.extractLsb' (W - 9) 3 == 0b110#3)

/-- The invariant of a decoder record (10_state.md R27), with two facts the spec states elsewhere: `first` stays 0 but for PP
(42_decoder_protocols.md R171 to R175), and a WT4 candidate of nine bits or more has the constant (41_decoder_step.md R150). -/
abbrev Dec.Inv (C : Desc) (d : Dec W) : Prop :=
  (d.insync = false → d.k = 0 ∧ d.ph = false ∧ d.first = false ∧ d.cand = 0 ∧ d.px = false)
  ∧ (d.ph = false → d.first = false)
  ∧ (C.kind ≠ .pp → d.first = false)
  ∧ d.k.toNat < W
  ∧ d.cand.toNat < 2 ^ d.k.toNat
  ∧ d.px = xorOfAllBits d.cand
  ∧ d.rep.toNat < max d.minrep.toNat 1
  ∧ (C.hasConst = true → 9 ≤ d.k.toNat → (d.cand >>> (d.k.toNat - 9)).extractLsb' 0 3 = 0b110#3)

/-- The invariant of the encoder record: idle means an empty queue, every pin LOW and the down-counter at 0 (log 4);
during a burst the pin is HIGH exactly when
the number of segments left is even, so the last TXSTEP finds it HIGH (46_encoder.md R236, R237), every other pin is LOW, and a
duration fits the 13 bits of 10_state.md R34. -/
abbrev Enc.Inv (q : Params) (e : Enc) : Prop :=
  (e.busy = false → e.queue = [] ∧ e.left = 0 ∧ e.level = allLow)
  ∧ (e.busy = true → txPresent q e.p = true ∧ e.level.get e.p = decide (e.queue.length % 2 = 0)
      ∧ ∀ p ∈ Proto.all, p ≠ e.p → e.level.get p = false)
  ∧ ∀ d ∈ e.queue, 0 < d ∧ d < 2 ^ 13

/-- A pending ISRECV has polled 0: its decoder is not receiving. DESIGN CHOICE (log 5): it holds after every step because the model
polls in the step of each operation; 45_control_ops.md R216 and 93_implementation_defined.md U13 leave the instants of the polls free. -/
abbrev State.Waiting (s : State) : Prop := ∀ r ∈ s.isrecv, (s.dec r.p).receiving = false

/-- The invariant of the machine. -/
abbrev State.Inv (s : State) : Prop :=
  Dec.Inv descAur s.aur ∧ Dec.Inv descWt4 s.wt4 ∧ Dec.Inv descLiv s.liv ∧ Dec.Inv descKop s.kop ∧ Dec.Inv descQuh s.quh
  ∧ Enc.Inv s.params s.enc ∧ s.Waiting

/-- An output is harmless if it is no CALLBACK, or a CALLBACK whose word is a valid frame of its protocol (10_state.md R28;
60_exceptions.md R264: "the worst outcome of any malformed input is a missed message, never a corrupted one"). -/
def Obs.Harmless : Obs → Prop
  | .callback p w => ∃ v : BitVec (Config.total p), w = v.setWidth 36 ∧ validFrame (desc p) v = true
  | .drop _ _ | .error _ _ | .seg _ _ _ | .result _ => True

/-- The CALLBACKs of decoder `p` among some outputs, in their order. -/
def callbacksOf (p : Proto) (os : List Obs) : List Obs :=
  os.filter fun o => match o with
    | .callback q _ => decide (q = p)
    | .drop _ _ | .error _ _ | .seg _ _ _ | .result _ => false

/-- The outputs of a burst whose segments are `ds`, where the pin stands at `level` before the first of them: every segment toggles
the level (46_encoder.md R236, R237, R243). -/
def segmentsFrom (p : Proto) (level : Bool) : List Nat → List Obs
  | [] => []
  | d :: ds => .seg p (!level) d :: segmentsFrom p (!level) ds

/-- A run of completed valid frames through the repeat filter, the host answering every CALLBACK with a CBRET before the next frame
(43_repeat_filter.md R192): the decoder after it, and what each frame raised. -/
def filterRun (d : Dec W) : List (BitVec W) → Dec W × List (Option (DecEvent W))
  | [] => (d, [])
  | w :: ws =>
    let r := d.repeatFilter w
    let rest := filterRun r.1.cbret ws
    (rest.1, r.2 :: rest.2)

/-- A pulse of class `c` that the bit coding of protocol descriptor `C` does not allow after `ph` pulses of the bit, the first of
class `first` (30_encoding.md R86, 60_exceptions.md R260). -/
abbrev IllegalPulse (C : Desc) (ph first : Bool) (c : PulseClass) : Prop :=
  c = .invalid ∨ c = .sync
  ∨ (C.kind = .pw2 ∧ ph = false ∧ c = .long)
  ∨ (C.kind = .pp ∧ ph = true ∧ first = false ∧ c = .short)
  ∨ (C.kind = .pp ∧ ph = true ∧ first = true ∧ c = .long)
  ∨ (C.kind = .var ∧ ph = true ∧ c = .long)

/-- The frame word of a SEND whose fields stand on `arg_a` (30_encoding.md R98, R99). -/
def sendWord (p : Proto) (a : ArgA) : BitVec (Config.total p) :=
  match p with
  | .aur => framewordAur (a.extractLsb' 24 8) (a.extractLsb' 12 12) (a.extractLsb' 8 4) (a.extractLsb' 1 7)
  | .wt4 => framewordWt4 (a.extractLsb' 28 4) (a.extractLsb' 26 2) (a.extractLsb' 16 7) (a.extractLsb' 1 15)
  | .liv => framewordLiv (a.extractLsb' 14 16) (a.extractLsb' 0 14)
  | .kop => framewordKop (a.extractLsb' 8 16) (a.extractLsb' 0 8)
  | .quh => framewordQuh (a.extractLsb' 8 28) (a.extractLsb' 0 8)

/-- One operation after another. -/
def andThen (o : Host.Outcome State Fault Refusal) (i : Instr) : Host.Outcome State Fault Refusal :=
  match o with
  | .next s => exec i s
  | .fault r => .fault r
  | .refused r => .refused r

/-- The part of the machine an operation names (10_state.md R21). -/
inductive Part
  | decoder (p : Proto)
  | encoder
  | everything
deriving DecidableEq, Repr

/-- The part of the machine that each operation names. -/
def partOf : Instr → Part
  | .edgeAur _ | .enableAur | .disableAur | .initAur _ _ | .pollAur | .isrecvAur _ | .cbretAur | .frameAur _ => .decoder .aur
  | .edgeWt4 _ | .enableWt4 | .disableWt4 | .initWt4 _ _ | .pollWt4 | .isrecvWt4 _ | .cbretWt4 | .frameWt4 _ => .decoder .wt4
  | .edgeLiv _ | .enableLiv | .disableLiv | .initLiv _ _ | .pollLiv | .isrecvLiv _ | .cbretLiv | .frameLiv _ => .decoder .liv
  | .edgeKop _ | .enableKop | .disableKop | .initKop _ _ | .pollKop | .isrecvKop _ | .cbretKop | .frameKop _ => .decoder .kop
  | .edgeQuh _ | .enableQuh | .disableQuh | .initQuh _ _ | .pollQuh | .isrecvQuh _ | .cbretQuh | .frameQuh _ => .decoder .quh
  | .sendAur _ _ _ _ _ | .sendWt4 _ _ _ _ _ | .sendLiv _ _ _ | .sendKop _ _ _ | .sendQuh _ _ _ | .txstep => .encoder
  | .reset => .everything

/-- The open parameter CLK_PER_US is legal: an integer ≥ 1 (00_scope.md R10). -/
abbrev State.ParamsLegal (s : State) : Prop := 1 ≤ s.params.clkPerUs

/-- The configuration the host owes: `minrep ≥ 1` (70_reset_and_hazards.md R295 (f)) and `irq` −1 or 0 to 127 (10_state.md R30). -/
abbrev Dec.ConfigLegal (d : Dec W) : Prop := 1 ≤ d.minrep.toNat ∧ (d.irq = 0xFF ∨ d.irq.toNat ≤ 127)

/-- A state the machine comes to from RESET under some input tape. -/
inductive Reachable (params : Params) (inputs : List PortIn) : State → Prop
  | start : Reachable params inputs { State.reset with params := params, inputs := inputs }
  | next {s t : State} : Reachable params inputs s → step s = .next t → Reachable params inputs t

end Sys2Proof.Machine
end

