-- ==== Sys2Proof/Certificates/Slice0/Obligations.lean ====
section
/-!
DEFINITION. The statements for the provers, in the order of OBLIGATIONS.json: encodings, classifier and parameters, EDGE, FRAME,
filter and dispatcher, control operations, encoder, and the machine as a whole. `edgeInstr p ts` and its like stand for the five
constructors EDGE.AUR to EDGE.QUH at once.
-/
section
open Sys2Proof Sys2Proof.Machine

/-! ### Encodings -/

/-- Every operation's bits decode to that operation, with every operand at every value (30_encoding.md R90 to R94, R99 to R101). -/
def Obligations.EncodeThenDecodeGivesTheOperation : Prop := ∀ i : Instr, decode (encode i) = .ok i

/-- The decoder accepts a command byte by its three fields alone and names why it refuses one: bit 3 set, a protocol id of 5 to 7, a
code of 0 or 9 to 15 (30_encoding.md R100, R102). The names of the refusals and their order (bit 3, then the id, then the code) are the
model's choice (log 7), and so is that a SEND to a protocol without an encoder, which R102 reserves too (`0x80` by default,
46_encoder.md R238), decodes: its meaning ignores it. -/
def Obligations.DecoderJudgesACommandByItsThreeFields : Prop :=
  ∀ (cmd : CmdByte) (a : ArgA) (b : ArgB),
    ((∃ i, decodeCommand cmd a b = .ok i) ↔
      (cmd.getLsbD 3 = false ∧ (cmd.extractLsb' 0 3).toNat < 5 ∧ 1 ≤ (cmd.extractLsb' 4 4).toNat
        ∧ (cmd.extractLsb' 4 4).toNat < 9))
    ∧ (decodeCommand cmd a b = .error .reservedBit3 ↔ cmd.getLsbD 3 = true)
    ∧ (decodeCommand cmd a b = .error .reservedPid ↔ cmd.getLsbD 3 = false ∧ 5 ≤ (cmd.extractLsb' 0 3).toNat)
    ∧ (decodeCommand cmd a b = .error .reservedOp ↔
        cmd.getLsbD 3 = false ∧ (cmd.extractLsb' 0 3).toNat < 5
          ∧ ((cmd.extractLsb' 4 4).toNat = 0 ∨ 9 ≤ (cmd.extractLsb' 4 4).toNat))

/-- The command bytes of 30_encoding.md R101, row by row, with the operand bits that R101 names and no others (R103). -/
def Obligations.CommandRowsDecode : Prop :=
  ∀ (p : Proto) (a : ArgA) (b : ArgB),
    decodeCommand (BitVec.ofNat 8 (0x10 + pidOf p)) a b = .ok (edgeInstr p (BitVec.ofNat 32 a.toNat))
    ∧ decodeCommand (BitVec.ofNat 8 (0x20 + pidOf p)) a b = .ok (enableInstr p)
    ∧ decodeCommand (BitVec.ofNat 8 (0x30 + pidOf p)) a b = .ok (disableInstr p)
    ∧ decodeCommand (BitVec.ofNat 8 (0x40 + pidOf p)) a b = .ok (initInstr p (BitVec.ofNat 8 a.toNat) b)
    ∧ decodeCommand (BitVec.ofNat 8 (0x50 + pidOf p)) a b = .ok (pollInstr p)
    ∧ decodeCommand (BitVec.ofNat 8 (0x60 + pidOf p)) a b = .ok (isrecvInstr p (BitVec.ofNat 16 a.toNat))
    ∧ decodeCommand (BitVec.ofNat 8 (0x70 + pidOf p)) a b = .ok (cbretInstr p)
    ∧ decodeCommand (BitVec.ofNat 8 (0x80 + pidOf p)) a b = .ok (sendInstr p a b)

/-- Words written out from the spec's tables (30_encoding.md R101, R238, R239; 95_test_vectors.md) decode to what they stand for; three
reserved ones (R102) are refused, under the names of log 7. -/
def Obligations.WrittenWordsDecode : Prop :=
  decode (.command 0x13#8 7000#36 0#8) = .ok (.edgeKop 7000#32)
  ∧ decode (.command 0x24#8 0#36 0#8) = .ok .enableQuh
  ∧ decode (.command 0x41#8 2#36 0xFF#8) = .ok (.initWt4 2#8 0xFF#8)
  ∧ decode (.command 0x62#8 30#36 0#8) = .ok (.isrecvLiv 30#16)
  ∧ decode (.command 0x70#8 0#36 0#8) = .ok .cbretAur
  ∧ decode (.command 0x83#8 0xC35A81#36 1#8) = .ok (.sendKop 0xC35A#16 0x81#8 1#8)
  ∧ decode (.command 0x81#8 0xB7374780#36 2#8) = .ok (.sendWt4 11#4 1#2 55#7 9152#15 2#8)
  ∧ decode (.command 0x09#8 0#36 0#8) = .error .reservedBit3
  ∧ decode (.command 0x15#8 0#36 0#8) = .error .reservedPid
  ∧ decode (.command 0x90#8 0#36 0#8) = .error .reservedOp

/-- The frame word that the encoder builds holds the caller's fields at their slices, has the constant and the parity that the
encoder computes, and passes the validation of its protocol (30_encoding.md R90 to R96, R98). -/
def Obligations.FramewordHoldsItsFieldsAndIsValid : Prop :=
  (∀ (addr : BitVec 8) (temp : BitVec 12) (n1 : BitVec 4) (n2 : BitVec 7),
    aurFields (framewordAur addr temp n1 n2) =
      { addr := addr, temp := temp, n1 := n1, n2 := n2, par := BitVec.ofBool (xorOfAllBits (addr ++ temp ++ n1 ++ n2)) }
    ∧ validFrame descAur (framewordAur addr temp n1 n2) = true)
  ∧ (∀ (addr : BitVec 4) (chan : BitVec 2) (hum : BitVec 7) (temp : BitVec 15),
    wt4Fields (framewordWt4 addr chan hum temp) =
      { addr := addr, chan := chan, const := 0b110#3, hum := hum, temp := temp,
        par := BitVec.ofBool (xorOfAllBits (addr ++ chan ++ 0b110#3 ++ hum ++ temp)) }
    ∧ validFrame descWt4 (framewordWt4 addr chan hum temp) = true)
  ∧ (∀ (addr : BitVec 16) (unit : BitVec 14), livFields (framewordLiv addr unit) = { addr := addr, unit := unit }
    ∧ validFrame descLiv (framewordLiv addr unit) = true)
  ∧ (∀ (addr : BitVec 16) (unit : BitVec 8), kopFields (framewordKop addr unit) = { addr := addr, unit := unit }
    ∧ validFrame descKop (framewordKop addr unit) = true)
  ∧ (∀ (addr : BitVec 28) (unit : BitVec 8), quhFields (framewordQuh addr unit) = { addr := addr, unit := unit }
    ∧ validFrame descQuh (framewordQuh addr unit) = true)

/-! ### Classifier and parameters -/

/-- The five tables of 40_classifier.md, R126 to R130, over every duration. -/
def Obligations.ClassifierTables : Prop :=
  ∀ d : Timestamp,
    (classify descAur d = (if d.toNat ≤ 349 then .invalid else if d.toNat ≤ 649 then .short else if d.toNat ≤ 1049 then .invalid
        else if d.toNat ≤ 1949 then .long else if d.toNat ≤ 2799 then .invalid else if d.toNat ≤ 5199 then .sync else .invalid)
      ∧ syncHit descAur d = (decide (2800 ≤ d.toNat) && decide (d.toNat ≤ 5199)))
    ∧ (classify descWt4 d = (if d.toNat ≤ 699 then .invalid else if d.toNat ≤ 1299 then .short
        else if d.toNat ≤ 1399 then .invalid else if d.toNat ≤ 2599 then .long else .invalid)
      ∧ syncHit descWt4 d = (decide (700 ≤ d.toNat) && decide (d.toNat ≤ 1299)))
    ∧ (classify descLiv d = (if d.toNat ≤ 97 then .invalid else if d.toNat ≤ 181 then .short else if d.toNat ≤ 293 then .invalid
        else if d.toNat ≤ 545 then .long else if d.toNat ≤ 783 then .invalid else if d.toNat ≤ 1455 then .sync else .invalid)
      ∧ syncHit descLiv d = (decide (784 ≤ d.toNat) && decide (d.toNat ≤ 1455)))
    ∧ (classify descKop d = (if d.toNat ≤ 83 then .invalid else if d.toNat ≤ 155 then .short else if d.toNat ≤ 251 then .invalid
        else if d.toNat ≤ 467 then .long else if d.toNat ≤ 671 then .invalid else if d.toNat ≤ 1247 then .sync else .invalid)
      ∧ syncHit descKop d = (decide (672 ≤ d.toNat) && decide (d.toNat ≤ 1247)))
    ∧ (classify descQuh d = (if d.toNat ≤ 244 then .invalid else if d.toNat ≤ 450 then .short else if d.toNat ≤ 899 then .invalid
        else if d.toNat ≤ 1250 then .long else if d.toNat ≤ 1959 then .invalid else if d.toNat ≤ 3639 then .sync else .invalid)
      ∧ syncHit descQuh d = (decide (1960 ≤ d.toNat) && decide (d.toNat ≤ 3639)))

/-- For a protocol whose sync window is disjoint from the others `sync_hit` is `classify = SYNC`; for WT4 it is
`classify = SHORT`, and `classify` never answers SYNC (40_classifier.md R122, R123). -/
def Obligations.SyncHitAgreesWithClassify : Prop :=
  ∀ (p : Proto) (d : Timestamp),
    (p ≠ .wt4 → syncHit (desc p) d = decide (classify (desc p) d = .sync))
    ∧ (p = .wt4 → syncHit (desc p) d = decide (classify (desc p) d = .short) ∧ classify (desc p) d ≠ .sync)

/-- The parameters meet the constraints of 00_scope.md R12, and the frame lengths are those of 30_encoding.md R87. -/
def Obligations.ParametersMeetTheirConstraints : Prop :=
  (∀ p, meetsR12 (desc p) (Config.total p) = true ∧ (desc p).pid = pidOf p)
  ∧ Proto.all.map Config.total = [32, 32, 30, 24, 36]

/-- The tables of 41_decoder_step.md R146 (AUR, QUH), R147 (KOP) and R148 (WT4 with VLONG 0, LIV with VLONG 1). `VLONG[WT4] = 0` is
the spec's default, which the spec itself marks as general knowledge (30_encoding.md R83; 93_implementation_defined.md G1); the model
takes it (log 8). -/
def Obligations.SymStepTables : Prop :=
  (∀ C ∈ [descAur, descQuh], ∀ first : Bool,
    symStep C false first .short = .more false
    ∧ (∀ c ∈ [PulseClass.long, .sync, .invalid], symStep C false first c = .bad)
    ∧ symStep C true first .short = .bit false
    ∧ symStep C true first .long = .bit true
    ∧ ∀ c ∈ [PulseClass.sync, .invalid], symStep C true first c = .bad)
  ∧ (symStep descKop false false .short = .more false
    ∧ symStep descKop false false .long = .more true
    ∧ (∀ c ∈ [PulseClass.sync, .invalid], symStep descKop false false c = .bad)
    ∧ symStep descKop true false .long = .bit false
    ∧ symStep descKop true true .short = .bit true
    ∧ (∀ c ∈ [PulseClass.short, .sync, .invalid], symStep descKop true false c = .bad)
    ∧ ∀ c ∈ [PulseClass.long, .sync, .invalid], symStep descKop true true c = .bad)
  ∧ ∀ x ∈ [(descWt4, false), (descLiv, true)], ∀ first : Bool,
    symStep x.1 false first .long = .bit x.2
    ∧ symStep x.1 false first .short = .more false
    ∧ (∀ c ∈ [PulseClass.sync, .invalid], symStep x.1 false first c = .bad)
    ∧ symStep x.1 true first .short = .bit (!x.2)
    ∧ ∀ c ∈ [PulseClass.long, .sync, .invalid], symStep x.1 true first c = .bad

/-! ### EDGE -/

/-- "A disabled decoder ignores an edge entirely: no field changes, not even `last_ts`" (41_decoder_step.md R156). -/
def Obligations.EdgeOfADisabledDecoderChangesNothing : Prop :=
  ∀ (p : Proto) (s : State) (ts : Timestamp), (s.dec p).en = false → exec (edgeInstr p ts) s = .next s

/-- EDGE in WAITING_SYNC (41_decoder_step.md R142 to R144, R153). -/
def Obligations.EdgeWhileWaitingForSync : Prop :=
  ∀ (p : Proto) (s : State) (ts : Timestamp), (s.dec p).en = true → (s.dec p).insync = false →
    exec (edgeInstr p ts) s = .next (s.setDec p
      (if (desc p).syncLo ≤ (ts - (s.dec p).lastTs).toNat ∧ (ts - (s.dec p).lastTs).toNat < (desc p).syncHi then
        { s.dec p with lastTs := ts, insync := true, k := 0, ph := false, first := false, cand := 0, px := false }
      else { s.dec p with lastTs := ts }))

/-- EDGE in BIT_k with a pulse the coding does not allow: E1 (60_exceptions.md R260, 30_encoding.md R86). -/
def Obligations.EdgeWithAnIllegalPulseIsE1 : Prop :=
  ∀ (p : Proto) (s : State) (ts : Timestamp), (s.dec p).en = true → (s.dec p).insync = true →
    IllegalPulse (desc p) (s.dec p).ph (s.dec p).first (classify (desc p) (ts - (s.dec p).lastTs)) →
    exec (edgeInstr p ts) s = .next { s.setDec p
      { s.dec p with lastTs := ts, insync := false, k := 0, ph := false, first := false, cand := 0, px := false } with
      obs := s.obs ++ [.error p .e1] }

/-- EDGE in BIT_k with the first pulse of a two-pulse bit: a SHORT one, or for KOP a LONG one (41_decoder_step.md R145 to
R148). -/
def Obligations.EdgeWithTheFirstPulseOfABit : Prop :=
  ∀ (p : Proto) (s : State) (ts : Timestamp), (s.dec p).en = true → (s.dec p).insync = true → (s.dec p).ph = false →
    (classify (desc p) (ts - (s.dec p).lastTs) = .short →
      exec (edgeInstr p ts) s = .next (s.setDec p { s.dec p with lastTs := ts, ph := true, first := false }))
    ∧ (classify (desc p) (ts - (s.dec p).lastTs) = .long → p = .kop →
      exec (edgeInstr p ts) s = .next (s.setDec p { s.dec p with lastTs := ts, ph := true, first := true }))

/-- EDGE that completes a bit which is not the last one and not a wrong constant: the bit is shifted in (41_decoder_step.md
R149). -/
def Obligations.EdgeShiftsABitIn : Prop :=
  ∀ (p : Proto) (s : State) (ts : Timestamp) (b : Bool), (s.dec p).en = true → (s.dec p).insync = true →
    symStep (desc p) (s.dec p).ph (s.dec p).first (classify (desc p) (ts - (s.dec p).lastTs)) = .bit b →
    (s.dec p).k.toNat + 1 < Config.total p →
    (p = .wt4 → (s.dec p).k.toNat = 8 → (2 * (s.dec p).cand.toNat + b.toNat) % 8 = 6) →
    exec (edgeInstr p ts) s = .next (s.setDec p
      { s.dec p with
        lastTs := ts, ph := false, first := false, cand := BitVec.ofNat (Config.total p) (2 * (s.dec p).cand.toNat + b.toNat),
        px := xor (s.dec p).px b, k := (s.dec p).k + 1 })

/-- EDGE.WT4 that completes wire bit 8 with another constant than `0b110`: E2 (60_exceptions.md R261). -/
def Obligations.EdgeWithAWrongConstantIsE2 : Prop :=
  ∀ (s : State) (ts : Timestamp) (b : Bool), s.wt4.en = true → s.wt4.insync = true →
    symStep descWt4 s.wt4.ph s.wt4.first (classify descWt4 (ts - s.wt4.lastTs)) = .bit b →
    s.wt4.k.toNat = 8 → (2 * s.wt4.cand.toNat + b.toNat) % 8 ≠ 6 →
    exec (.edgeWt4 ts) s = .next { s with
      wt4 := { s.wt4 with lastTs := ts, insync := false, k := 0, ph := false, first := false, cand := 0, px := false }
      obs := s.obs ++ [.error .wt4 .e2] }

/-- EDGE.AUR and EDGE.WT4 that complete the last bit with an exclusive or of 1: E4 (60_exceptions.md R263). The filter is not
called, for WT4 there is no re-arm. -/
def Obligations.EdgeWithAWrongParityIsE4 : Prop :=
  ∀ (p : Proto) (s : State) (ts : Timestamp) (b : Bool), p = .aur ∨ p = .wt4 → (s.dec p).en = true → (s.dec p).insync = true →
    symStep (desc p) (s.dec p).ph (s.dec p).first (classify (desc p) (ts - (s.dec p).lastTs)) = .bit b →
    (s.dec p).k.toNat = 31 → xor (s.dec p).px b = true →
    exec (edgeInstr p ts) s = .next { s.setDec p
      { s.dec p with lastTs := ts, insync := false, k := 0, ph := false, first := false, cand := 0, px := false } with
      obs := s.obs ++ [.error p .e4] }

/-- EDGE that completes a valid frame whose run is still below the minimum: `prev` and `rep` are written and nothing is delivered
(41_decoder_step.md R151, R152; 43_repeat_filter.md R191). -/
def Obligations.EdgeCompletionBelowTheMinimumCounts : Prop :=
  ∀ (p : Proto) (s : State) (ts : Timestamp) (b : Bool) (w : BitVec (Config.total p)),
    (s.dec p).en = true → (s.dec p).insync = true →
    symStep (desc p) (s.dec p).ph (s.dec p).first (classify (desc p) (ts - (s.dec p).lastTs)) = .bit b →
    (s.dec p).k.toNat + 1 = Config.total p →
    (p = .aur ∨ p = .wt4 → xor (s.dec p).px b = false) →
    w = BitVec.ofNat (Config.total p) (2 * (s.dec p).cand.toNat + b.toNat) →
    (if w = (s.dec p).prev then (s.dec p).rep.toNat else 0) + 1 < (s.dec p).minrep.toNat →
    exec (edgeInstr p ts) s = .next (s.setDec p
      { s.dec p with
        lastTs := ts, insync := decide (p = .wt4), k := 0, ph := false, first := false, cand := 0, px := false, prev := w
        rep := BitVec.ofNat 8 ((if w = (s.dec p).prev then (s.dec p).rep.toNat else 0) + 1) })

/-- EDGE that completes a valid frame which reaches the minimum while `in_cb = 0`: TRAP ENTRY. The message is saved in `msg`, `in_cb`
is set, the run ends, and the CALLBACK is raised on `msg_stb[p]` (44_dispatcher.md R201, 60_exceptions.md R269). -/
def Obligations.EdgeCompletionAtTheMinimumCallsBack : Prop :=
  ∀ (p : Proto) (s : State) (ts : Timestamp) (b : Bool) (w : BitVec (Config.total p)),
    (s.dec p).en = true → (s.dec p).insync = true →
    symStep (desc p) (s.dec p).ph (s.dec p).first (classify (desc p) (ts - (s.dec p).lastTs)) = .bit b →
    (s.dec p).k.toNat + 1 = Config.total p →
    (p = .aur ∨ p = .wt4 → xor (s.dec p).px b = false) →
    w = BitVec.ofNat (Config.total p) (2 * (s.dec p).cand.toNat + b.toNat) →
    (s.dec p).minrep.toNat ≤ (if w = (s.dec p).prev then (s.dec p).rep.toNat else 0) + 1 →
    (s.dec p).inCb = false →
    exec (edgeInstr p ts) s = .next { s.setDec p
      { s.dec p with
        lastTs := ts, insync := decide (p = .wt4), k := 0, ph := false, first := false, cand := 0, px := false, prev := w
        rep := 0, inCb := true, msg := w } with
      msgStb := s.msgStb.set p true
      obs := s.obs ++ [.callback p (w.setWidth 36)] }

/-- The same frame while `in_cb = 1` is dropped: E3 (44_dispatcher.md R202, 60_exceptions.md R262). The run ends all the same. That
the model records E3 as the drop with its word is its choice (log 11). -/
def Obligations.EdgeCompletionDuringACallbackIsDropped : Prop :=
  ∀ (p : Proto) (s : State) (ts : Timestamp) (b : Bool) (w : BitVec (Config.total p)),
    (s.dec p).en = true → (s.dec p).insync = true →
    symStep (desc p) (s.dec p).ph (s.dec p).first (classify (desc p) (ts - (s.dec p).lastTs)) = .bit b →
    (s.dec p).k.toNat + 1 = Config.total p →
    (p = .aur ∨ p = .wt4 → xor (s.dec p).px b = false) →
    w = BitVec.ofNat (Config.total p) (2 * (s.dec p).cand.toNat + b.toNat) →
    (s.dec p).minrep.toNat ≤ (if w = (s.dec p).prev then (s.dec p).rep.toNat else 0) + 1 →
    (s.dec p).inCb = true →
    exec (edgeInstr p ts) s = .next { s.setDec p
      { s.dec p with
        lastTs := ts, insync := decide (p = .wt4), k := 0, ph := false, first := false, cand := 0, px := false, prev := w
        rep := 0 } with
      obs := s.obs ++ [.drop p (w.setWidth 36)] }

/-- What an EDGE leaves alone: every other decoder, the configuration of its own, the encoder, the result port and the pending ISRECV;
it puts out at most one thing (10_state.md R21; 60_exceptions.md R268, R276). -/
def Obligations.EdgeFrame : Prop :=
  ∀ (p : Proto) (s : State) (ts : Timestamp), ∃ (t : State) (o : Option Obs),
    exec (edgeInstr p ts) s = .next t
    ∧ t.obs = s.obs ++ o.toList
    ∧ (∀ q, q ≠ p → t.dec q = s.dec q ∧ t.msgStb.get q = s.msgStb.get q)
    ∧ (t.dec p).en = (s.dec p).en ∧ (t.dec p).minrep = (s.dec p).minrep ∧ (t.dec p).irq = (s.dec p).irq
    ∧ ((s.dec p).inCb = true → (t.dec p).inCb = true)
    ∧ t.enc = s.enc ∧ t.isrecv = s.isrecv ∧ t.resStb = s.resStb ∧ t.res = s.res ∧ t.params = s.params
    ∧ t.inputs = s.inputs ∧ t.todo = s.todo ∧ t.freeIx = s.freeIx

/-- Where what an EDGE puts out can come from: E1 only in BIT_k with an illegal pulse, E2 only from EDGE.WT4 in BIT_8, E4 only from
EDGE.AUR and EDGE.WT4 in BIT_31, a drop only on the last bit with `in_cb = 1`, a CALLBACK only on the last bit with `in_cb = 0`
(60_exceptions.md R260 to R263, R268). Of E2, E4, the drop and the CALLBACK this is the place; their causes are in the statements of
those completions above. That E3 is recorded as the drop and never as a label, though R284 lists it among the labels, is the model's
choice (log 11). -/
def Obligations.EdgeLabelsComeOnlyFromTheirPlaces : Prop :=
  ∀ (p : Proto) (s t : State) (ts : Timestamp), exec (edgeInstr p ts) s = .next t →
    (t.obs = s.obs ++ [.error p .e1] → (s.dec p).insync = true
      ∧ IllegalPulse (desc p) (s.dec p).ph (s.dec p).first (classify (desc p) (ts - (s.dec p).lastTs)))
    ∧ (t.obs = s.obs ++ [.error p .e2] → p = .wt4 ∧ (s.dec p).insync = true ∧ (s.dec p).k.toNat = 8)
    ∧ t.obs ≠ s.obs ++ [.error p .e3]
    ∧ (t.obs = s.obs ++ [.error p .e4] → (p = .aur ∨ p = .wt4) ∧ (s.dec p).insync = true ∧ (s.dec p).k.toNat = 31)
    ∧ (∀ w, t.obs = s.obs ++ [.drop p w] → (s.dec p).inCb = true ∧ (s.dec p).k.toNat + 1 = Config.total p)
    ∧ (∀ w, t.obs = s.obs ++ [.callback p w] → (s.dec p).inCb = false ∧ (s.dec p).k.toNat + 1 = Config.total p)

/-- The progress counter on an EDGE (10_state.md R25, R26), in every state that keeps the decoder's invariant. -/
def Obligations.ProgressCounterOnlyRisesOrResets : Prop :=
  ∀ (p : Proto) (s t : State) (ts : Timestamp), Dec.Inv (desc p) (s.dec p) → exec (edgeInstr p ts) s = .next t →
    ((t.dec p).ord = (s.dec p).ord
        ∧ ((s.dec p).en = false ∨ ((s.dec p).insync = false ∧ syncHit (desc p) (ts - (s.dec p).lastTs) = false)))
    ∨ (t.dec p).ord = (s.dec p).ord + 1
    ∨ (t.dec p).ord = (s.dec p).ord + 2
    ∨ ((t.dec p).ord = -1 ∧ (t.dec p).insync = false)
    ∨ ((t.dec p).ord = 0 ∧ ((s.dec p).insync = false ∨ (p = .wt4 ∧ (s.dec p).k.toNat = 31)))

/-- "feeding a duration known to be INVALID for the current state transitions the decoder back to WAITING_SYNC, and a subsequent valid
sync pulse begins a fresh, independent decode unaffected by prior partial state" (42_decoder_protocols.md R176). -/
def Obligations.InvalidPulseThenSyncStartsAfresh : Prop :=
  ∀ (p : Proto) (s : State) (ts1 ts2 : Timestamp), (s.dec p).en = true → (s.dec p).insync = true →
    IllegalPulse (desc p) (s.dec p).ph (s.dec p).first (classify (desc p) (ts1 - (s.dec p).lastTs)) →
    syncHit (desc p) (ts2 - ts1) = true →
    ∃ t u, exec (edgeInstr p ts1) s = .next t ∧ (t.dec p).insync = false
      ∧ exec (edgeInstr p ts2) t = .next u
      ∧ u.dec p =
        { s.dec p with lastTs := ts2, insync := true, k := 0, ph := false, first := false, cand := 0, px := false }

/-! ### FRAME -/

/-- One valid frame in its wire format, received by an enabled decoder in BIT_0, reaches the repeat filter as the word it encodes, and
the decoder is left in WAITING_SYNC, WT4 in BIT_0 (30_encoding.md R89 to R94, R106; 41_decoder_step.md R149 to R152). An ISRECV that
waits for this decoder answers 1 on the way. (FRAME as one operation is the model's reading of R106, log 6; the POLL after each of its
pulses is the model's choice, log 5: 93_implementation_defined.md U13 leaves the instants free.) -/
def Obligations.FrameDeliversItsWordToTheFilter : Prop :=
  ∀ (p : Proto) (s : State) (w : BitVec (Config.total p)) (d : Dec (Config.total p)) (u : State),
    (s.dec p).en = true → (s.dec p).insync = true → (s.dec p).k = 0 → (s.dec p).ph = false → (s.dec p).first = false →
    (s.dec p).cand = 0 → (s.dec p).px = false → s.Waiting → validFrame (desc p) w = true →
    d = { s.dec p with
      insync := decide (p = .wt4), lastTs := (s.dec p).lastTs + BitVec.ofNat 32 (frameSegs (desc p) w).sum } →
    u = (if (s.isrecv.map fun r => r.p) = some p then
      { s with isrecv := none, resStb := true, res := true, obs := s.obs ++ [.result true] } else s) →
    exec (frameInstr p w) s = .next ((u.setDec p (d.repeatFilter w).1).signal p (d.repeatFilter w).2)

/-- "any duration sequence where the final parity XOR ≠ 0 must never produce a callback": a frame of AUR, or of WT4 with the right
constant, whose exclusive or is 1 ends in E4 and nothing else of the decoder changes (30_encoding.md R95; 60_exceptions.md R263; FRAME
as one operation is the model's reading of R106, log 6). -/
def Obligations.FrameWithAWrongParityIsRejected : Prop :=
  ∀ (p : Proto) (s : State) (w : BitVec (Config.total p)),
    p = .aur ∨ (p = .wt4 ∧ w.extractLsb' 23 3 = 0b110#3) → xorOfAllBits w = true →
    (s.dec p).en = true → (s.dec p).insync = true → (s.dec p).k = 0 → (s.dec p).ph = false → (s.dec p).first = false →
    (s.dec p).cand = 0 → (s.dec p).px = false → s.isrecv = none →
    exec (frameInstr p w) s = .next { s.setDec p
      { s.dec p with insync := false, lastTs := (s.dec p).lastTs + BitVec.ofNat 32 (frameSegs (desc p) w).sum } with
      obs := s.obs ++ [.error p .e4] }

/-! ### Repeat filter, dispatcher, CBRET -/

/-- "a continuously repeating transmission yields one callback per N repeats" (43_repeat_filter.md R192): of a run of identical frames
through the filter, every CALLBACK answered, the N-th, 2N-th, 3N-th … raise it and no other. -/
def Obligations.RepeatRunCallsBackOncePerN : Prop :=
  ∀ (p : Proto) (d : Dec (Config.total p)) (w : BitVec (Config.total p)) (n : Nat),
    1 ≤ d.minrep.toNat → d.inCb = false → d.rep = 0 ∨ d.prev ≠ w →
    (filterRun d (List.replicate n w)).2 =
        (List.range n).map (fun i => if (i + 1) % d.minrep.toNat = 0 then some (.callback w) else none)
    ∧ (0 < n → (filterRun d (List.replicate n w)).1.rep.toNat = n % d.minrep.toNat
        ∧ (filterRun d (List.replicate n w)).1.prev = w)

/-- "If any field differs, the repeat counter resets to 0": a run in which no frame equals the one before it raises nothing where the
minimum is 2 or more, and leaves the count at 1 (43_repeat_filter.md R190, R191). -/
def Obligations.RunWithoutRepeatsNeverCallsBack : Prop :=
  ∀ (p : Proto) (d : Dec (Config.total p)) (w : BitVec (Config.total p)) (ws : List (BitVec (Config.total p))),
    2 ≤ d.minrep.toNat → w ≠ d.prev → (w :: ws).IsChain (fun x y => y ≠ x) →
    (filterRun d (w :: ws)).2 = List.replicate (ws.length + 1) none
    ∧ (filterRun d (w :: ws)).1.rep = 1
    ∧ (filterRun d (w :: ws)).1.prev = (w :: ws).getLast (List.cons_ne_nil w ws)

/-- While `in_cb = 1` no operation but RESET rewrites `msg` or delivers another message of that decoder (10_state.md R24;
44_dispatcher.md R201, R202; 60_exceptions.md R272). -/
def Obligations.MessageIsStableDuringItsCallback : Prop :=
  ∀ (i : Instr) (s t : State) (p : Proto), i ≠ .reset → (s.dec p).inCb = true → exec i s = .next t →
    (t.dec p).msg = (s.dec p).msg ∧ callbacksOf p t.obs = callbacksOf p s.obs

/-- CBRET, operation code 7: TRAP RETURN (44_dispatcher.md R203, 60_exceptions.md R271). -/
def Obligations.CbretReturnsFromTheCallback : Prop :=
  ∀ (p : Proto) (s : State),
    (∀ a b, decodeCommand (BitVec.ofNat 8 (16 * 7 + pidOf p)) a b = .ok (cbretInstr p))
    ∧ ((s.dec p).inCb = true → exec (cbretInstr p) s = .next (s.setDec p
      { s.dec p with inCb := false, insync := false, k := 0, ph := false, first := false, cand := 0, px := false }))
    ∧ ((s.dec p).inCb = false → exec (cbretInstr p) s = .next s)

/-! ### Control operations -/

/-- ENABLE, operation code 2 (45_control_ops.md R211). -/
def Obligations.EnableResult : Prop :=
  ∀ (p : Proto) (s : State),
    (∀ a b, decodeCommand (BitVec.ofNat 8 (16 * 2 + pidOf p)) a b = .ok (enableInstr p))
    ∧ exec (enableInstr p) s = .next (s.setDec p
      { s.dec p with en := true, insync := false, k := 0, ph := false, first := false, cand := 0, px := false })

/-- DISABLE, operation code 3 (45_control_ops.md R212). Nothing but `en` changes, so a decoder that is receiving stays so, and a
callback in progress stays in progress. -/
def Obligations.DisableResult : Prop :=
  ∀ (p : Proto) (s : State),
    (∀ a b, decodeCommand (BitVec.ofNat 8 (16 * 3 + pidOf p)) a b = .ok (disableInstr p))
    ∧ exec (disableInstr p) s = .next (s.setDec p { s.dec p with en := false })

/-- INIT, operation code 4, with `minrep` on `arg_a[7:0]` and `irq` on `arg_b` (45_control_ops.md R213). -/
def Obligations.InitResult : Prop :=
  ∀ (p : Proto) (s : State) (minrep irq : BitVec 8),
    (∀ a, a.extractLsb' 0 8 = minrep → decodeCommand (BitVec.ofNat 8 (16 * 4 + pidOf p)) a irq = .ok (initInstr p minrep irq))
    ∧ exec (initInstr p minrep irq) s = .next (s.setDec p
      { s.dec p with
        minrep := minrep, irq := irq, rep := 0, prev := 0, en := true
        insync := false, k := 0, ph := false, first := false, cand := 0, px := false })

/-- POLL, operation code 5, answers `receiving(p)` on `res` with `res_stb` and changes nothing else (45_control_ops.md R214, R215). -/
def Obligations.PollAnswersReceiving : Prop :=
  ∀ (p : Proto) (s : State) (b : Bool), b = ((s.dec p).insync && decide (4 ≤ (s.dec p).k.toNat)) →
    (∀ x y, decodeCommand (BitVec.ofNat 8 (16 * 5 + pidOf p)) x y = .ok (pollInstr p))
    ∧ exec (pollInstr p) s = .next { s with resStb := true, res := b, obs := s.obs ++ [.result b] }

/-- ISRECV makes its first POLL in the step that starts it: it answers 1 at once, or it waits (45_control_ops.md R216). -/
def Obligations.IsrecvStartsWithAPoll : Prop :=
  ∀ (p : Proto) (s : State) (timeoutMs : BitVec 16), s.isrecv = none →
    (((s.dec p).insync = true ∧ 4 ≤ (s.dec p).k.toNat) →
      exec (isrecvInstr p timeoutMs) s = .next { s with resStb := true, res := true, obs := s.obs ++ [.result true] })
    ∧ (¬ ((s.dec p).insync = true ∧ 4 ≤ (s.dec p).k.toNat) →
      exec (isrecvInstr p timeoutMs) s = .next { s with isrecv := some { p := p, ticksLeft := timeoutMs } })

/-- "the bound is reached at the `(timeout_ms + 1)`-th tick" (45_control_ops.md R217): a pending ISRECV whose decoder stays idle waits
through `n` ticks and answers 0 at tick `n + 1`. (The ticks stand in the model's queue of operations, log 4; that the last POLL is made in
the step of that tick is the model's choice, log 5: 93_implementation_defined.md U13.) -/
def Obligations.IsrecvEndsAtTheTickAfterItsTimeout : Prop :=
  ∀ (s : State) (r : Isrecv), s.isrecv = some r → (s.dec r.p).receiving = false →
    (∀ j, j ≤ r.ticksLeft.toNat → ∃ t,
      Sys2Proof.core.run j { s with todo := List.replicate (r.ticksLeft.toNat + 1) .msTick } = .next t
      ∧ t.isrecv = some { p := r.p, ticksLeft := r.ticksLeft - BitVec.ofNat 16 j } ∧ t.resStb = s.resStb)
    ∧ Sys2Proof.core.run (r.ticksLeft.toNat + 1) { s with todo := List.replicate (r.ticksLeft.toNat + 1) .msTick } =
      .next { s with todo := [], isrecv := none, resStb := true, res := false, obs := [.result false] }

/-- A pending ISRECV polls after an edge: it answers 1 in the step that brings its decoder to BIT_4, else it goes on waiting
(45_control_ops.md R216; the instants of the polls are the model's choice, log 5). -/
def Obligations.IsrecvEndsWhenReceptionIsSeen : Prop :=
  ∀ (s t : State) (r : Isrecv) (q : Proto) (ts : Timestamp) (rest : List Pending),
    s.isrecv = some r → s.todo = .op (.edgeStrobe q ts) :: rest →
    exec (edgeInstr q ts) { s with todo := rest, obs := [] } = .next t →
    step s = .next
      (if (t.dec r.p).insync = true ∧ 4 ≤ (t.dec r.p).k.toNat then
        { t with isrecv := none, resStb := true, res := true, obs := t.obs ++ [.result true] }
      else t)

/-- While an ISRECV is pending EDGE and CBRET commands are taken and any other command is ignored (45_control_ops.md R218). The POLL in the
step of a command that is taken is the model's choice (log 5; 93_implementation_defined.md U13). -/
def Obligations.CommandsDuringAnIsrecv : Prop :=
  ∀ (s : State) (r : Isrecv) (cmd : CmdByte) (a : ArgA) (b : ArgB) (rest : List Pending),
    s.isrecv = some r → s.todo = .op (.command cmd a b) :: rest →
    ((cmd.extractLsb' 4 4).toNat ≠ 1 → (cmd.extractLsb' 4 4).toNat ≠ 7 → step s = .next { s with todo := rest, obs := [] })
    ∧ ∀ p : Proto,
      (cmd = BitVec.ofNat 8 (0x10 + pidOf p) → ∃ t,
        exec (edgeInstr p (a.extractLsb' 0 32)) { s with todo := rest, obs := [] } = .next t ∧ step s = .next t.isrecvPoll)
      ∧ (cmd = BitVec.ofNat 8 (0x70 + pidOf p) → ∃ t,
        exec (cbretInstr p) { s with todo := rest, obs := [] } = .next t ∧ step s = .next t.isrecvPoll)

/-! ### Encoder -/

/-- An accepted SEND loads the burst of its frame word and makes the encoder busy; it touches nothing else (46_encoder.md R233, R238
to R242; 30_encoding.md R98). SEND.AUR where TX_PRESENT[AUR] is yes. The down-counter's 0, by which the first TXSTEP is due at once
(R237), is the model's choice (log 4). -/
def Obligations.SendLoadsTheBurst : Prop :=
  ∀ (s : State) (n : BitVec 8), s.enc.busy = false → n ≠ 0 →
    (∀ addr temp n1 n2, s.params.txPresentAur = true → exec (.sendAur addr temp n1 n2 n) s = .next { s with enc := { s.enc with
      queue := burst descAur (framewordAur addr temp n1 n2) n.toNat, p := .aur, busy := true, left := 0 } })
    ∧ (∀ addr chan hum temp, exec (.sendWt4 addr chan hum temp n) s = .next { s with enc := { s.enc with
      queue := burst descWt4 (framewordWt4 addr chan hum temp) n.toNat, p := .wt4, busy := true, left := 0 } })
    ∧ (∀ addr unit, exec (.sendLiv addr unit n) s = .next { s with enc := { s.enc with
      queue := burst descLiv (framewordLiv addr unit) n.toNat, p := .liv, busy := true, left := 0 } })
    ∧ (∀ addr unit, exec (.sendKop addr unit n) s = .next { s with enc := { s.enc with
      queue := burst descKop (framewordKop addr unit) n.toNat, p := .kop, busy := true, left := 0 } })
    ∧ (∀ addr unit, exec (.sendQuh addr unit n) s = .next { s with enc := { s.enc with
      queue := burst descQuh (framewordQuh addr unit) n.toNat, p := .quh, busy := true, left := 0 } })

/-- A SEND while a burst runs, a SEND of no frames, and SEND.AUR without an AUR encoder change nothing (46_encoder.md R233, R245;
30_encoding.md R102). -/
def Obligations.SendIsIgnored : Prop :=
  ∀ (s : State) (p : Proto) (a : ArgA) (n : BitVec 8),
    s.enc.busy = true ∨ n = 0 ∨ (p = .aur ∧ s.params.txPresentAur = false) → exec (sendInstr p a n) s = .next s

/-- "`burst` has an odd length" (46_encoder.md R236), so the pin ends LOW; and every segment is a positive number of microseconds
that the 13-bit down-counter holds (10_state.md R34). -/
def Obligations.BurstHasOddLengthAndSmallSegments : Prop :=
  ∀ (p : Proto) (w : BitVec (Config.total p)) (n : Nat),
    (burst (desc p) w n).length % 2 = 1 ∧ ∀ d ∈ burst (desc p) w n, 0 < d ∧ d < 2 ^ 13

/-- "The length of a burst is `n·(SYNC_NOM + F) [+ SHORT_NOM]`, and for WT4 `SYNC_NOM + n·F [+ SHORT_NOM]`, where `F` is the sum of
`frame_segs`" (46_encoder.md R244); the terminator stands where the number of segments of the body is even (R236). -/
def Obligations.BurstLastsItsFramesAndTerminator : Prop :=
  ∀ (p : Proto) (w : BitVec (Config.total p)) (n : Nat), 1 ≤ n →
    (burst (desc p) w n).sum =
      (if p = .wt4 then (desc p).syncNom + n * (frameSegs (desc p) w).sum
        else n * ((desc p).syncNom + (frameSegs (desc p) w).sum))
      + (if (burstBody (desc p) w n).length % 2 = 0 then (desc p).shortNom else 0)

/-- Pulse counts and nominal durations of one frame without its sync pulse (30_encoding.md R104). -/
def Obligations.FrameLengths : Prop :=
  (∀ w : BitVec 32, (frameSegs descAur w).length = 64 ∧ 32000 ≤ (frameSegs descAur w).sum ∧ (frameSegs descAur w).sum ≤ 64000)
  ∧ (∀ w : BitVec 32, 32 ≤ (frameSegs descWt4 w).length ∧ (frameSegs descWt4 w).length ≤ 64 ∧ (frameSegs descWt4 w).sum = 64000)
  ∧ (∀ w : BitVec 30, 30 ≤ (frameSegs descLiv w).length ∧ (frameSegs descLiv w).length ≤ 60
      ∧ 8400 ≤ (frameSegs descLiv w).sum ∧ (frameSegs descLiv w).sum ≤ 12600)
  ∧ (∀ w : BitVec 24, (frameSegs descKop w).length = 48 ∧ (frameSegs descKop w).sum = 11520)
  ∧ (∀ w : BitVec 36, (frameSegs descQuh w).length = 72 ∧ 25200 ≤ (frameSegs descQuh w).sum ∧ (frameSegs descQuh w).sum ≤ 50400)

/-- TXSTEP in its three cases (46_encoder.md R237); a segment of `d` microseconds takes `d · CLK_PER_US` cycles of the down-counter
(R244). The down-counter's 0 at the end of a burst is stated by no rule: it is the model's choice (log 4). -/
def Obligations.TxstepTakesOneSegment : Prop :=
  ∀ s : State,
    (s.enc.busy = false → exec .txstep s = .next s)
    ∧ (s.enc.busy = true → s.enc.queue = [] → exec .txstep s = .next { s with enc := { s.enc with
        level := s.enc.level.set s.enc.p false, busy := false, left := 0 } })
    ∧ ∀ d rest, s.enc.busy = true → s.enc.queue = d :: rest → exec .txstep s = .next { s with
        enc := { s.enc with
          level := s.enc.level.set s.enc.p (!s.enc.level.get s.enc.p), queue := rest, left := d * s.params.clkPerUs }
        obs := s.obs ++ [.seg s.enc.p (!s.enc.level.get s.enc.p) d] }

/-- An accepted SEND and the TXSTEPs after it put out the burst, its segments alternating from HIGH; a burst of `m` segments takes
`m + 1` TXSTEPs, the last of which finds the pin HIGH, drives it LOW and leaves the encoder idle (46_encoder.md R236, R237, R243). The
down-counter's 0 in the last state is the model's choice (log 4). -/
def Obligations.SendAndItsTxstepsPutOutTheBurst : Prop :=
  ∀ (s : State) (p : Proto) (a : ArgA) (n : BitVec 8) (segs : List Nat),
    s.enc.busy = false → s.enc.level = allLow → n ≠ 0 → (p = .aur → s.params.txPresentAur = true) →
    segs = burst (desc p) (sendWord p a) n.toNat →
    (∃ t, (List.replicate segs.length Instr.txstep).foldl andThen (exec (sendInstr p a n) s) = .next t
      ∧ t.enc.busy = true ∧ t.enc.queue = [] ∧ t.enc.level.get p = true)
    ∧ (List.replicate (segs.length + 1) Instr.txstep).foldl andThen (exec (sendInstr p a n) s) = .next { s with
        enc := { busy := false, p := p, queue := [], level := allLow, left := 0 }
        obs := s.obs ++ segmentsFrom p false segs }

/-- A segment lasts exactly its cycles: while nothing else arrives, the down-counter counts one a cycle, the pin stays, and TXSTEP is
the next step when the counter has reached 0 (46_encoder.md R232, R244; 60_exceptions.md R279; an empty tape is idle ports, log 4). Where
an ISRECV is pending, its POLL follows in the step of that TXSTEP: the model's choice (log 5), since 45_control_ops.md R216 and
93_implementation_defined.md U13 leave the instants of the polls free. -/
def Obligations.SegmentLastsItsDuration : Prop :=
  ∀ (s : State) (k : Nat), s.enc.busy = true → s.todo = [] → s.inputs = [] → k ≤ s.enc.left →
    ∃ t, Sys2Proof.core.run k s = .next t ∧ t.enc = { s.enc with left := s.enc.left - k } ∧ t.todo = []
      ∧ (k = s.enc.left → ∃ u, exec .txstep { t with obs := [] } = .next u ∧ step t = .next u.isrecvPoll)

/-! ### The machine -/

/-- "No operation on decoder `p` reads or writes any field of `dec[q]` for `q ≠ p`", and the encoder and the decoders are disjoint
(10_state.md R21): what an operation writes. -/
def Obligations.OperationsTouchOnlyTheirPart : Prop :=
  ∀ (i : Instr) (s t : State), exec i s = .next t →
    (∀ p, partOf i = .decoder p → t.enc = s.enc ∧ ∀ q, q ≠ p → t.dec q = s.dec q)
    ∧ (partOf i = .encoder → ∀ q, t.dec q = s.dec q)

/-- The same rule for what an operation reads: what it does to its part is a function of that part and its operands alone (and of the
open parameters, for the encoder) (10_state.md R21). -/
def Obligations.OperationsReadOnlyTheirPart : Prop :=
  ∀ (i : Instr) (s s' t t' : State), exec i s = .next t → exec i s' = .next t' →
    (∀ p, partOf i = .decoder p → s.dec p = s'.dec p → t.dec p = t'.dec p)
    ∧ (partOf i = .encoder → s.params = s'.params → s.enc = s'.enc → t.enc = t'.enc)

/-- RESET writes every field of the spec's state (70_reset_and_hazards.md R290, R291) and leaves the open parameters (R292); the
model's own fields stay, and the down-counter's 0 is the model's choice (log 4). -/
def Obligations.ResetOperation : Prop :=
  ∀ s : State, ∃ t, exec .reset s = .next t
    ∧ (∀ p, t.dec p =
      { en := false, insync := false, k := 0, ph := false, first := false, cand := 0, px := false, prev := 0, rep := 0
        minrep := 2, irq := 0xFF, inCb := false, lastTs := 0, msg := 0 })
    ∧ t.enc = { busy := false, p := .aur, queue := [], level := allLow, left := 0 }
    ∧ t.isrecv = none ∧ t.msgStb = allLow ∧ t.resStb = false ∧ t.res = false
    ∧ t.params = s.params ∧ t.inputs = s.inputs ∧ t.todo = s.todo ∧ t.obs = s.obs ∧ t.freeIx = s.freeIx

/-- The state right after reset (10_state.md R40; 70_reset_and_hazards.md R290, R291). -/
def Obligations.ResetStateValues : Prop :=
  (∀ p, State.reset.dec p =
    { en := false, insync := false, k := 0, ph := false, first := false, cand := 0, px := false, prev := 0, rep := 0
      minrep := 2, irq := 0xFF, inCb := false, lastTs := 0, msg := 0 })
  ∧ State.reset.enc.busy = false ∧ State.reset.enc.p = .aur ∧ State.reset.enc.queue = [] ∧ State.reset.enc.level = allLow
  ∧ State.reset.isrecv = none ∧ State.reset.msgStb = allLow ∧ State.reset.resStb = false ∧ State.reset.res = false

/-- A step runs the operation that is presented: where its bits decode to `i` and no ISRECV is pending (or `i` is taken during one), the
step is `exec` of `i`, and after it the POLL of a pending ISRECV. The presented operation is removed and the outputs of the step before are
cleared first. (The queue of operations and the instant of the POLL are the model's choice, log 4 and log 5.) -/
def Obligations.StepRunsTheDecodedOperation : Prop :=
  ∀ (s : State) (word : OpWord) (rest : List Pending) (i : Instr),
    s.todo = .op word :: rest → decode word = .ok i → s.isrecv = none ∨ takenDuringIsrecv i = true →
    ∃ t, exec i { s with todo := rest, obs := [] } = .next t ∧ step s = .next t.isrecvPoll

/-- A reserved command is ignored: "no state changes, no result strobe" (30_encoding.md R102); the last form is a SEND to a protocol
without an encoder. (The model's queue of operations loses the entry, and its record of outputs is empty.) -/
def Obligations.ReservedCommandIsIgnored : Prop :=
  ∀ (s : State) (cmd : CmdByte) (a : ArgA) (b : ArgB) (rest : List Pending),
    s.todo = .op (.command cmd a b) :: rest →
    (cmd.extractLsb' 4 4).toNat = 0 ∨ 9 ≤ (cmd.extractLsb' 4 4).toNat ∨ cmd.getLsbD 3 = true
      ∨ 5 ≤ (cmd.extractLsb' 0 3).toNat
      ∨ (∃ p, cmd = BitVec.ofNat 8 (0x80 + pidOf p) ∧ txPresent s.params p = false) →
    step s = .next { s with todo := rest, obs := [] }

/-- "Events arriving in the same clock cycle are processed in this order: first every `edge_stb[p]` that is high, in increasing `p`; then
the command on `cmd_stb`; then, if the encoder's down-counter expired in this cycle, the TXSTEP" (20_memory.md R68). While `rst` is high
every strobe and command is ignored (R290). The `ms_tick` between them and the POLL of a pending ISRECV in the step of the
TXSTEP are the model's choice (log 5; 93_implementation_defined.md U13). -/
def Obligations.EventsOfACycleComeInOrder : Prop :=
  ∀ s : State, s.todo = [] →
    (s.enc.busy = true → s.enc.left = 0 → ∃ t, exec .txstep { s with obs := [] } = .next t ∧ step s = .next t.isrecvPoll)
    ∧ (¬ (s.enc.busy = true ∧ s.enc.left = 0) →
      ∀ (x : PortIn) (rest : List PortIn), s.inputs = x :: rest → ∃ t, step s = .next t ∧ t.inputs = rest ∧ t.todo =
        if x.rst then [.op .rstPin]
        else (if x.edgeStb.aur then [.op (.edgeStrobe .aur x.ts)] else [])
          ++ (if x.edgeStb.wt4 then [.op (.edgeStrobe .wt4 x.ts)] else [])
          ++ (if x.edgeStb.liv then [.op (.edgeStrobe .liv x.ts)] else [])
          ++ (if x.edgeStb.kop then [.op (.edgeStrobe .kop x.ts)] else [])
          ++ (if x.edgeStb.quh then [.op (.edgeStrobe .quh x.ts)] else [])
          ++ (if x.msTick then [.msTick] else [])
          ++ (if x.cmdStb then [.op (.command x.cmd x.argA x.argB)] else []))

/-- "Edges for different decoders commute" (20_memory.md R68): two EDGEs of different decoders give the same state in either order, but
for the order of what they put out. -/
def Obligations.EdgesOfDifferentDecodersCommute : Prop :=
  ∀ (p q : Proto) (s : State) (ts ts' : Timestamp), p ≠ q →
    ∃ t u, andThen (exec (edgeInstr p ts) s) (edgeInstr q ts') = .next t
      ∧ andThen (exec (edgeInstr q ts') s) (edgeInstr p ts) = .next u
      ∧ t.obs.Perm u.obs ∧ { t with obs := [] } = { u with obs := [] }

/-- The output strobes last one cycle (20_memory.md R61), and the clock touches no decoder (41_decoder_step.md R154: no watchdog). What
`res` shows afterwards is free where an answer stood on it (93_implementation_defined.md U17) and unchanged where none did. That a free
`res` is then held from cycle to cycle, until the next answer or RESET, is the model's choice (log 1): U17 leaves every such cycle open. -/
def Obligations.ClockEndsTheStrobes : Prop :=
  ∀ s : State, s.todo = [] → ¬ (s.enc.busy = true ∧ s.enc.left = 0) →
    ∃ t, step s = .next t ∧ t.msgStb = allLow ∧ t.resStb = false ∧ (s.resStb = false → t.res = s.res) ∧ t.obs = []
      ∧ (∀ p, t.dec p = s.dec p) ∧ t.enc = { s.enc with left := s.enc.left - 1 } ∧ t.isrecv = s.isrecv ∧ t.params = s.params

/-- "No error leaves the PTC" (60_exceptions.md R264): no step of any state stops. -/
def Obligations.MachineNeverStops : Prop := ∀ s : State, ∃ t, step s = .next t

/-- The state after reset keeps the invariant (10_state.md R27; 46_encoder.md R236, R237). Two of its clauses are the model's choice: the
down-counter's 0 while the encoder is idle (log 4), and `State.Waiting`, that the decoder of a pending ISRECV is not receiving (log 5). -/
def Obligations.InvariantHoldsAtReset : Prop := State.reset.Inv

/-- Every step keeps the invariant (10_state.md R27; 46_encoder.md R236, R237). Two of its clauses are the model's choice: the down-counter's
0 while the encoder is idle (log 4), and `State.Waiting`, which is kept because the model polls a pending ISRECV in the step of each
operation (log 5); 45_control_ops.md R216 tells a model not to rely on the rate of the polls, and 93_implementation_defined.md U13 leaves
their instants free. -/
def Obligations.InvariantKeptByEveryStep : Prop := ∀ s t : State, s.Inv → step s = .next t → t.Inv

/-- "the worst outcome of any malformed input is a missed message, never a corrupted one" (60_exceptions.md R264; 10_state.md R28): every
message a step delivers is a frame word that passes its protocol's validation, from every state that keeps the invariant (two clauses
of which are the model's choice, log 4 and log 5). -/
def Obligations.OnlyValidMessagesAreDelivered : Prop :=
  ∀ s t : State, s.Inv → step s = .next t → ∀ o ∈ t.obs, o.Harmless

/-- The round trip under LOOPBACK with no CBRET (46_encoder.md R246): exactly one CALLBACK, its word the frame word that was sent, raised by
the EDGE that closes the last pulse of frame `m`, which is the TXSTEP after the segments of `m` frames. `j` counts the TXSTEPs. -/
def Obligations.LoopbackDeliversTheMessageSent : Prop :=
  ∀ (s t : State) (p : Proto) (a : ArgA) (n : BitVec 8) (t0 : Timestamp) (j : Nat),
    Enc.Inv s.params s.enc → s.enc.busy = false → (p = .aur → s.params.txPresentAur = true) →
    (s.dec p).en = true → (s.dec p).insync = false → (s.dec p).inCb = false → (s.dec p).rep = 0 →
    1 ≤ (s.dec p).minrep.toNat → (s.dec p).minrep.toNat ≤ n.toNat → syncHit (desc p) (t0 - (s.dec p).lastTs) = false →
    exec (sendInstr p a n) s = .next t →
    callbacksOf p (loopbackRun p j (t, t0)).1.obs =
      callbacksOf p s.obs ++
        (if (burstBody (desc p) (sendWord p a) (s.dec p).minrep.toNat).length < j then
          [.callback p ((sendWord p a).setWidth 36)] else [])

/-- The same with every CALLBACK answered by a CBRET before the next edge: a protocol other than WT4 gives `floor(n / m)` CALLBACKs, all
with that word (46_encoder.md R246). -/
def Obligations.LoopbackWithEveryCallbackAnswered : Prop :=
  ∀ (s t : State) (p : Proto) (a : ArgA) (n : BitVec 8) (t0 : Timestamp), p ≠ .wt4 →
    Enc.Inv s.params s.enc → s.enc.busy = false → (p = .aur → s.params.txPresentAur = true) →
    (s.dec p).en = true → (s.dec p).insync = false → (s.dec p).inCb = false → (s.dec p).rep = 0 →
    1 ≤ (s.dec p).minrep.toNat → (s.dec p).minrep.toNat ≤ n.toNat → syncHit (desc p) (t0 - (s.dec p).lastTs) = false →
    exec (sendInstr p a n) s = .next t →
    callbacksOf p (t.loopbackAnswered p t0).obs =
      callbacksOf p s.obs ++ List.replicate (n.toNat / (s.dec p).minrep.toNat) (.callback p ((sendWord p a).setWidth 36))

end
end

