-- ==== Sys2Proof/Laws/State.lean ====
section
/-!
SUPPORT. The small lemmas of the records: one for each field and each named update, true by rfl, and the get-and-set laws of
`PerProto` and of `State.dec`.
-/
namespace Sys2Proof

variable {α : Type}

@[simp] theorem PerProto.get_set_same (x : PerProto α) (p : Proto) (v : α) : (x.set p v).get p = v := by cases p <;> rfl

@[simp] theorem PerProto.get_set_ne (x : PerProto α) {p q : Proto} (v : α) (h : q ≠ p) : (x.set p v).get q = x.get q := by
  cases p <;> cases q <;> first | rfl | exact absurd rfl h

theorem PerProto.ext_get {x y : PerProto α} (h : ∀ p, x.get p = y.get p) : x = y := by
  cases x; cases y
  simp only [PerProto.mk.injEq]
  exact ⟨h .aur, h .wt4, h .liv, h .kop, h .quh⟩

@[simp] theorem Proto.mem_all (p : Proto) : p ∈ Proto.all := by cases p <;> decide

namespace Machine

variable {W : Nat}

@[simp] theorem allLow_get (p : Proto) : allLow.get p = false := by cases p <;> rfl

/-! ### `goto` -/

@[simp] theorem Dec.gotoWaitingSync_en (d : Dec W) : d.gotoWaitingSync.en = d.en := rfl
@[simp] theorem Dec.gotoWaitingSync_insync (d : Dec W) : d.gotoWaitingSync.insync = false := rfl
@[simp] theorem Dec.gotoWaitingSync_k (d : Dec W) : d.gotoWaitingSync.k = 0 := rfl
@[simp] theorem Dec.gotoWaitingSync_ph (d : Dec W) : d.gotoWaitingSync.ph = false := rfl
@[simp] theorem Dec.gotoWaitingSync_first (d : Dec W) : d.gotoWaitingSync.first = false := rfl
@[simp] theorem Dec.gotoWaitingSync_cand (d : Dec W) : d.gotoWaitingSync.cand = 0 := rfl
@[simp] theorem Dec.gotoWaitingSync_px (d : Dec W) : d.gotoWaitingSync.px = false := rfl
@[simp] theorem Dec.gotoWaitingSync_prev (d : Dec W) : d.gotoWaitingSync.prev = d.prev := rfl
@[simp] theorem Dec.gotoWaitingSync_rep (d : Dec W) : d.gotoWaitingSync.rep = d.rep := rfl
@[simp] theorem Dec.gotoWaitingSync_minrep (d : Dec W) : d.gotoWaitingSync.minrep = d.minrep := rfl
@[simp] theorem Dec.gotoWaitingSync_irq (d : Dec W) : d.gotoWaitingSync.irq = d.irq := rfl
@[simp] theorem Dec.gotoWaitingSync_inCb (d : Dec W) : d.gotoWaitingSync.inCb = d.inCb := rfl
@[simp] theorem Dec.gotoWaitingSync_lastTs (d : Dec W) : d.gotoWaitingSync.lastTs = d.lastTs := rfl
@[simp] theorem Dec.gotoWaitingSync_msg (d : Dec W) : d.gotoWaitingSync.msg = d.msg := rfl
@[simp] theorem Dec.gotoBit0_en (d : Dec W) : d.gotoBit0.en = d.en := rfl
@[simp] theorem Dec.gotoBit0_insync (d : Dec W) : d.gotoBit0.insync = true := rfl
@[simp] theorem Dec.gotoBit0_k (d : Dec W) : d.gotoBit0.k = 0 := rfl
@[simp] theorem Dec.gotoBit0_ph (d : Dec W) : d.gotoBit0.ph = false := rfl
@[simp] theorem Dec.gotoBit0_first (d : Dec W) : d.gotoBit0.first = false := rfl
@[simp] theorem Dec.gotoBit0_cand (d : Dec W) : d.gotoBit0.cand = 0 := rfl
@[simp] theorem Dec.gotoBit0_px (d : Dec W) : d.gotoBit0.px = false := rfl
@[simp] theorem Dec.gotoBit0_prev (d : Dec W) : d.gotoBit0.prev = d.prev := rfl
@[simp] theorem Dec.gotoBit0_rep (d : Dec W) : d.gotoBit0.rep = d.rep := rfl
@[simp] theorem Dec.gotoBit0_minrep (d : Dec W) : d.gotoBit0.minrep = d.minrep := rfl
@[simp] theorem Dec.gotoBit0_irq (d : Dec W) : d.gotoBit0.irq = d.irq := rfl
@[simp] theorem Dec.gotoBit0_inCb (d : Dec W) : d.gotoBit0.inCb = d.inCb := rfl
@[simp] theorem Dec.gotoBit0_lastTs (d : Dec W) : d.gotoBit0.lastTs = d.lastTs := rfl
@[simp] theorem Dec.gotoBit0_msg (d : Dec W) : d.gotoBit0.msg = d.msg := rfl

/-! ### ENABLE, DISABLE and INIT on one decoder -/

@[simp] theorem Dec.enable_en (d : Dec W) : d.enable.en = true := rfl
@[simp] theorem Dec.enable_insync (d : Dec W) : d.enable.insync = false := rfl
@[simp] theorem Dec.enable_k (d : Dec W) : d.enable.k = 0 := rfl
@[simp] theorem Dec.enable_ph (d : Dec W) : d.enable.ph = false := rfl
@[simp] theorem Dec.enable_first (d : Dec W) : d.enable.first = false := rfl
@[simp] theorem Dec.enable_cand (d : Dec W) : d.enable.cand = 0 := rfl
@[simp] theorem Dec.enable_px (d : Dec W) : d.enable.px = false := rfl
@[simp] theorem Dec.enable_prev (d : Dec W) : d.enable.prev = d.prev := rfl
@[simp] theorem Dec.enable_rep (d : Dec W) : d.enable.rep = d.rep := rfl
@[simp] theorem Dec.enable_minrep (d : Dec W) : d.enable.minrep = d.minrep := rfl
@[simp] theorem Dec.enable_irq (d : Dec W) : d.enable.irq = d.irq := rfl
@[simp] theorem Dec.enable_inCb (d : Dec W) : d.enable.inCb = d.inCb := rfl
@[simp] theorem Dec.enable_lastTs (d : Dec W) : d.enable.lastTs = d.lastTs := rfl
@[simp] theorem Dec.enable_msg (d : Dec W) : d.enable.msg = d.msg := rfl
@[simp] theorem Dec.disable_en (d : Dec W) : d.disable.en = false := rfl
@[simp] theorem Dec.disable_insync (d : Dec W) : d.disable.insync = d.insync := rfl
@[simp] theorem Dec.disable_k (d : Dec W) : d.disable.k = d.k := rfl
@[simp] theorem Dec.disable_ph (d : Dec W) : d.disable.ph = d.ph := rfl
@[simp] theorem Dec.disable_first (d : Dec W) : d.disable.first = d.first := rfl
@[simp] theorem Dec.disable_cand (d : Dec W) : d.disable.cand = d.cand := rfl
@[simp] theorem Dec.disable_px (d : Dec W) : d.disable.px = d.px := rfl
@[simp] theorem Dec.disable_prev (d : Dec W) : d.disable.prev = d.prev := rfl
@[simp] theorem Dec.disable_rep (d : Dec W) : d.disable.rep = d.rep := rfl
@[simp] theorem Dec.disable_minrep (d : Dec W) : d.disable.minrep = d.minrep := rfl
@[simp] theorem Dec.disable_irq (d : Dec W) : d.disable.irq = d.irq := rfl
@[simp] theorem Dec.disable_inCb (d : Dec W) : d.disable.inCb = d.inCb := rfl
@[simp] theorem Dec.disable_lastTs (d : Dec W) : d.disable.lastTs = d.lastTs := rfl
@[simp] theorem Dec.disable_msg (d : Dec W) : d.disable.msg = d.msg := rfl
@[simp] theorem Dec.init_en (d : Dec W) (m i : BitVec 8) : (d.init m i).en = true := rfl
@[simp] theorem Dec.init_insync (d : Dec W) (m i : BitVec 8) : (d.init m i).insync = false := rfl
@[simp] theorem Dec.init_k (d : Dec W) (m i : BitVec 8) : (d.init m i).k = 0 := rfl
@[simp] theorem Dec.init_ph (d : Dec W) (m i : BitVec 8) : (d.init m i).ph = false := rfl
@[simp] theorem Dec.init_first (d : Dec W) (m i : BitVec 8) : (d.init m i).first = false := rfl
@[simp] theorem Dec.init_cand (d : Dec W) (m i : BitVec 8) : (d.init m i).cand = 0 := rfl
@[simp] theorem Dec.init_px (d : Dec W) (m i : BitVec 8) : (d.init m i).px = false := rfl
@[simp] theorem Dec.init_prev (d : Dec W) (m i : BitVec 8) : (d.init m i).prev = 0 := rfl
@[simp] theorem Dec.init_rep (d : Dec W) (m i : BitVec 8) : (d.init m i).rep = 0 := rfl
@[simp] theorem Dec.init_minrep (d : Dec W) (m i : BitVec 8) : (d.init m i).minrep = m := rfl
@[simp] theorem Dec.init_irq (d : Dec W) (m i : BitVec 8) : (d.init m i).irq = i := rfl
@[simp] theorem Dec.init_inCb (d : Dec W) (m i : BitVec 8) : (d.init m i).inCb = d.inCb := rfl
@[simp] theorem Dec.init_lastTs (d : Dec W) (m i : BitVec 8) : (d.init m i).lastTs = d.lastTs := rfl
@[simp] theorem Dec.init_msg (d : Dec W) (m i : BitVec 8) : (d.init m i).msg = d.msg := rfl

/-! ### `dec[p]` -/

@[simp] theorem State.dec_aur (s : State) : s.dec .aur = s.aur := rfl
@[simp] theorem State.dec_wt4 (s : State) : s.dec .wt4 = s.wt4 := rfl
@[simp] theorem State.dec_liv (s : State) : s.dec .liv = s.liv := rfl
@[simp] theorem State.dec_kop (s : State) : s.dec .kop = s.kop := rfl
@[simp] theorem State.dec_quh (s : State) : s.dec .quh = s.quh := rfl

@[simp] theorem State.dec_setDec_same (s : State) (p : Proto) (d : Dec (Config.total p)) : (s.setDec p d).dec p = d := by
  cases p <;> rfl

@[simp] theorem State.dec_setDec_ne (s : State) {p q : Proto} (d : Dec (Config.total p)) (h : q ≠ p) :
    (s.setDec p d).dec q = s.dec q := by
  cases p <;> cases q <;> first | rfl | exact absurd rfl h

@[simp] theorem State.setDec_dec (s : State) (p : Proto) : s.setDec p (s.dec p) = s := by cases p <;> rfl

@[simp] theorem State.setDec_setDec (s : State) (p : Proto) (d d' : Dec (Config.total p)) :
    (s.setDec p d).setDec p d' = s.setDec p d' := by cases p <;> rfl

theorem State.setDec_comm (s : State) {p q : Proto} (h : p ≠ q) (d : Dec (Config.total p)) (e : Dec (Config.total q)) :
    (s.setDec p d).setDec q e = (s.setDec q e).setDec p d := by
  cases p <;> cases q <;> first | rfl | exact absurd rfl h

@[simp] theorem State.setDec_enc (s : State) (p : Proto) (d : Dec (Config.total p)) : (s.setDec p d).enc = s.enc := by
  cases p <;> rfl
@[simp] theorem State.setDec_isrecv (s : State) (p : Proto) (d : Dec (Config.total p)) : (s.setDec p d).isrecv = s.isrecv := by
  cases p <;> rfl
@[simp] theorem State.setDec_msgStb (s : State) (p : Proto) (d : Dec (Config.total p)) : (s.setDec p d).msgStb = s.msgStb := by
  cases p <;> rfl
@[simp] theorem State.setDec_resStb (s : State) (p : Proto) (d : Dec (Config.total p)) : (s.setDec p d).resStb = s.resStb := by
  cases p <;> rfl
@[simp] theorem State.setDec_res (s : State) (p : Proto) (d : Dec (Config.total p)) : (s.setDec p d).res = s.res := by
  cases p <;> rfl
@[simp] theorem State.setDec_params (s : State) (p : Proto) (d : Dec (Config.total p)) : (s.setDec p d).params = s.params := by
  cases p <;> rfl
@[simp] theorem State.setDec_inputs (s : State) (p : Proto) (d : Dec (Config.total p)) : (s.setDec p d).inputs = s.inputs := by
  cases p <;> rfl
@[simp] theorem State.setDec_todo (s : State) (p : Proto) (d : Dec (Config.total p)) : (s.setDec p d).todo = s.todo := by
  cases p <;> rfl
@[simp] theorem State.setDec_obs (s : State) (p : Proto) (d : Dec (Config.total p)) : (s.setDec p d).obs = s.obs := by
  cases p <;> rfl
@[simp] theorem State.setDec_freeIx (s : State) (p : Proto) (d : Dec (Config.total p)) : (s.setDec p d).freeIx = s.freeIx := by
  cases p <;> rfl

/-! ### Outputs -/

@[simp] theorem State.emit_dec (s : State) (o : Obs) (p : Proto) : (s.emit o).dec p = s.dec p := by cases p <;> rfl
@[simp] theorem State.emit_enc (s : State) (o : Obs) : (s.emit o).enc = s.enc := rfl
@[simp] theorem State.emit_isrecv (s : State) (o : Obs) : (s.emit o).isrecv = s.isrecv := rfl
@[simp] theorem State.emit_msgStb (s : State) (o : Obs) : (s.emit o).msgStb = s.msgStb := rfl
@[simp] theorem State.emit_resStb (s : State) (o : Obs) : (s.emit o).resStb = s.resStb := rfl
@[simp] theorem State.emit_res (s : State) (o : Obs) : (s.emit o).res = s.res := rfl
@[simp] theorem State.emit_params (s : State) (o : Obs) : (s.emit o).params = s.params := rfl
@[simp] theorem State.emit_inputs (s : State) (o : Obs) : (s.emit o).inputs = s.inputs := rfl
@[simp] theorem State.emit_todo (s : State) (o : Obs) : (s.emit o).todo = s.todo := rfl
@[simp] theorem State.emit_obs (s : State) (o : Obs) : (s.emit o).obs = s.obs ++ [o] := rfl
@[simp] theorem State.emit_freeIx (s : State) (o : Obs) : (s.emit o).freeIx = s.freeIx := rfl
@[simp] theorem State.answer_dec (s : State) (b : Bool) (p : Proto) : (s.answer b).dec p = s.dec p := by cases p <;> rfl
@[simp] theorem State.answer_enc (s : State) (b : Bool) : (s.answer b).enc = s.enc := rfl
@[simp] theorem State.answer_isrecv (s : State) (b : Bool) : (s.answer b).isrecv = s.isrecv := rfl
@[simp] theorem State.answer_msgStb (s : State) (b : Bool) : (s.answer b).msgStb = s.msgStb := rfl
@[simp] theorem State.answer_resStb (s : State) (b : Bool) : (s.answer b).resStb = true := rfl
@[simp] theorem State.answer_res (s : State) (b : Bool) : (s.answer b).res = b := rfl
@[simp] theorem State.answer_params (s : State) (b : Bool) : (s.answer b).params = s.params := rfl
@[simp] theorem State.answer_inputs (s : State) (b : Bool) : (s.answer b).inputs = s.inputs := rfl
@[simp] theorem State.answer_todo (s : State) (b : Bool) : (s.answer b).todo = s.todo := rfl
@[simp] theorem State.answer_obs (s : State) (b : Bool) : (s.answer b).obs = s.obs ++ [.result b] := rfl
@[simp] theorem State.answer_freeIx (s : State) (b : Bool) : (s.answer b).freeIx = s.freeIx := rfl

/-! ### The encoder -/

@[simp] theorem Enc.load_busy (e : Enc) (p : Proto) (segs : List Nat) : (e.load p segs).busy = true := rfl
@[simp] theorem Enc.load_p (e : Enc) (p : Proto) (segs : List Nat) : (e.load p segs).p = p := rfl
@[simp] theorem Enc.load_queue (e : Enc) (p : Proto) (segs : List Nat) : (e.load p segs).queue = segs := rfl
@[simp] theorem Enc.load_level (e : Enc) (p : Proto) (segs : List Nat) : (e.load p segs).level = e.level := rfl
@[simp] theorem Enc.load_left (e : Enc) (p : Proto) (segs : List Nat) : (e.load p segs).left = 0 := rfl

end Machine
end Sys2Proof
end

