-- ==== Sys2Proof/Laws/Decoder.lean ====
section
/-!
SUPPORT. What each operation of one decoder can do, said once: one equation per case of the pseudocode, the fields no EDGE step
touches, and the two arithmetic facts about shifting a bit in.
-/
namespace Sys2Proof.Machine

variable {W : Nat}

/-! ### The classifier -/

theorem syncHit_iff (C : Desc) (d : Timestamp) : syncHit C d = true ↔ C.syncLo ≤ d.toNat ∧ d.toNat < C.syncHi := by
  simp [syncHit]

theorem classify_short {C : Desc} {d : Timestamp} (h : C.shortLo ≤ d.toNat ∧ d.toNat < C.shortHi) : classify C d = .short := by
  simp [classify, h]

theorem classify_long {C : Desc} {d : Timestamp} (hs : C.shortHi ≤ C.longLo) (h : C.longLo ≤ d.toNat ∧ d.toNat < C.longHi) :
    classify C d = .long := by
  have : ¬ (C.shortLo ≤ d.toNat ∧ d.toNat < C.shortHi) := by omega
  simp [classify, h, this]

/-! ### Dispatcher and filter -/

theorem Dec.dispatch_of_free {d : Dec W} (h : d.inCb = false) (w : BitVec W) :
    d.dispatch w = ({ d with inCb := true, msg := w }, some (.callback w)) := by simp [Dec.dispatch, h]

theorem Dec.dispatch_of_inCb {d : Dec W} (h : d.inCb = true) (w : BitVec W) : d.dispatch w = (d, some (.drop w)) := by
  simp [Dec.dispatch, h]

theorem Dec.repeatFilter_of_count {d : Dec W} {w : BitVec W} (h : d.nextRep w < d.minrep.toNat) :
    d.repeatFilter w = ({ d with prev := w, rep := BitVec.ofNat 8 (d.nextRep w) }, none) := by
  rw [Dec.repeatFilter, if_neg (by omega)]

theorem Dec.repeatFilter_of_deliver {d : Dec W} {w : BitVec W} (h : d.minrep.toNat ≤ d.nextRep w) (hc : d.inCb = false) :
    d.repeatFilter w = ({ d with prev := w, rep := 0, inCb := true, msg := w }, some (.callback w)) := by
  rw [Dec.repeatFilter, if_pos h, Dec.dispatch_of_free (by exact hc)]

theorem Dec.repeatFilter_of_drop {d : Dec W} {w : BitVec W} (h : d.minrep.toNat ≤ d.nextRep w) (hc : d.inCb = true) :
    d.repeatFilter w = ({ d with prev := w, rep := 0 }, some (.drop w)) := by
  rw [Dec.repeatFilter, if_pos h, Dec.dispatch_of_inCb (by exact hc)]

/-- Everything the repeat filter with its dispatcher can do. -/
theorem Dec.repeatFilter_cases (d : Dec W) (w : BitVec W) :
    (d.nextRep w < d.minrep.toNat ∧
        d.repeatFilter w = ({ d with prev := w, rep := BitVec.ofNat 8 (d.nextRep w) }, none))
    ∨ (d.minrep.toNat ≤ d.nextRep w ∧ d.inCb = false ∧
        d.repeatFilter w = ({ d with prev := w, rep := 0, inCb := true, msg := w }, some (.callback w)))
    ∨ (d.minrep.toNat ≤ d.nextRep w ∧ d.inCb = true ∧
        d.repeatFilter w = ({ d with prev := w, rep := 0 }, some (.drop w))) := by
  by_cases h : d.nextRep w < d.minrep.toNat
  · exact .inl ⟨h, Dec.repeatFilter_of_count h⟩
  · have h' : d.minrep.toNat ≤ d.nextRep w := by omega
    by_cases hc : d.inCb = true
    · exact .inr (.inr ⟨h', hc, Dec.repeatFilter_of_drop h' hc⟩)
    · have hc' : d.inCb = false := by simpa using hc
      exact .inr (.inl ⟨h', hc', Dec.repeatFilter_of_deliver h' hc'⟩)

/-! ### Completion and shifting in -/

theorem Dec.complete_of_valid {C : Desc} {px' : Bool} (h : completionValid C px' = true) (d : Dec W) (w : BitVec W) :
    d.complete C w px' = (if C.rearm then d.gotoBit0 else d.gotoWaitingSync).repeatFilter w := by simp [Dec.complete, h]

theorem Dec.complete_of_invalid {C : Desc} {px' : Bool} (h : completionValid C px' = false) (d : Dec W) (w : BitVec W) :
    d.complete C w px' = (d.gotoWaitingSync, some (.error .e4)) := by simp [Dec.complete, h, Dec.raiseReset]

theorem Dec.shiftIn_of_mismatch {C : Desc} {d : Dec W} {b : Bool}
    (h : structuralOk C (d.k.toNat + 1) (nextCand d.cand b) = false) :
    d.shiftIn C b = (d.gotoWaitingSync, some (.error .e2)) := by simp [Dec.shiftIn, h, Dec.raiseReset]

theorem Dec.shiftIn_of_last {C : Desc} {d : Dec W} {b : Bool}
    (h : structuralOk C (d.k.toNat + 1) (nextCand d.cand b) = true) (hk : d.k.toNat + 1 = W) :
    d.shiftIn C b = d.complete C (nextCand d.cand b) (nextParity d.px b) := by
  simp [Dec.shiftIn, h, if_pos hk]

theorem Dec.shiftIn_of_next {C : Desc} {d : Dec W} {b : Bool}
    (h : structuralOk C (d.k.toNat + 1) (nextCand d.cand b) = true) (hk : d.k.toNat + 1 ≠ W) :
    d.shiftIn C b = ({ d with ph := false, first := false, cand := nextCand d.cand b, px := nextParity d.px b,
                              k := BitVec.ofNat 6 (d.k.toNat + 1) }, none) := by
  simp [Dec.shiftIn, h, if_neg hk]

/-- The candidate with one bit more, as a number: `trunc_W((cand << 1) | b)` (41_decoder_step.md R149). -/
theorem nextCand_toNat (c : BitVec W) (b : Bool) : (nextCand c b).toNat = (2 * c.toNat + b.toNat) % 2 ^ W := by
  cases W with
  | zero => simp [BitVec.toNat_of_zero_length, Nat.mod_one]
  | succ n =>
    have hb : ((BitVec.ofBool b).setWidth (n + 1)).toNat = b.toNat := by
      cases b <;> simp
    have h2 : (2 * c.toNat + b.toNat) = (c.toNat <<< 1) ||| b.toNat := by
      rw [Nat.shiftLeft_eq, Nat.pow_one, Nat.mul_comm c.toNat]
      cases b
      · simp
      · simpa using (Nat.two_pow_add_eq_or_of_lt (i := 1) (b := 1) (by decide) c.toNat)
    rw [nextCand, BitVec.toNat_or, BitVec.toNat_shiftLeft, hb, h2, Nat.or_mod_two_pow]
    congr 1
    rw [Nat.mod_eq_of_lt]
    calc b.toNat ≤ 1 := Bool.toNat_le b
      _ < 2 ^ (n + 1) := by
        have : 1 ≤ 2 ^ n := Nat.one_le_two_pow
        rw [Nat.pow_succ]; omega

/-! ### The EDGE step -/

theorem Dec.edge_of_disabled {d : Dec W} (h : d.en = false) (C : Desc) (ts : Timestamp) : d.edge C ts = (d, none) := by
  simp [Dec.edge, h]

theorem Dec.edge_of_waiting {d : Dec W} (he : d.en = true) (hi : d.insync = false) (C : Desc) (ts : Timestamp) :
    d.edge C ts =
      (if syncHit C (ts - d.lastTs) then { d with lastTs := ts }.gotoBit0 else { d with lastTs := ts }, none) := by
  simp [Dec.edge, he, hi, Dec.waitingSyncStep, duration]

theorem Dec.edge_of_bit {d : Dec W} (he : d.en = true) (hi : d.insync = true) (C : Desc) (ts : Timestamp) :
    d.edge C ts = { d with lastTs := ts }.bitStep C (ts - d.lastTs) := by
  simp [Dec.edge, he, hi, duration]

theorem Dec.bitStep_of_bad {C : Desc} {d : Dec W} {dur : Timestamp}
    (h : symStep C d.ph d.first (classify C dur) = .bad) : d.bitStep C dur = (d.gotoWaitingSync, some (.error .e1)) := by
  simp [Dec.bitStep, h, Dec.raiseReset]

theorem Dec.bitStep_of_more {C : Desc} {d : Dec W} {dur : Timestamp} {f : Bool}
    (h : symStep C d.ph d.first (classify C dur) = .more f) : d.bitStep C dur = ({ d with ph := true, first := f }, none) := by
  simp [Dec.bitStep, h]

theorem Dec.bitStep_of_bit {C : Desc} {d : Dec W} {dur : Timestamp} {b : Bool}
    (h : symStep C d.ph d.first (classify C dur) = .bit b) : d.bitStep C dur = d.shiftIn C b := by
  simp [Dec.bitStep, h]

/-- The filter and the dispatcher write `prev`, `rep`, `in_cb` and `msg` alone (43_repeat_filter.md R191, 44_dispatcher.md R201). -/
theorem Dec.repeatFilter_frame (d : Dec W) (w : BitVec W) :
    (d.repeatFilter w).1 = { d with
      prev := w, rep := (d.repeatFilter w).1.rep, inCb := (d.repeatFilter w).1.inCb, msg := (d.repeatFilter w).1.msg } := by
  rcases Dec.repeatFilter_cases d w with ⟨_, h⟩ | ⟨_, _, h⟩ | ⟨_, _, h⟩ <;> rw [h]

/-! ### Everything an EDGE step can do -/

/-- `sym_step` refuses exactly the pulses that 30_encoding.md R86 calls illegal. -/
theorem symStep_bad_iff (C : Desc) (ph first : Bool) (c : PulseClass) :
    symStep C ph first c = .bad ↔ IllegalPulse C ph first c := by
  unfold symStep IllegalPulse
  cases C.kind <;> cases ph <;> cases first <;> cases c <;> simp [symStepPw2, symStepPp, symStepVar]

theorem nextCand_eq_ofNat (c : BitVec W) (b : Bool) : nextCand c b = BitVec.ofNat W (2 * c.toNat + b.toNat) := by
  apply BitVec.eq_of_toNat_eq
  rw [nextCand_toNat, BitVec.toNat_ofNat]

/-- The structural check fails for WT4 alone, on its ninth bit. -/
theorem structuralOk_iff (p : Proto) (k' : Nat) (c : BitVec (Config.total p)) (b : Bool) :
    structuralOk (desc p) k' (nextCand c b) = true ↔ (p = .wt4 → k' = 9 → (2 * c.toNat + b.toNat) % 8 = 6) := by
  cases p <;> simp [structuralOk, desc, descAur, descWt4, descLiv, descKop, descQuh]
  rw [← BitVec.toNat_inj, BitVec.extractLsb'_toNat, nextCand_toNat]
  have h : (2 * c.toNat + b.toNat) % 2 ^ Config.total .wt4 % 8 = (2 * c.toNat + b.toNat) % 8 := by
    simp only [Config.total]; omega
  simp [h]; tauto

/-- The cases of the EDGE step with their results, one for each row of the table of 41_decoder_step.md R158. -/
inductive EdgeCase (C : Desc) (ts : Timestamp) (d : Dec W) : Dec W × Option (DecEvent W) → Prop
  | disabled : d.en = false → EdgeCase C ts d (d, none)
  | ignored : d.en = true → d.insync = false → syncHit C (ts - d.lastTs) = false → EdgeCase C ts d ({ d with lastTs := ts }, none)
  | sync : d.en = true → d.insync = false → syncHit C (ts - d.lastTs) = true →
      EdgeCase C ts d ({ d with lastTs := ts }.gotoBit0, none)
  | illegal : d.en = true → d.insync = true → IllegalPulse C d.ph d.first (classify C (ts - d.lastTs)) →
      EdgeCase C ts d ({ d with lastTs := ts }.gotoWaitingSync, some (.error .e1))
  | first (f : Bool) : d.en = true → d.insync = true → symStep C d.ph d.first (classify C (ts - d.lastTs)) = .more f →
      EdgeCase C ts d ({ d with lastTs := ts, ph := true, first := f }, none)
  | mismatch (b : Bool) : d.en = true → d.insync = true → symStep C d.ph d.first (classify C (ts - d.lastTs)) = .bit b →
      structuralOk C (d.k.toNat + 1) (nextCand d.cand b) = false →
      EdgeCase C ts d ({ d with lastTs := ts }.gotoWaitingSync, some (.error .e2))
  | shift (b : Bool) : d.en = true → d.insync = true → symStep C d.ph d.first (classify C (ts - d.lastTs)) = .bit b →
      structuralOk C (d.k.toNat + 1) (nextCand d.cand b) = true → d.k.toNat + 1 ≠ W →
      EdgeCase C ts d ({ d with
        lastTs := ts, ph := false, first := false, cand := nextCand d.cand b, px := nextParity d.px b
        k := BitVec.ofNat 6 (d.k.toNat + 1) }, none)
  | parity (b : Bool) : d.en = true → d.insync = true → symStep C d.ph d.first (classify C (ts - d.lastTs)) = .bit b →
      structuralOk C (d.k.toNat + 1) (nextCand d.cand b) = true → d.k.toNat + 1 = W →
      completionValid C (nextParity d.px b) = false →
      EdgeCase C ts d ({ d with lastTs := ts }.gotoWaitingSync, some (.error .e4))
  | complete (b : Bool) : d.en = true → d.insync = true → symStep C d.ph d.first (classify C (ts - d.lastTs)) = .bit b →
      structuralOk C (d.k.toNat + 1) (nextCand d.cand b) = true → d.k.toNat + 1 = W →
      completionValid C (nextParity d.px b) = true →
      EdgeCase C ts d
        (Dec.repeatFilter { d with
            lastTs := ts, insync := C.rearm, k := 0, ph := false, first := false, cand := 0, px := false }
          (nextCand d.cand b))

theorem Dec.edge_cases (C : Desc) (ts : Timestamp) (d : Dec W) : EdgeCase C ts d (d.edge C ts) := by
  by_cases he : d.en = true
  · by_cases hi : d.insync = true
    · rw [Dec.edge_of_bit he hi]
      cases h : symStep C d.ph d.first (classify C (ts - d.lastTs)) with
      | bad => rw [Dec.bitStep_of_bad (by exact h)]; exact .illegal he hi ((symStep_bad_iff _ _ _ _).1 h)
      | more f => rw [Dec.bitStep_of_more (by exact h)]; exact .first f he hi h
      | bit b =>
        rw [Dec.bitStep_of_bit (by exact h)]
        cases hs : structuralOk C (d.k.toNat + 1) (nextCand d.cand b) with
        | false => rw [Dec.shiftIn_of_mismatch (by exact hs)]; exact .mismatch b he hi h hs
        | true =>
          by_cases hk : d.k.toNat + 1 = W
          · rw [Dec.shiftIn_of_last (by exact hs) (by exact hk)]
            cases hv : completionValid C (nextParity d.px b) with
            | false => rw [Dec.complete_of_invalid (by exact hv)]; exact .parity b he hi h hs hk hv
            | true =>
              have hd : (if C.rearm then { d with lastTs := ts }.gotoBit0 else { d with lastTs := ts }.gotoWaitingSync) =
                  { d with lastTs := ts, insync := C.rearm, k := 0, ph := false, first := false, cand := 0, px := false } := by
                cases C.rearm <;> rfl
              rw [Dec.complete_of_valid (by exact hv), hd]
              exact .complete b he hi h hs hk hv
          · rw [Dec.shiftIn_of_next (by exact hs) (by exact hk)]; exact .shift b he hi h hs hk
    · have hi' : d.insync = false := by simpa using hi
      rw [Dec.edge_of_waiting he hi']
      cases h : syncHit C (ts - d.lastTs)
      · exact .ignored he hi' h
      · exact .sync he hi' h
  · have he' : d.en = false := by simpa using he
    rw [Dec.edge_of_disabled he']; exact .disabled he'

end Sys2Proof.Machine
end

