-- ==== Sys2Proof/Laws/Ops.lean ====
section
/-!
SUPPORT. What each operation of the machine can do, said once: the outputs of a decoder's event, the cases of POLL, ISRECV, SEND and
TXSTEP, RESET field by field, and the clock.
-/
namespace Sys2Proof.Machine

/-! ### The outputs of a decoder's event -/

@[simp] theorem State.signal_none (s : State) (p : Proto) : s.signal p none = s := rfl

@[simp] theorem State.signal_dec (s : State) (p : Proto) (e : Option (DecEvent (Config.total p))) (q : Proto) :
    (s.signal p e).dec q = s.dec q := by
  cases e with
  | none => rfl
  | some e => cases e <;> cases q <;> rfl

@[simp] theorem State.signal_enc (s : State) (p : Proto) (e : Option (DecEvent (Config.total p))) :
    (s.signal p e).enc = s.enc := by cases e with | none => rfl | some e => cases e <;> rfl

@[simp] theorem State.signal_isrecv (s : State) (p : Proto) (e : Option (DecEvent (Config.total p))) :
    (s.signal p e).isrecv = s.isrecv := by cases e with | none => rfl | some e => cases e <;> rfl

@[simp] theorem State.signal_resStb (s : State) (p : Proto) (e : Option (DecEvent (Config.total p))) :
    (s.signal p e).resStb = s.resStb := by cases e with | none => rfl | some e => cases e <;> rfl

@[simp] theorem State.signal_res (s : State) (p : Proto) (e : Option (DecEvent (Config.total p))) :
    (s.signal p e).res = s.res := by cases e with | none => rfl | some e => cases e <;> rfl

@[simp] theorem State.signal_params (s : State) (p : Proto) (e : Option (DecEvent (Config.total p))) :
    (s.signal p e).params = s.params := by cases e with | none => rfl | some e => cases e <;> rfl

@[simp] theorem State.signal_inputs (s : State) (p : Proto) (e : Option (DecEvent (Config.total p))) :
    (s.signal p e).inputs = s.inputs := by cases e with | none => rfl | some e => cases e <;> rfl

@[simp] theorem State.signal_todo (s : State) (p : Proto) (e : Option (DecEvent (Config.total p))) :
    (s.signal p e).todo = s.todo := by cases e with | none => rfl | some e => cases e <;> rfl

@[simp] theorem State.signal_freeIx (s : State) (p : Proto) (e : Option (DecEvent (Config.total p))) :
    (s.signal p e).freeIx = s.freeIx := by cases e with | none => rfl | some e => cases e <;> rfl

/-- A decoder's event puts out at most one thing (60_exceptions.md R268). -/
theorem State.signal_obs (s : State) (p : Proto) (e : Option (DecEvent (Config.total p))) :
    (s.signal p e).obs = s.obs ++ (match e with
      | none => []
      | some (.callback w) => [.callback p (w.setWidth 36)]
      | some (.drop w) => [.drop p (w.setWidth 36)]
      | some (.error l) => [.error p l]) := by
  cases e with
  | none => simp
  | some e => cases e <;> rfl

/-! ### EDGE -/

@[simp] theorem State.edge_dec_same (s : State) (p : Proto) (ts : Timestamp) :
    (s.edge p ts).dec p = ((s.dec p).edge (desc p) ts).1 := by simp [State.edge]

@[simp] theorem State.edge_dec_ne (s : State) {p q : Proto} (ts : Timestamp) (h : q ≠ p) : (s.edge p ts).dec q = s.dec q := by
  simp [State.edge, h]

@[simp] theorem State.edge_enc (s : State) (p : Proto) (ts : Timestamp) : (s.edge p ts).enc = s.enc := by simp [State.edge]
@[simp] theorem State.edge_isrecv (s : State) (p : Proto) (ts : Timestamp) : (s.edge p ts).isrecv = s.isrecv := by
  simp [State.edge]
@[simp] theorem State.edge_params (s : State) (p : Proto) (ts : Timestamp) : (s.edge p ts).params = s.params := by
  simp [State.edge]
@[simp] theorem State.edge_inputs (s : State) (p : Proto) (ts : Timestamp) : (s.edge p ts).inputs = s.inputs := by
  simp [State.edge]
@[simp] theorem State.edge_todo (s : State) (p : Proto) (ts : Timestamp) : (s.edge p ts).todo = s.todo := by simp [State.edge]

theorem State.edge_of_disabled {s : State} {p : Proto} (h : (s.dec p).en = false) (ts : Timestamp) : s.edge p ts = s := by
  simp [State.edge, Dec.edge_of_disabled h]

/-! ### POLL and ISRECV -/

/-- Everything the POLL of a pending ISRECV can do. -/
theorem State.isrecvPoll_cases (s : State) :
    (s.Waiting ∧ s.isrecvPoll = s)
    ∨ ∃ r, s.isrecv = some r ∧ (s.dec r.p).receiving = true ∧ s.isrecvPoll = { s with isrecv := none }.answer true := by
  cases h : s.isrecv with
  | none => exact .inl ⟨by simp [State.Waiting, h], by simp [State.isrecvPoll, h]⟩
  | some r =>
    cases hr : (s.dec r.p).receiving
    · exact .inl ⟨by simp [State.Waiting, h, hr], by simp [State.isrecvPoll, h, hr]⟩
    · exact .inr ⟨r, rfl, hr, by simp [State.isrecvPoll, h, hr]⟩

@[simp] theorem State.isrecvPoll_dec (s : State) (p : Proto) : s.isrecvPoll.dec p = s.dec p := by
  rcases s.isrecvPoll_cases with ⟨_, h⟩ | ⟨r, _, _, h⟩ <;> rw [h]
  cases p <;> rfl

@[simp] theorem State.isrecvPoll_enc (s : State) : s.isrecvPoll.enc = s.enc := by
  rcases s.isrecvPoll_cases with ⟨_, h⟩ | ⟨r, _, _, h⟩ <;> rw [h]; rfl

@[simp] theorem State.isrecvPoll_params (s : State) : s.isrecvPoll.params = s.params := by
  rcases s.isrecvPoll_cases with ⟨_, h⟩ | ⟨r, _, _, h⟩ <;> rw [h]; rfl

/-- Without a pending ISRECV nothing polls. -/
theorem State.isrecvPoll_of_none {s : State} (h : s.isrecv = none) : s.isrecvPoll = s := by simp [State.isrecvPoll, h]

/-- After its POLL an ISRECV either has answered or waits. -/
theorem State.isrecvPoll_waiting (s : State) : s.isrecvPoll.Waiting := by
  rcases s.isrecvPoll_cases with ⟨hw, h⟩ | ⟨r, _, _, h⟩
  · rw [h]; exact hw
  · rw [h]; simp [State.Waiting, State.answer, State.emit]

/-- Everything a millisecond tick can do (45_control_ops.md R217). -/
theorem State.msTick_cases (s : State) :
    (s.isrecv = none ∧ s.msTick = s)
    ∨ (∃ r, s.isrecv = some r ∧ r.ticksLeft = 0 ∧ s.msTick = { s with isrecv := none }.answer (s.dec r.p).receiving)
    ∨ ∃ r, s.isrecv = some r ∧ r.ticksLeft ≠ 0 ∧
        s.msTick = { s with isrecv := some { r with ticksLeft := r.ticksLeft - 1 } } := by
  cases h : s.isrecv with
  | none => exact .inl ⟨rfl, by simp [State.msTick, h]⟩
  | some r =>
    by_cases hr : r.ticksLeft = 0
    · exact .inr (.inl ⟨r, rfl, hr, by simp [State.msTick, h, hr]⟩)
    · exact .inr (.inr ⟨r, rfl, hr, by simp only [State.msTick, h, if_neg hr]⟩)

/-! ### SEND and TXSTEP -/

theorem State.send_of_accept {s : State} {p : Proto} {n : BitVec 8} (hp : txPresent s.params p = true) (hb : s.enc.busy = false)
    (hn : n ≠ 0) (w : BitVec (Config.total p)) :
    s.send p w n = { s with enc := s.enc.load p (burst (desc p) w n.toNat) } := by
  rw [State.send, if_pos hp, if_neg (by simp [hb]), if_neg hn]

/-- The three ways in which a SEND does nothing (46_encoder.md R233, R245). -/
theorem State.send_of_ignore {s : State} {p : Proto} {n : BitVec 8}
    (h : txPresent s.params p = false ∨ s.enc.busy = true ∨ n = 0) (w : BitVec (Config.total p)) : s.send p w n = s := by
  unfold State.send
  rcases h with h | h | h <;> simp [h]

theorem State.txstep_of_idle {s : State} (h : s.enc.busy = false) : s.txstep = s := by simp [State.txstep, h]

theorem State.txstep_of_segment {s : State} {d : Nat} {rest : List Nat} (h : s.enc.busy = true) (hq : s.enc.queue = d :: rest) :
    s.txstep = s.txSegment d rest := by simp [State.txstep, h, hq]

theorem State.txstep_of_end {s : State} (h : s.enc.busy = true) (hq : s.enc.queue = []) : s.txstep = s.txEnd := by
  simp [State.txstep, h, hq]

@[simp] theorem State.txSegment_dec (s : State) (d : Nat) (rest : List Nat) (p : Proto) :
    (s.txSegment d rest).dec p = s.dec p := by cases p <;> rfl

@[simp] theorem State.txEnd_dec (s : State) (p : Proto) : s.txEnd.dec p = s.dec p := by cases p <;> rfl

@[simp] theorem State.txstep_dec (s : State) (p : Proto) : s.txstep.dec p = s.dec p := by
  unfold State.txstep
  split
  · split <;> simp
  · rfl

@[simp] theorem State.send_dec (s : State) (p : Proto) (w : BitVec (Config.total p)) (n : BitVec 8) (q : Proto) :
    (s.send p w n).dec q = s.dec q := by
  unfold State.send
  repeat' split
  all_goals rfl

/-! ### RESET and the clock -/

@[simp] theorem State.resetOp_dec (s : State) (p : Proto) : s.resetOp.dec p = State.reset.dec p := by cases p <;> rfl
@[simp] theorem State.resetOp_enc (s : State) : s.resetOp.enc = Enc.atReset := rfl
@[simp] theorem State.resetOp_isrecv (s : State) : s.resetOp.isrecv = none := rfl
@[simp] theorem State.resetOp_msgStb (s : State) : s.resetOp.msgStb = allLow := rfl
@[simp] theorem State.resetOp_resStb (s : State) : s.resetOp.resStb = false := rfl
@[simp] theorem State.resetOp_res (s : State) : s.resetOp.res = false := rfl
@[simp] theorem State.resetOp_params (s : State) : s.resetOp.params = s.params := rfl
@[simp] theorem State.resetOp_inputs (s : State) : s.resetOp.inputs = s.inputs := rfl
@[simp] theorem State.resetOp_todo (s : State) : s.resetOp.todo = s.todo := rfl
@[simp] theorem State.resetOp_obs (s : State) : s.resetOp.obs = s.obs := rfl
@[simp] theorem State.resetOp_freeIx (s : State) : s.resetOp.freeIx = s.freeIx := rfl

@[simp] theorem State.nextCycle_dec (s : State) (p : Proto) : s.nextCycle.dec p = s.dec p := by
  unfold State.nextCycle State.endStrobes
  dsimp only
  split <;> cases p <;> rfl

@[simp] theorem State.clock_dec (s : State) (p : Proto) : s.clock.dec p = s.dec p := by
  unfold State.clock
  split
  · simp
  · cases p
    · exact s.nextCycle_dec .aur
    · exact s.nextCycle_dec .wt4
    · exact s.nextCycle_dec .liv
    · exact s.nextCycle_dec .kop
    · exact s.nextCycle_dec .quh

/-! ### A list of pulses -/

@[simp] theorem State.pulses_nil (s : State) (p : Proto) : s.pulses p [] = s := rfl

@[simp] theorem State.pulses_cons (s : State) (p : Proto) (d : Nat) (ds : List Nat) :
    s.pulses p (d :: ds) = (s.pulse p d).pulses p ds := rfl

theorem State.pulses_append (s : State) (p : Proto) (ds es : List Nat) :
    s.pulses p (ds ++ es) = (s.pulses p ds).pulses p es := by simp [State.pulses, List.foldl_append]

end Sys2Proof.Machine
end

