-- ==== Sys2Proof/Laws/Exec.lean ====
section
/-!
SUPPORT. Each family of operations as one operation over its protocol: what `exec` answers, said once for the five constructors.
-/
namespace Sys2Proof.Machine

@[simp] theorem exec_edgeInstr (p : Proto) (ts : Timestamp) (s : State) : exec (edgeInstr p ts) s = .next (s.edge p ts) := by
  cases p <;> rfl

@[simp] theorem exec_enableInstr (p : Proto) (s : State) : exec (enableInstr p) s = .next (s.enable p) := by cases p <;> rfl

@[simp] theorem exec_disableInstr (p : Proto) (s : State) : exec (disableInstr p) s = .next (s.disable p) := by cases p <;> rfl

@[simp] theorem exec_initInstr (p : Proto) (minrep irq : BitVec 8) (s : State) :
    exec (initInstr p minrep irq) s = .next (s.initDec p minrep irq) := by cases p <;> rfl

@[simp] theorem exec_pollInstr (p : Proto) (s : State) : exec (pollInstr p) s = .next (s.poll p) := by cases p <;> rfl

@[simp] theorem exec_isrecvInstr (p : Proto) (timeoutMs : BitVec 16) (s : State) :
    exec (isrecvInstr p timeoutMs) s = .next (s.isrecvStart p timeoutMs) := by cases p <;> rfl

@[simp] theorem exec_cbretInstr (p : Proto) (s : State) : exec (cbretInstr p) s = .next (s.cbret p) := by cases p <;> rfl

@[simp] theorem exec_sendInstr (p : Proto) (a : ArgA) (n : BitVec 8) (s : State) :
    exec (sendInstr p a n) s = .next (s.send p (sendWord p a) n) := by cases p <;> rfl

@[simp] theorem exec_frameInstr (p : Proto) (w : BitVec (Config.total p)) (s : State) :
    exec (frameInstr p w) s = .next (s.frame p w) := by cases p <;> rfl

@[simp] theorem exec_txstep (s : State) : exec .txstep s = .next s.txstep := rfl

@[simp] theorem exec_reset (s : State) : exec .reset s = .next s.resetOp := rfl

/-! ### The operand port of a SEND -/

theorem append_toNat_add {m n : Nat} (x : BitVec m) (y : BitVec n) : (x ++ y).toNat = x.toNat * 2 ^ n + y.toNat := by
  rw [BitVec.toNat_append, Nat.shiftLeft_eq, Nat.mul_comm, ← Nat.two_pow_add_eq_or_of_lt y.isLt]

theorem sendInstr_sendArgAur (addr : BitVec 8) (temp : BitVec 12) (n1 : BitVec 4) (n2 : BitVec 7) (n : BitVec 8) :
    sendInstr .aur (sendArgAur addr temp n1 n2) n = .sendAur addr temp n1 n2 n := by
  have h1 := addr.isLt; have h2 := temp.isLt; have h3 := n1.isLt; have h4 := n2.isLt
  simp only [sendInstr, Instr.sendAur.injEq, sendArgAur]
  refine ⟨?_, ?_, ?_, ?_, trivial⟩ <;>
  · apply BitVec.eq_of_toNat_eq
    simp only [BitVec.extractLsb'_toNat, BitVec.toNat_setWidth, append_toNat_add, Nat.shiftRight_eq_div_pow, BitVec.toNat_ofNat]
    omega

theorem sendInstr_sendArgWt4 (addr : BitVec 4) (chan : BitVec 2) (hum : BitVec 7) (temp : BitVec 15) (n : BitVec 8) :
    sendInstr .wt4 (sendArgWt4 addr chan hum temp) n = .sendWt4 addr chan hum temp n := by
  have h1 := addr.isLt; have h2 := chan.isLt; have h3 := hum.isLt; have h4 := temp.isLt
  simp only [sendInstr, Instr.sendWt4.injEq, sendArgWt4]
  refine ⟨?_, ?_, ?_, ?_, trivial⟩ <;>
  · apply BitVec.eq_of_toNat_eq
    simp only [BitVec.extractLsb'_toNat, BitVec.toNat_setWidth, append_toNat_add, Nat.shiftRight_eq_div_pow, BitVec.toNat_ofNat]
    omega

theorem sendInstr_sendArgLiv (addr : BitVec 16) (unit : BitVec 14) (n : BitVec 8) :
    sendInstr .liv (sendArgLiv addr unit) n = .sendLiv addr unit n := by
  have h1 := addr.isLt; have h2 := unit.isLt
  simp only [sendInstr, Instr.sendLiv.injEq, sendArgLiv]
  refine ⟨?_, ?_, trivial⟩ <;>
  · apply BitVec.eq_of_toNat_eq
    simp only [BitVec.extractLsb'_toNat, BitVec.toNat_setWidth, append_toNat_add, Nat.shiftRight_eq_div_pow]
    omega

theorem sendInstr_sendArgKop (addr : BitVec 16) (unit : BitVec 8) (n : BitVec 8) :
    sendInstr .kop (sendArgKop addr unit) n = .sendKop addr unit n := by
  have h1 := addr.isLt; have h2 := unit.isLt
  simp only [sendInstr, Instr.sendKop.injEq, sendArgKop]
  refine ⟨?_, ?_, trivial⟩ <;>
  · apply BitVec.eq_of_toNat_eq
    simp only [BitVec.extractLsb'_toNat, BitVec.toNat_setWidth, append_toNat_add, Nat.shiftRight_eq_div_pow]
    omega

theorem sendInstr_sendArgQuh (addr : BitVec 28) (unit : BitVec 8) (n : BitVec 8) :
    sendInstr .quh (sendArgQuh addr unit) n = .sendQuh addr unit n := by
  have h1 := addr.isLt; have h2 := unit.isLt
  simp only [sendInstr, Instr.sendQuh.injEq, sendArgQuh]
  refine ⟨?_, ?_, trivial⟩ <;>
  · apply BitVec.eq_of_toNat_eq
    simp only [BitVec.extractLsb'_toNat, append_toNat_add, Nat.shiftRight_eq_div_pow]
    omega

/-! ### Every operation is one of eleven families -/

/-- Case analysis over operations by family: eleven cases in place of forty-seven. -/
theorem Instr.family_cases {motive : Instr → Prop} (edge : ∀ p ts, motive (edgeInstr p ts)) (enable : ∀ p, motive (enableInstr p))
    (disable : ∀ p, motive (disableInstr p)) (init : ∀ p m q, motive (initInstr p m q)) (poll : ∀ p, motive (pollInstr p))
    (isrecv : ∀ p t, motive (isrecvInstr p t)) (cbret : ∀ p, motive (cbretInstr p)) (send : ∀ p a n, motive (sendInstr p a n))
    (reset : motive .reset) (txstep : motive .txstep) (frame : ∀ p w, motive (frameInstr p w)) (i : Instr) : motive i := by
  cases i with
  | edgeAur ts => exact edge .aur ts
  | edgeWt4 ts => exact edge .wt4 ts
  | edgeLiv ts => exact edge .liv ts
  | edgeKop ts => exact edge .kop ts
  | edgeQuh ts => exact edge .quh ts
  | enableAur => exact enable .aur
  | enableWt4 => exact enable .wt4
  | enableLiv => exact enable .liv
  | enableKop => exact enable .kop
  | enableQuh => exact enable .quh
  | disableAur => exact disable .aur
  | disableWt4 => exact disable .wt4
  | disableLiv => exact disable .liv
  | disableKop => exact disable .kop
  | disableQuh => exact disable .quh
  | initAur m q => exact init .aur m q
  | initWt4 m q => exact init .wt4 m q
  | initLiv m q => exact init .liv m q
  | initKop m q => exact init .kop m q
  | initQuh m q => exact init .quh m q
  | pollAur => exact poll .aur
  | pollWt4 => exact poll .wt4
  | pollLiv => exact poll .liv
  | pollKop => exact poll .kop
  | pollQuh => exact poll .quh
  | isrecvAur t => exact isrecv .aur t
  | isrecvWt4 t => exact isrecv .wt4 t
  | isrecvLiv t => exact isrecv .liv t
  | isrecvKop t => exact isrecv .kop t
  | isrecvQuh t => exact isrecv .quh t
  | cbretAur => exact cbret .aur
  | cbretWt4 => exact cbret .wt4
  | cbretLiv => exact cbret .liv
  | cbretKop => exact cbret .kop
  | cbretQuh => exact cbret .quh
  | sendAur a t m k n => exact sendInstr_sendArgAur a t m k n ▸ send .aur _ n
  | sendWt4 a c h t n => exact sendInstr_sendArgWt4 a c h t n ▸ send .wt4 _ n
  | sendLiv a u n => exact sendInstr_sendArgLiv a u n ▸ send .liv _ n
  | sendKop a u n => exact sendInstr_sendArgKop a u n ▸ send .kop _ n
  | sendQuh a u n => exact sendInstr_sendArgQuh a u n ▸ send .quh _ n
  | reset => exact reset
  | txstep => exact txstep
  | frameAur w => exact frame .aur w
  | frameWt4 w => exact frame .wt4 w
  | frameLiv w => exact frame .liv w
  | frameKop w => exact frame .kop w
  | frameQuh w => exact frame .quh w

end Sys2Proof.Machine
end

