-- ==== Sys2Proof/Laws/PerInstr.lean ====
section
/-!
SUPPORT. Facts about every operation as syntax, one lemma per constructor. `CommandBits`: an operation that has a command byte is
written with an operation code 1 to 8, bit 3 clear and a protocol id 0 to 4 (30_encoding.md R100, R102).
-/
namespace Sys2Proof.Laws.CommandBits

/-- The command byte of an operation that has one holds no reserved encoding. -/
def Statement (i : Instr) : Prop :=
  match encode i with
  | .command c _ _ =>
    c.getLsbD 3 = false ∧ (c.extractLsb' 0 3).toNat ≤ 4 ∧ 1 ≤ (c.extractLsb' 4 4).toNat ∧ (c.extractLsb' 4 4).toNat ≤ 8
  | .rstPin | .txExpiry | .edgeStrobe _ _ | .wireFrame _ _ => True

theorem edgeAur (ts : Timestamp) : Statement (.edgeAur ts) := ⟨by decide, by decide, by decide, by decide⟩
theorem edgeWt4 (ts : Timestamp) : Statement (.edgeWt4 ts) := ⟨by decide, by decide, by decide, by decide⟩
theorem edgeLiv (ts : Timestamp) : Statement (.edgeLiv ts) := ⟨by decide, by decide, by decide, by decide⟩
theorem edgeKop (ts : Timestamp) : Statement (.edgeKop ts) := ⟨by decide, by decide, by decide, by decide⟩
theorem edgeQuh (ts : Timestamp) : Statement (.edgeQuh ts) := ⟨by decide, by decide, by decide, by decide⟩
theorem enableAur : Statement .enableAur := ⟨by decide, by decide, by decide, by decide⟩
theorem enableWt4 : Statement .enableWt4 := ⟨by decide, by decide, by decide, by decide⟩
theorem enableLiv : Statement .enableLiv := ⟨by decide, by decide, by decide, by decide⟩
theorem enableKop : Statement .enableKop := ⟨by decide, by decide, by decide, by decide⟩
theorem enableQuh : Statement .enableQuh := ⟨by decide, by decide, by decide, by decide⟩
theorem disableAur : Statement .disableAur := ⟨by decide, by decide, by decide, by decide⟩
theorem disableWt4 : Statement .disableWt4 := ⟨by decide, by decide, by decide, by decide⟩
theorem disableLiv : Statement .disableLiv := ⟨by decide, by decide, by decide, by decide⟩
theorem disableKop : Statement .disableKop := ⟨by decide, by decide, by decide, by decide⟩
theorem disableQuh : Statement .disableQuh := ⟨by decide, by decide, by decide, by decide⟩
theorem initAur (minrep : BitVec 8) (irq : BitVec 8) : Statement (.initAur minrep irq) := ⟨by decide, by decide, by decide, by decide⟩
theorem initWt4 (minrep : BitVec 8) (irq : BitVec 8) : Statement (.initWt4 minrep irq) := ⟨by decide, by decide, by decide, by decide⟩
theorem initLiv (minrep : BitVec 8) (irq : BitVec 8) : Statement (.initLiv minrep irq) := ⟨by decide, by decide, by decide, by decide⟩
theorem initKop (minrep : BitVec 8) (irq : BitVec 8) : Statement (.initKop minrep irq) := ⟨by decide, by decide, by decide, by decide⟩
theorem initQuh (minrep : BitVec 8) (irq : BitVec 8) : Statement (.initQuh minrep irq) := ⟨by decide, by decide, by decide, by decide⟩
theorem pollAur : Statement .pollAur := ⟨by decide, by decide, by decide, by decide⟩
theorem pollWt4 : Statement .pollWt4 := ⟨by decide, by decide, by decide, by decide⟩
theorem pollLiv : Statement .pollLiv := ⟨by decide, by decide, by decide, by decide⟩
theorem pollKop : Statement .pollKop := ⟨by decide, by decide, by decide, by decide⟩
theorem pollQuh : Statement .pollQuh := ⟨by decide, by decide, by decide, by decide⟩
theorem isrecvAur (timeoutMs : BitVec 16) : Statement (.isrecvAur timeoutMs) := ⟨by decide, by decide, by decide, by decide⟩
theorem isrecvWt4 (timeoutMs : BitVec 16) : Statement (.isrecvWt4 timeoutMs) := ⟨by decide, by decide, by decide, by decide⟩
theorem isrecvLiv (timeoutMs : BitVec 16) : Statement (.isrecvLiv timeoutMs) := ⟨by decide, by decide, by decide, by decide⟩
theorem isrecvKop (timeoutMs : BitVec 16) : Statement (.isrecvKop timeoutMs) := ⟨by decide, by decide, by decide, by decide⟩
theorem isrecvQuh (timeoutMs : BitVec 16) : Statement (.isrecvQuh timeoutMs) := ⟨by decide, by decide, by decide, by decide⟩
theorem cbretAur : Statement .cbretAur := ⟨by decide, by decide, by decide, by decide⟩
theorem cbretWt4 : Statement .cbretWt4 := ⟨by decide, by decide, by decide, by decide⟩
theorem cbretLiv : Statement .cbretLiv := ⟨by decide, by decide, by decide, by decide⟩
theorem cbretKop : Statement .cbretKop := ⟨by decide, by decide, by decide, by decide⟩
theorem cbretQuh : Statement .cbretQuh := ⟨by decide, by decide, by decide, by decide⟩
theorem sendAur (addr : BitVec 8) (temp : BitVec 12) (n1 : BitVec 4) (n2 : BitVec 7) (n : BitVec 8) : Statement (.sendAur addr temp n1 n2 n) := ⟨by decide, by decide, by decide, by decide⟩
theorem sendWt4 (addr : BitVec 4) (chan : BitVec 2) (hum : BitVec 7) (temp : BitVec 15) (n : BitVec 8) : Statement (.sendWt4 addr chan hum temp n) := ⟨by decide, by decide, by decide, by decide⟩
theorem sendLiv (addr : BitVec 16) (unit : BitVec 14) (n : BitVec 8) : Statement (.sendLiv addr unit n) := ⟨by decide, by decide, by decide, by decide⟩
theorem sendKop (addr : BitVec 16) (unit : BitVec 8) (n : BitVec 8) : Statement (.sendKop addr unit n) := ⟨by decide, by decide, by decide, by decide⟩
theorem sendQuh (addr : BitVec 28) (unit : BitVec 8) (n : BitVec 8) : Statement (.sendQuh addr unit n) := ⟨by decide, by decide, by decide, by decide⟩
theorem reset : Statement .reset := trivial
theorem txstep : Statement .txstep := trivial
theorem frameAur (w : BitVec 32) : Statement (.frameAur w) := trivial
theorem frameWt4 (w : BitVec 32) : Statement (.frameWt4 w) := trivial
theorem frameLiv (w : BitVec 30) : Statement (.frameLiv w) := trivial
theorem frameKop (w : BitVec 24) : Statement (.frameKop w) := trivial
theorem frameQuh (w : BitVec 36) : Statement (.frameQuh w) := trivial

end Sys2Proof.Laws.CommandBits
end

