-- ==== Sys2Proof/Laws/Step.lean ====
section
/-!
SUPPORT. The step and the run: no operation stops, the clock as the step of a cycle with nothing left to do, and a run one step at a
time.
-/
namespace Sys2Proof.Machine

/-- Every operation answers a next state (60_exceptions.md R264). -/
theorem exec_next (i : Instr) (s : State) : ∃ t, exec i s = .next t := by
  induction i using Instr.family_cases <;> simp

theorem run_succ_of_next (M : Host.Core) {n : Nat} {s t : M.State} (h : M.step s = .next t) : M.run (n + 1) s = M.run n t := by
  rw [Host.Core.run, h]

/-- The same for the PTC. -/
theorem core_run_succ {n : Nat} {s t : State} (h : step s = .next t) :
    Sys2Proof.core.run (n + 1) s = Sys2Proof.core.run n t := run_succ_of_next Sys2Proof.core h

/-- The POLL of an ISRECV that waits changes nothing. -/
theorem State.isrecvPoll_of_waiting {s : State} (h : s.Waiting) : s.isrecvPoll = s := by
  rcases s.isrecvPoll_cases with ⟨_, h'⟩ | ⟨r, h1, h2, _⟩
  · exact h'
  · exact absurd (h r (by simp [h1])) (by simp [h2])

/-- A step of a cycle in which nothing is left to do and no TXSTEP is due is the clock. -/
theorem step_of_clock {s : State} (h : s.todo = []) (hd : ¬ (s.enc.busy = true ∧ s.enc.left = 0)) :
    step s = .next ({ s with obs := [] } : State).clock := by
  have hd' : s.txDue = false := by
    rw [Bool.eq_false_iff]
    intro h'
    exact hd (by simpa [State.txDue] using h')
  simp only [step, h]
  rw [if_neg (by rw [hd']; decide)]

/-- What the clock writes (20_memory.md R61; 46_encoder.md R244). -/
theorem State.nextCycle_fields (s : State) :
    s.nextCycle.enc = { s.enc with left := s.enc.left - 1 } ∧ s.nextCycle.todo = s.todo ∧ s.nextCycle.inputs = s.inputs
    ∧ s.nextCycle.obs = s.obs ∧ s.nextCycle.msgStb = allLow ∧ s.nextCycle.resStb = false
    ∧ (s.resStb = false → s.nextCycle.res = s.res) ∧ s.nextCycle.isrecv = s.isrecv ∧ s.nextCycle.params = s.params := by
  unfold State.nextCycle State.endStrobes
  cases s.resStb <;> simp

end Sys2Proof.Machine
end

