-- ==== Sys2Proof/Laws/Wire.lean ====
section
/-!
SUPPORT. One decoder under the nominal pulses of a frame word: the exclusive or of a growing candidate, one bit of the wire, the
decoder after some bits of a word, and its run over a whole frame and over a frame of a burst.
-/
namespace Sys2Proof.Machine

variable {W : Nat}

/-! ### Exclusive or of all bits -/

theorem foldl_xor (n : Nat) (f : Nat → Bool) (a : Bool) :
    (List.range n).foldl (fun acc i => xor acc (f i)) a = xor a ((List.range n).foldl (fun acc i => xor acc (f i)) false) := by
  induction n with
  | zero => simp
  | succ n ih => rw [List.range_succ, List.foldl_append, List.foldl_append, ih]; simp

theorem foldl_xor_succ (n : Nat) (f : Nat → Bool) :
    (List.range (n + 1)).foldl (fun acc i => xor acc (f i)) false =
      xor (f 0) ((List.range n).foldl (fun acc i => xor acc (f (i + 1))) false) := by
  rw [List.range_succ_eq_map, List.foldl_cons, List.foldl_map]
  simp only [Nat.succ_eq_add_one, Bool.false_xor]
  exact foldl_xor n (fun i => f (i + 1)) _

@[simp] theorem xorOfAllBits_zero : xorOfAllBits (0 : BitVec W) = false := by
  unfold xorOfAllBits
  simp only [BitVec.ofNat_eq_ofNat, BitVec.getLsbD_zero, Bool.xor_false]
  induction W with
  | zero => rfl
  | succ n ih => rw [List.range_succ, List.foldl_append, ih]; rfl

/-- Shifting a bit into a candidate with room for it flips the exclusive or by that bit (41_decoder_step.md R149). -/
theorem xorOfAllBits_nextCand (c : BitVec W) (b : Bool) (h : 2 * c.toNat + b.toNat < 2 ^ W) :
    xorOfAllBits (nextCand c b) = xor (xorOfAllBits c) b := by
  cases W with
  | zero =>
    simp at h
    obtain ⟨_, hb⟩ := h
    cases b
    · simp [xorOfAllBits]
    · simp at hb
  | succ n =>
    have h0 : (nextCand c b).getLsbD 0 = b := by
      rw [BitVec.getLsbD, nextCand_toNat, Nat.testBit_mod_two_pow, Nat.testBit_zero]
      cases b <;> simp [Nat.add_mod]
    have hs : ∀ i, i < n → (nextCand c b).getLsbD (i + 1) = c.getLsbD i := by
      intro i hi
      rw [BitVec.getLsbD, nextCand_toNat, Nat.testBit_mod_two_pow, Nat.testBit_succ]
      have : (2 * c.toNat + b.toNat) / 2 = c.toNat := by cases b <;> (simp; try omega)
      rw [this]; simp [hi, BitVec.getLsbD]
    have hlast : c.getLsbD n = false := by
      rw [BitVec.getLsbD]; apply Nat.testBit_lt_two_pow
      rw [Nat.pow_succ] at h; omega
    have e : (List.range n).foldl (fun acc i => xor acc ((nextCand c b).getLsbD (i + 1))) false =
        (List.range n).foldl (fun acc i => xor acc (c.getLsbD i)) false := by
      apply List.foldl_ext
      intro a i hi
      rw [hs i (List.mem_range.1 hi)]
    unfold xorOfAllBits
    rw [foldl_xor_succ, h0, e, List.range_succ, List.foldl_append]
    simp only [List.foldl_cons, List.foldl_nil, hlast, Bool.xor_false]
    rw [Bool.xor_comm]

/-! ### The bits of a frame word in wire order -/

@[simp] theorem wireBits_length (w : BitVec W) : (wireBits w).length = W := by simp [wireBits]

theorem wireBits_take_succ (w : BitVec W) {i : Nat} (h : i < W) :
    (wireBits w).take (i + 1) = (wireBits w).take i ++ [w.getMsbD i] := by
  rw [List.take_succ_eq_append_getElem (by rw [wireBits_length]; exact h)]
  congr 1
  simp [wireBits]

/-- The first `i + 1` bits as a number, from the first `i` (30_encoding.md R89). -/
theorem wire_prefix_succ (w : BitVec W) {i : Nat} (h : i < W) :
    2 * (w.toNat / 2 ^ (W - i)) + (w.getMsbD i).toNat = w.toNat / 2 ^ (W - (i + 1)) := by
  have e : W - i = (W - (i + 1)) + 1 := by omega
  have hb : (w.getMsbD i).toNat = w.toNat / 2 ^ (W - (i + 1)) % 2 := by
    rw [BitVec.getMsbD]
    simp only [h, decide_true, Bool.true_and]
    rw [BitVec.getLsbD, show W - 1 - i = W - (i + 1) by omega, Nat.testBit_eq_decide_div_mod_eq]
    rcases Nat.mod_two_eq_zero_or_one (w.toNat / 2 ^ (W - (i + 1))) with h | h <;> rw [h] <;> rfl
  rw [e, Nat.pow_succ, ← Nat.div_div_eq_div_mul, hb]; omega

theorem wire_prefix_toNat (w : BitVec W) (i : Nat) :
    (BitVec.ofNat W (w.toNat / 2 ^ (W - i))).toNat = w.toNat / 2 ^ (W - i) := by
  rw [BitVec.toNat_ofNat, Nat.mod_eq_of_lt]
  exact lt_of_le_of_lt (Nat.div_le_self _ _) w.isLt

theorem nextCand_wire_prefix (w : BitVec W) {i : Nat} (h : i < W) :
    nextCand (BitVec.ofNat W (w.toNat / 2 ^ (W - i))) (w.getMsbD i) = BitVec.ofNat W (w.toNat / 2 ^ (W - (i + 1))) := by
  rw [nextCand_eq_ofNat, wire_prefix_toNat, wire_prefix_succ w h]

theorem xorOfAllBits_wire_prefix (w : BitVec W) {i : Nat} (h : i < W) :
    xor (xorOfAllBits (BitVec.ofNat W (w.toNat / 2 ^ (W - i)))) (w.getMsbD i) =
      xorOfAllBits (BitVec.ofNat W (w.toNat / 2 ^ (W - (i + 1)))) := by
  rw [← nextCand_wire_prefix w h, xorOfAllBits_nextCand]
  rw [wire_prefix_toNat, wire_prefix_succ w h]
  exact lt_of_le_of_lt (Nat.div_le_self _ _) w.isLt

/-! ### One bit on the wire -/

theorem Dec.shiftIn_of_pulses (C : Desc) (d : Dec W) (ph f b : Bool) :
    Dec.shiftIn C { d with ph := ph, first := f } b = Dec.shiftIn C d b := by
  unfold Dec.shiftIn Dec.complete Dec.raiseReset Dec.gotoBit0 Dec.gotoWaitingSync
  cases C.rearm <;> rfl

/-- The nominal pulses of a bit shift that bit in: one pulse that does, or a first pulse and then one that does
(46_encoder.md R234, 41_decoder_step.md R145). -/
theorem Dec.edges_of_bit (p : Proto) (d : Dec (Config.total p)) (b : Bool) (he : d.en = true) (hi : d.insync = true)
    (hp : d.ph = false) (hf : d.first = false) :
    (∃ x, sym (desc p) b = [x] ∧ d.edge (desc p) (d.lastTs + BitVec.ofNat 32 x) =
        Dec.shiftIn (desc p) { d with lastTs := d.lastTs + BitVec.ofNat 32 (sym (desc p) b).sum } b)
    ∨ ∃ x y f, sym (desc p) b = [x, y]
      ∧ d.edge (desc p) (d.lastTs + BitVec.ofNat 32 x) =
        ({ d with lastTs := d.lastTs + BitVec.ofNat 32 x, ph := true, first := f }, none)
      ∧ ({ d with lastTs := d.lastTs + BitVec.ofNat 32 x, ph := true, first := f } : Dec _).edge (desc p)
          (d.lastTs + BitVec.ofNat 32 x + BitVec.ofNat 32 y) =
        Dec.shiftIn (desc p) { d with lastTs := d.lastTs + BitVec.ofNat 32 (sym (desc p) b).sum } b := by
  have hd : ∀ (t : Timestamp) (x : Nat), t + BitVec.ofNat 32 x - t = BitVec.ofNat 32 x := by
    intro t x
    apply BitVec.eq_of_toNat_eq
    simp
  have one : ∀ x, sym (desc p) b = [x] → symStep (desc p) false false (classify (desc p) (BitVec.ofNat 32 x)) = .bit b →
      ∃ x, sym (desc p) b = [x] ∧ d.edge (desc p) (d.lastTs + BitVec.ofNat 32 x) =
        Dec.shiftIn (desc p) { d with lastTs := d.lastTs + BitVec.ofNat 32 (sym (desc p) b).sum } b := by
    intro x h1 h2
    refine ⟨x, h1, ?_⟩
    rw [Dec.edge_of_bit he hi, Dec.bitStep_of_bit (b := b) (by simp only [hp, hf, hd]; exact h2), h1]
    simp
  have two : ∀ x y f, sym (desc p) b = [x, y] →
      symStep (desc p) false false (classify (desc p) (BitVec.ofNat 32 x)) = .more f →
      symStep (desc p) true f (classify (desc p) (BitVec.ofNat 32 y)) = .bit b →
      ∃ x y f, sym (desc p) b = [x, y]
        ∧ d.edge (desc p) (d.lastTs + BitVec.ofNat 32 x) =
          ({ d with lastTs := d.lastTs + BitVec.ofNat 32 x, ph := true, first := f }, none)
        ∧ ({ d with lastTs := d.lastTs + BitVec.ofNat 32 x, ph := true, first := f } : Dec _).edge (desc p)
            (d.lastTs + BitVec.ofNat 32 x + BitVec.ofNat 32 y) =
          Dec.shiftIn (desc p) { d with lastTs := d.lastTs + BitVec.ofNat 32 (sym (desc p) b).sum } b := by
    intro x y f h1 h2 h3
    refine ⟨x, y, f, h1, ?_, ?_⟩
    · rw [Dec.edge_of_bit he hi, Dec.bitStep_of_more (f := f) (by simp only [hp, hf, hd]; exact h2)]
    · rw [Dec.edge_of_bit (by exact he) (by exact hi), Dec.bitStep_of_bit (b := b) (by simp only [hd]; exact h3)]
      have e : d.lastTs + BitVec.ofNat 32 x + BitVec.ofNat 32 y = d.lastTs + BitVec.ofNat 32 (sym (desc p) b).sum := by
        rw [h1]; simp [BitVec.ofNat_add, BitVec.add_assoc]
      rw [e]
      exact Dec.shiftIn_of_pulses (desc p) { d with lastTs := d.lastTs + BitVec.ofNat 32 (sym (desc p) b).sum } true f b
  cases p <;> cases b
  · exact .inr (two 500 500 false (by decide) (by decide) (by decide))
  · exact .inr (two 500 1500 false (by decide) (by decide) (by decide))
  · exact .inl (one 2000 (by decide) (by decide))
  · exact .inr (two 1000 1000 false (by decide) (by decide) (by decide))
  · exact .inr (two 140 140 false (by decide) (by decide) (by decide))
  · exact .inl (one 420 (by decide) (by decide))
  · exact .inr (two 120 360 false (by decide) (by decide) (by decide))
  · exact .inr (two 360 120 true (by decide) (by decide) (by decide))
  · exact .inr (two 350 350 false (by decide) (by decide) (by decide))
  · exact .inr (two 350 1050 false (by decide) (by decide) (by decide))

/-! ### The decoder after the first bits of a word -/

/-- A decoder in BIT_0 after the first `i` bits of `w`. -/
def Dec.afterBits {p : Proto} (d : Dec (Config.total p)) (w : BitVec (Config.total p)) (i : Nat) : Dec (Config.total p) :=
  { d with
    k := BitVec.ofNat 6 i, ph := false, first := false, cand := BitVec.ofNat _ (w.toNat / 2 ^ (Config.total p - i))
    px := xorOfAllBits (BitVec.ofNat (Config.total p) (w.toNat / 2 ^ (Config.total p - i)))
    lastTs := d.lastTs + BitVec.ofNat 32 (((wireBits w).take i).flatMap (sym (desc p))).sum }

/-- The WT4 constant of a frame word as a number (30_encoding.md R91). -/
def constOk (p : Proto) (w : BitVec (Config.total p)) : Prop := p = .wt4 → w.toNat / 2 ^ 23 % 8 = 6

theorem Config.total_le (p : Proto) : Config.total p ≤ 36 := by cases p <;> decide

theorem Dec.afterBits_zero {p : Proto} (d : Dec (Config.total p)) (w : BitVec (Config.total p)) (hk : d.k = 0)
    (hp : d.ph = false) (hf : d.first = false) (hc : d.cand = 0) (hx : d.px = false) : d.afterBits w 0 = d := by
  have e : w.toNat / 2 ^ Config.total p = 0 := Nat.div_eq_of_lt w.isLt
  unfold Dec.afterBits
  simp only [Nat.sub_zero, e, List.take_zero, List.flatMap_nil, List.sum_nil, BitVec.add_zero]
  cases d
  simp only at *
  subst hk hp hf hc hx
  simp only [Dec.mk.injEq, true_and, and_true]
  exact ⟨rfl, rfl, xorOfAllBits_zero⟩

theorem lastTs_wire {p : Proto} (w : BitVec (Config.total p)) {i : Nat} (h : i < Config.total p) (t : Timestamp) :
    t + BitVec.ofNat 32 (((wireBits w).take i).flatMap (sym (desc p))).sum + BitVec.ofNat 32 (sym (desc p) (w.getMsbD i)).sum =
      t + BitVec.ofNat 32 (((wireBits w).take (i + 1)).flatMap (sym (desc p))).sum := by
  rw [wireBits_take_succ w h, List.flatMap_append, List.sum_append, BitVec.ofNat_add, BitVec.add_assoc]; simp

/-- One more bit which is not the last one (41_decoder_step.md R149, R150). -/
theorem Dec.shiftIn_afterBits {p : Proto} (d : Dec (Config.total p)) (w : BitVec (Config.total p)) (hc : constOk p w) {i : Nat}
    (hi : i + 1 < Config.total p) :
    Dec.shiftIn (desc p)
        { d.afterBits w i with lastTs := (d.afterBits w i).lastTs + BitVec.ofNat 32 (sym (desc p) (w.getMsbD i)).sum }
        (w.getMsbD i) = (d.afterBits w (i + 1), none) := by
  have hk : (BitVec.ofNat 6 i).toNat = i := by
    rw [BitVec.toNat_ofNat, Nat.mod_eq_of_lt]; have := Config.total_le p; omega
  rw [Dec.shiftIn_of_next]
  · simp only [Dec.afterBits, hk, nextCand_wire_prefix w (by omega : i < _), nextParity,
      xorOfAllBits_wire_prefix w (by omega : i < _), lastTs_wire w (by omega : i < _)]
  · refine (structuralOk_iff p _ _ _).2 (fun hp h9 => ?_)
    have h9' : (BitVec.ofNat 6 i).toNat + 1 = 9 := h9
    rw [hk] at h9'
    show (2 * (BitVec.ofNat _ (w.toNat / 2 ^ (Config.total p - i))).toNat + _) % 8 = 6
    rw [wire_prefix_toNat, wire_prefix_succ w (by omega)]
    subst hp
    have : i = 8 := by omega
    subst this
    exact hc rfl
  · show (BitVec.ofNat 6 i).toNat + 1 ≠ _
    rw [hk]; omega

/-- The last bit completes the frame with `w` and its exclusive or (41_decoder_step.md R151). -/
theorem Dec.shiftIn_lastBit {p : Proto} (d : Dec (Config.total p)) (w : BitVec (Config.total p)) {n : Nat}
    (hi : n + 1 = Config.total p) :
    Dec.shiftIn (desc p)
        { d.afterBits w n with lastTs := (d.afterBits w n).lastTs + BitVec.ofNat 32 (sym (desc p) (w.getMsbD n)).sum }
        (w.getMsbD n) =
      Dec.complete (desc p) { d with lastTs := d.lastTs + BitVec.ofNat 32 (frameSegs (desc p) w).sum } w (xorOfAllBits w) := by
  have hk : (BitVec.ofNat 6 n).toNat = n := by
    rw [BitVec.toNat_ofNat, Nat.mod_eq_of_lt]; have := Config.total_le p; omega
  have e1 : BitVec.ofNat (Config.total p) (w.toNat / 2 ^ (Config.total p - (n + 1))) = w := by rw [hi]; simp
  have e2 : (wireBits w).take (n + 1) = wireBits w := by rw [hi, List.take_of_length_le]; rw [wireBits_length]
  rw [Dec.shiftIn_of_last]
  · simp only [Dec.afterBits, nextCand_wire_prefix w (by omega : n < _), nextParity,
      xorOfAllBits_wire_prefix w (by omega : n < _), lastTs_wire w (by omega : n < _), e1, e2]
    unfold Dec.complete Dec.raiseReset Dec.gotoBit0 Dec.gotoWaitingSync frameSegs
    cases (desc p).rearm <;> rfl
  · refine (structuralOk_iff p _ _ _).2 (fun hp h9 => ?_)
    have h9' : (BitVec.ofNat 6 n).toNat + 1 = 9 := h9
    rw [hk] at h9'
    subst hp
    rw [hi] at h9'
    exact absurd h9' (by decide)
  · show (BitVec.ofNat 6 n).toNat + 1 = _
    rw [hk]; exact hi

theorem constOk_of_validFrame {p : Proto} {w : BitVec (Config.total p)} (h : validFrame (desc p) w = true) :
    constOk p w ∧ completionValid (desc p) (xorOfAllBits w) = true := by
  unfold validFrame at h
  rw [Bool.and_eq_true] at h
  refine ⟨fun hp => ?_, h.1⟩
  subst hp
  have := h.2
  simp only [desc, descWt4, Bool.not_true, Bool.false_or, beq_iff_eq] at this
  rw [← BitVec.toNat_inj, BitVec.extractLsb'_toNat, Nat.shiftRight_eq_div_pow] at this
  exact this

/-! ### A run of pulses -/

/-- One decoder under pulses of the given durations, with `g` applied after each edge (`id`, or `Dec.cbret` for a host that answers
at once); and what each edge raised. -/
def Dec.pulseRun (g : Dec W → Dec W) (C : Desc) : Dec W → List Nat → Dec W × List (Option (DecEvent W))
  | d, [] => (d, [])
  | d, x :: xs =>
    let r := d.edge C (d.lastTs + BitVec.ofNat 32 x)
    let q := Dec.pulseRun g C (g r.1) xs
    (q.1, r.2 :: q.2)

theorem Dec.pulseRun_append (g : Dec W → Dec W) (C : Desc) (xs ys : List Nat) (d : Dec W) :
    Dec.pulseRun g C d (xs ++ ys) =
      ((Dec.pulseRun g C (Dec.pulseRun g C d xs).1 ys).1,
        (Dec.pulseRun g C d xs).2 ++ (Dec.pulseRun g C (Dec.pulseRun g C d xs).1 ys).2) := by
  induction xs generalizing d with
  | nil => simp [Dec.pulseRun]
  | cons x xs ih => simp [Dec.pulseRun, ih]

@[simp] theorem Dec.pulseRun_length (g : Dec W → Dec W) (C : Desc) (xs : List Nat) (d : Dec W) :
    (Dec.pulseRun g C d xs).2.length = xs.length := by
  induction xs generalizing d with
  | nil => rfl
  | cons x xs ih => simp [Dec.pulseRun, ih]

theorem Dec.pulseRun_take (g : Dec W → Dec W) (C : Desc) (xs : List Nat) (d : Dec W) (k : Nat) :
    (Dec.pulseRun g C d (xs.take k)).2 = (Dec.pulseRun g C d xs).2.take k := by
  induction xs generalizing d k with
  | nil => simp [Dec.pulseRun]
  | cons x xs ih => cases k with
    | zero => rfl
    | succ k => simp [Dec.pulseRun, ih]

/-- `g` acts on a decoder in its callback alone. -/
def ActsInCallback (g : Dec W → Dec W) : Prop := ∀ d, d.inCb = false → g d = d

theorem actsInCallback_id : ActsInCallback (id : Dec W → Dec W) := fun _ _ => rfl

theorem actsInCallback_cbret : ActsInCallback (Dec.cbret : Dec W → Dec W) := fun d h => by simp [Dec.cbret, h]

theorem sym_length_pos (p : Proto) (b : Bool) : 0 < (sym (desc p) b).length := by cases p <;> cases b <;> decide

theorem Dec.pulseRun_bit {p : Proto} {g : Dec (Config.total p) → Dec (Config.total p)} (hg : ActsInCallback g)
    (d : Dec (Config.total p)) (b : Bool) (he : d.en = true) (hi : d.insync = true) (hp : d.ph = false) (hf : d.first = false)
    (hc : d.inCb = false) :
    Dec.pulseRun g (desc p) d (sym (desc p) b) =
      (g (Dec.shiftIn (desc p) { d with lastTs := d.lastTs + BitVec.ofNat 32 (sym (desc p) b).sum } b).1,
        List.replicate ((sym (desc p) b).length - 1) none
          ++ [(Dec.shiftIn (desc p) { d with lastTs := d.lastTs + BitVec.ofNat 32 (sym (desc p) b).sum } b).2]) := by
  rcases Dec.edges_of_bit p d b he hi hp hf with ⟨x, h1, h2⟩ | ⟨x, y, f, h1, h2, h3⟩
  · rw [h1] at h2 ⊢
    simp only [Dec.pulseRun, h2]
    simp
  · rw [h1] at h3 ⊢
    simp only [Dec.pulseRun, h2]
    rw [hg { d with lastTs := d.lastTs + BitVec.ofNat 32 x, ph := true, first := f } (by exact hc)]
    simp only [h3]
    simp

/-- The first `i` bits of a frame, not all of them, raise nothing. -/
theorem Dec.pulseRun_prefix {p : Proto} {g : Dec (Config.total p) → Dec (Config.total p)} (hg : ActsInCallback g)
    (d : Dec (Config.total p)) (w : BitVec (Config.total p)) (hcst : constOk p w) (he : d.en = true) (hi : d.insync = true)
    (hk : d.k = 0) (hp : d.ph = false) (hf : d.first = false) (hcd : d.cand = 0) (hx : d.px = false) (hc : d.inCb = false)
    (i : Nat) (hlt : i < Config.total p) :
    Dec.pulseRun g (desc p) d (((wireBits w).take i).flatMap (sym (desc p))) =
      (d.afterBits w i, List.replicate (((wireBits w).take i).flatMap (sym (desc p))).length none) := by
  induction i with
  | zero => rw [Dec.afterBits_zero _ _ hk hp hf hcd hx]; simp [Dec.pulseRun]
  | succ i ih =>
    rw [wireBits_take_succ w (by omega), List.flatMap_append, Dec.pulseRun_append, ih (by omega)]
    simp only [List.flatMap_cons, List.flatMap_nil, List.append_nil]
    rw [Dec.pulseRun_bit hg (d.afterBits w i) (w.getMsbD i) he hi rfl rfl hc, Dec.shiftIn_afterBits d w hcst hlt,
      hg _ (by exact hc)]
    simp only [Prod.mk.injEq, true_and]
    have hpos := sym_length_pos p (w.getMsbD i)
    rw [List.length_append, show [none] = List.replicate 1 (none : Option (DecEvent (Config.total p))) from rfl,
      List.replicate_append_replicate, List.replicate_append_replicate]
    congr 1; omega

/-- The result of a completed frame: the repeat filter takes its word. -/
def Dec.frameResult {p : Proto} (d : Dec (Config.total p)) (w : BitVec (Config.total p)) :
    Dec (Config.total p) × Option (DecEvent (Config.total p)) :=
  Dec.repeatFilter
    { d with insync := (desc p).rearm, lastTs := d.lastTs + BitVec.ofNat 32 (frameSegs (desc p) w).sum } w

/-- A valid frame from BIT_0: only its last edge can raise anything, and that is what the filter answers for its word. -/
theorem Dec.pulseRun_frame {p : Proto} {g : Dec (Config.total p) → Dec (Config.total p)} (hg : ActsInCallback g)
    (d : Dec (Config.total p)) (w : BitVec (Config.total p)) (hv : validFrame (desc p) w = true) (he : d.en = true)
    (hi : d.insync = true) (hk : d.k = 0) (hp : d.ph = false) (hf : d.first = false) (hcd : d.cand = 0) (hx : d.px = false)
    (hc : d.inCb = false) :
    Dec.pulseRun g (desc p) d (frameSegs (desc p) w) =
      (g (d.frameResult w).1, List.replicate ((frameSegs (desc p) w).length - 1) none ++ [(d.frameResult w).2]) := by
  obtain ⟨hcst, hcv⟩ := constOk_of_validFrame hv
  obtain ⟨n, hn⟩ : ∃ n, n + 1 = Config.total p := ⟨Config.total p - 1, by cases p <;> rfl⟩
  have e2 : wireBits w = (wireBits w).take n ++ [w.getMsbD n] := by
    rw [← wireBits_take_succ w (by omega), hn, List.take_of_length_le]; rw [wireBits_length]
  have e3 : frameSegs (desc p) w = ((wireBits w).take n).flatMap (sym (desc p)) ++ sym (desc p) (w.getMsbD n) := by
    conv_lhs => rw [frameSegs, e2, List.flatMap_append]
    simp
  have hpos := sym_length_pos p (w.getMsbD n)
  have hcomp : Dec.complete (desc p) { d with lastTs := d.lastTs + BitVec.ofNat 32 (frameSegs (desc p) w).sum } w
      (xorOfAllBits w) = d.frameResult w := by
    rw [Dec.complete_of_valid hcv, Dec.frameResult]
    congr 1
    revert hk hp hf hcd hx
    cases d
    intro hk hp hf hcd hx
    simp only at hk hp hf hcd hx
    subst hk hp hf hcd hx
    cases p <;> rfl
  have hl := Dec.shiftIn_lastBit d w hn
  rw [hcomp] at hl
  have hb := Dec.pulseRun_bit hg (d.afterBits w n) (w.getMsbD n) he hi rfl rfl hc
  rw [hl] at hb
  conv_lhs => rw [e3, Dec.pulseRun_append, Dec.pulseRun_prefix hg d w hcst he hi hk hp hf hcd hx hc n (by omega)]
  simp only [hb, Prod.mk.injEq, true_and]
  rw [← List.append_assoc, List.replicate_append_replicate, e3, List.length_append]
  congr 2; omega

end Sys2Proof.Machine
end

