-- ==== Sys2Proof/Tests/Slice0.lean ====
section
/-!
SUPPORT. The model's own tests: ill-formed terms, written-out words, the vectors of 95_test_vectors.md one step at a time, and a
witness for the hypotheses of every statement that has some.
-/
namespace Sys2Proof.Tests
open Sys2Proof Sys2Proof.Machine

/-! ### Small states -/

/-- The reset state with the record of decoder `p` changed. -/
def withDec (p : Proto) (f : Dec (Config.total p) → Dec (Config.total p)) : State := State.reset.setDec p (f (State.reset.dec p))

/-- A decoder record enabled in BIT_`k` with candidate `c`, whose last edge was at `ts`. -/
def inBit {W : Nat} (k c ts : Nat) (d : Dec W) : Dec W :=
  { d with
    en := true, insync := true, k := BitVec.ofNat 6 k, cand := BitVec.ofNat W c, lastTs := BitVec.ofNat 32 ts
    px := xorOfAllBits (BitVec.ofNat W c) }

/-- An enabled decoder record in WAITING_SYNC whose last edge was at `ts`. -/
def waiting {W : Nat} (ts : Nat) (d : Dec W) : Dec W := { d with en := true, lastTs := BitVec.ofNat 32 ts }

/-- What an operation does to decoder `p`. -/
def decAfter (p : Proto) (i : Instr) (s : State) : Option (Dec (Config.total p)) :=
  match exec i s with
  | .next t => some (t.dec p)
  | .fault _ => none
  | .refused _ => none

/-- What an operation puts out. -/
def obsAfter (i : Instr) (s : State) : Option (List Obs) :=
  match exec i s with
  | .next t => some t.obs
  | .fault _ => none
  | .refused _ => none

/-- What an operation does to the encoder. -/
def encAfter (i : Instr) (s : State) : Option Enc :=
  match exec i s with
  | .next t => some t.enc
  | .fault _ => none
  | .refused _ => none

/-- The operation that the decoder reads. -/
def decodesTo (w : OpWord) (i : Instr) : Bool :=
  match decode w with
  | .ok j => decide (j = i)
  | .error _ => false

/-! ### WellFormed -/

/-- 30_encoding.md R91: the constant field of a FRAME.WT4 row is `110`; here it is `111` (95_test_vectors.md V-WT4-2). -/
theorem test_wellFormed_refuses_wrong_constant : (Instr.frameWt4 0xB7B74781#32).wellFormed = false := by decide

theorem test_wellFormed_accepts_constant : (Instr.frameWt4 0xB7374780#32).wellFormed = true := by decide

/-! ### Decoding: words written out from 30_encoding.md R100, R101, R90 to R94, one for every constructor -/

/-- `0001 0ppp`, `ts` on `arg_a[31:0]`; bits 35:32 of `arg_a` and `arg_b` are ignored (R103). Command bytes of P1 and P3. -/
theorem test_decode_edge :
    decodesTo (.command 0b00010000#8 0xF000186A0#36 0xFF#8) (.edgeAur 100000)
    ∧ decodesTo (.command 0b00010001#8 0x0000F4240#36 0#8) (.edgeWt4 1000000)
    ∧ decodesTo (.command 0b00010010#8 0x000000001#36 0#8) (.edgeLiv 1)
    ∧ decodesTo (.command 0b00010011#8 0x0FFFFFFFF#36 0#8) (.edgeKop 0xFFFFFFFF)
    ∧ decodesTo (.command 0b00010100#8 0x000010000#36 0#8) (.edgeQuh 65536)
    ∧ decodesTo (.edgeStrobe .kop 7000) (.edgeKop 7000) := by decide

/-- `0010 0ppp` and `0011 0ppp`, no operand. -/
theorem test_decode_enable_disable :
    decodesTo (.command 0b00100000#8 0#36 0#8) .enableAur ∧ decodesTo (.command 0b00100001#8 0#36 0#8) .enableWt4
    ∧ decodesTo (.command 0b00100010#8 0#36 0#8) .enableLiv ∧ decodesTo (.command 0b00100011#8 0#36 0#8) .enableKop
    ∧ decodesTo (.command 0b00100100#8 5#36 6#8) .enableQuh
    ∧ decodesTo (.command 0b00110000#8 0#36 0#8) .disableAur ∧ decodesTo (.command 0b00110001#8 0#36 0#8) .disableWt4
    ∧ decodesTo (.command 0b00110010#8 0#36 0#8) .disableLiv ∧ decodesTo (.command 0b00110011#8 0#36 0#8) .disableKop
    ∧ decodesTo (.command 0b00110100#8 0#36 0#8) .disableQuh := by decide

/-- `0100 0ppp`, `minrep` on `arg_a[7:0]`, `irq` on `arg_b` (P2: `0x43`, 2, `0xFF` is INIT KOP irq=-1 minrep=2). -/
theorem test_decode_init :
    decodesTo (.command 0b01000000#8 0x000000001#36 0#8) (.initAur 1 0)
    ∧ decodesTo (.command 0b01000001#8 0x000000002#36 0#8) (.initWt4 2 0)
    ∧ decodesTo (.command 0b01000010#8 0x000000103#36 127#8) (.initLiv 3 127)
    ∧ decodesTo (.command 0b01000011#8 0x000000002#36 0xFF#8) (.initKop 2 0xFF)
    ∧ decodesTo (.command 0b01000100#8 0x0000000FF#36 1#8) (.initQuh 255 1) := by decide

/-- `0101 0ppp`, no operand; `0110 0ppp`, `timeout_ms` on `arg_a[15:0]`. -/
theorem test_decode_poll_isrecv :
    decodesTo (.command 0b01010000#8 0#36 0#8) .pollAur ∧ decodesTo (.command 0b01010001#8 0#36 0#8) .pollWt4
    ∧ decodesTo (.command 0b01010010#8 0#36 0#8) .pollLiv ∧ decodesTo (.command 0b01010011#8 0#36 0#8) .pollKop
    ∧ decodesTo (.command 0b01010100#8 0#36 0#8) .pollQuh
    ∧ decodesTo (.command 0b01100000#8 0x00000FFFF#36 0#8) (.isrecvAur 65535)
    ∧ decodesTo (.command 0b01100001#8 0x000010001#36 0#8) (.isrecvWt4 1)
    ∧ decodesTo (.command 0b01100010#8 0x00000001E#36 0#8) (.isrecvLiv 30)
    ∧ decodesTo (.command 0b01100011#8 0x000000002#36 0#8) (.isrecvKop 2)
    ∧ decodesTo (.command 0b01100100#8 0x000000100#36 0#8) (.isrecvQuh 256) := by decide

/-- `0111 0ppp`, no operand. -/
theorem test_decode_cbret :
    decodesTo (.command 0b01110000#8 0#36 0#8) .cbretAur ∧ decodesTo (.command 0b01110001#8 0#36 0#8) .cbretWt4
    ∧ decodesTo (.command 0b01110010#8 0#36 0#8) .cbretLiv ∧ decodesTo (.command 0b01110011#8 0#36 0#8) .cbretKop
    ∧ decodesTo (.command 0b01110100#8 0#36 0#8) .cbretQuh := by decide

/-- `1000 0ppp`, the frame word on `arg_a`, `n` on `arg_b`: the messages MA, MW, ML, MK, MQ, field by field; the parity and the
constant position and bits 35:TOTAL are ignored (R99). -/
theorem test_decode_send :
    decodesTo (.command 0b10000000#8 0b0000_10100101_000100100011_1001_1010101_1#36 1#8) (.sendAur 0xA5 0x123 9 0x55 1)
    ∧ decodesTo (.command 0b10000001#8 0b0000_1011_01_001_0110111_010001111000000_1#36 2#8) (.sendWt4 11 1 55 9152 2)
    ∧ decodesTo (.command 0b10000010#8 0b111111_0001101000101011_00000000110101#36 3#8) (.sendLiv 0x1A2B 0x35 3)
    ∧ decodesTo (.command 0b10000011#8 0b000000000000_1100001101011010_10000001#36 2#8) (.sendKop 0xC35A 0x81 2)
    ∧ decodesTo (.command 0b10000100#8 0b1010101111001101111011110001_00000010#36 6#8) (.sendQuh 0xABCDEF1 2 6) := by decide

/-- The `rst` pin, the expiry of the down-counter, and the frame words of the five protocols as rows of the opcode table. -/
theorem test_decode_others :
    decodesTo .rstPin .reset ∧ decodesTo .txExpiry .txstep
    ∧ decodeTableWord 32 0xA5123BAA = some (.frameAur 0xA5123BAA#32) ∧ decodeTableWord 32 0xB7374780 = some (.frameWt4 0xB7374780#32)
    ∧ decodeTableWord 30 0x068AC035 = some (.frameLiv 0x068AC035#30) ∧ decodeTableWord 24 0xC35A81 = some (.frameKop 0xC35A81#24)
    ∧ decodeTableWord 36 0xABCDEF102 = some (.frameQuh 0xABCDEF102#36) := by decide

/-- The fields of the messages (table at the head of 95_test_vectors.md). -/
theorem test_fields :
    aurFields 0xA51239AA = { addr := 0xA5, temp := 0x123, n1 := 9, n2 := 0x55, par := 0 }
    ∧ wt4Fields 0xB7374780 = { addr := 11, chan := 1, const := 6, hum := 55, temp := 9152, par := 0 }
    ∧ livFields 0x68AC035 = { addr := 0x1A2B, unit := 0x35 } ∧ kopFields 0xC35A81 = { addr := 0xC35A, unit := 0x81 }
    ∧ quhFields 0xABCDEF102 = { addr := 0xABCDEF1, unit := 2 } := by decide

/-- R102: an undefined operation code, bit 3, and a protocol id of 5. -/
theorem test_decode_reserved :
    decodeTableWord 8 0x00 = none ∧ decodeTableWord 8 0x90 = none ∧ decodeTableWord 8 0x18 = none ∧ decodeTableWord 8 0x15 = none := by
  decide

/-! ### EDGE (95_test_vectors.md 2.3, 2.4) -/

/-- V-FIRST: after RESET and ENABLE AUR, EDGE AUR 4000 is a sync hit. -/
theorem test_edgeAur_first : decAfter .aur (.edgeAur 4000) (withDec .aur (waiting 0)) =
    some (inBit 0 0 4000 (State.reset.dec .aur)) := by decide

/-- V-AUR-3: a LONG where the delimiter is due is E1. -/
theorem test_edgeAur_e1 : obsAfter (.edgeAur 5007500) (withDec .aur (inBit 1 1 5006000)) = some [.error .aur .e1] := by decide

/-- V-WT4-1: the constant check passes at 1019000; `k` becomes 9 and `cand` is `101101110`. -/
theorem test_edgeWt4_constant : decAfter .wt4 (.edgeWt4 1019000) (withDec .wt4 (inBit 8 0b10110111 1017000)) =
    some (inBit 9 0b101101110 1019000 (State.reset.dec .wt4)) := by decide

/-- V-WT4-2: with the constant `111` the same bit is E2. -/
theorem test_edgeWt4_e2 : obsAfter (.edgeWt4 1019000)
    (withDec .wt4 fun d => { inBit 8 0b10110111 1018000 d with ph := true }) = some [.error .wt4 .e2] := by decide

/-- V-LIV-0: a lone LONG is a 1. -/
theorem test_edgeLiv_long : decAfter .liv (.edgeLiv 1540) (withDec .liv (inBit 0 0 1120)) =
    some (inBit 1 1 1540 (State.reset.dec .liv)) := by decide

/-- V-LIV-2: SHORT then LONG is E1 at 1780. -/
theorem test_edgeLiv_e1 : obsAfter (.edgeLiv 1780) (withDec .liv fun d => { inBit 0 0 1360 d with ph := true }) =
    some [.error .liv .e1] := by decide

/-- V-KOP-1: the last pulse of the second frame of MK calls back. -/
theorem test_edgeKop_callback : obsAfter (.edgeKop 2024960)
    (withDec .kop fun d => { inBit 23 0x61AD40 2024840 d with ph := true, first := true, prev := 0xC35A81, rep := 1 }) =
    some [.callback .kop 0xC35A81] := by decide

/-- V-KOP-3: with `in_cb = 1` the same edge drops the message. -/
theorem test_edgeKop_drop : obsAfter (.edgeKop 2049920)
    (withDec .kop fun d =>
      { inBit 23 0x61AD40 2049800 d with ph := true, first := true, prev := 0xC35A81, rep := 1, inCb := true }) =
    some [.drop .kop 0xC35A81] := by decide

/-- V-QUH-6: 1250 is LONG, BIT_1 with a 1. -/
theorem test_edgeQuh_1250 : decAfter .quh (.edgeQuh 4400) (withDec .quh fun d => { inBit 0 0 3150 d with ph := true }) =
    some (inBit 1 1 4400 (State.reset.dec .quh)) := by decide +kernel

/-- V-QUH-7: 1251 is INVALID. -/
theorem test_edgeQuh_1251 : obsAfter (.edgeQuh 4401) (withDec .quh fun d => { inBit 0 0 3150 d with ph := true }) =
    some [.error .quh .e1] := by decide

/-! ### Control operations (2.7) and CBRET (2.6) -/

/-- V-CTL-3: ENABLE of a frozen decoder: WAITING_SYNC, `last_ts` kept. -/
theorem test_enable : ∀ p ∈ Proto.all, decAfter p (enableInstr p)
    (withDec p fun d => { inBit 5 0x18 3480 d with ph := true, en := false }) =
    some (waiting 3480 (State.reset.dec p)) := by decide

/-- V-CTL-1: DISABLE freezes the decode in progress. -/
theorem test_disable : ∀ p ∈ Proto.all, decAfter p (disableInstr p) (withDec p (inBit 5 0x18 3480)) =
    some { inBit 5 0x18 3480 (State.reset.dec p) with en := false } := by decide +kernel

/-- V-CTL-5: INIT with `irq=5 minrep=2` over `prev`, `rep`, `minrep = 3`. -/
theorem test_init : ∀ p ∈ Proto.all, decAfter p (initInstr p 2 5)
    (withDec p fun d => { waiting 70 d with minrep := 3, prev := 0x35A81, rep := 1 }) =
    some { waiting 70 (State.reset.dec p) with minrep := 2, irq := 5 } := by decide +kernel

/-- The POLL table: BIT_3 ph=1 answers 0, BIT_4 answers 1. -/
theorem test_poll : ∀ p ∈ Proto.all,
    obsAfter (pollInstr p) (withDec p fun d => { inBit 3 6 2520 d with ph := true }) = some [.result false]
    ∧ obsAfter (pollInstr p) (withDec p (inBit 4 12 2880)) = some [.result true] := by decide

/-- V-CTL-9: ISRECV of a decoder in BIT_4 answers 1 at once; V-CTL-7: of an idle decoder it waits. -/
theorem test_isrecv : ∀ p ∈ Proto.all,
    obsAfter (isrecvInstr p 0) (withDec p (inBit 4 12 2880)) = some [.result true]
    ∧ obsAfter (isrecvInstr p 2) (withDec p (waiting 0)) = some [] := by decide

/-- V-CTL-10: an ISRECV with bound 0 answers 0 at the first tick. -/
theorem test_isrecv_bound : ({ State.reset with isrecv := some { p := .kop, ticksLeft := 0 } } : State).msTick.obs =
    [.result false] := by decide

/-- V-DSP-3, V-DSP-4. -/
theorem test_cbret : ∀ p ∈ Proto.all,
    decAfter p (cbretInstr p) (withDec p fun d => { inBit 5 0x18 90 d with inCb := true, msg := 7 }) =
      some { waiting 90 (State.reset.dec p) with msg := 7 }
    ∧ decAfter p (cbretInstr p) (withDec p (inBit 5 0x18 90)) = some (inBit 5 0x18 90 (State.reset.dec p)) := by decide +kernel

/-! ### The encoder (2.8) and RESET (2.10) -/

/-- The number of segments and the microseconds of the burst that an operation loads. -/
def burstOf (i : Instr) (s : State) : Option (Nat × Nat) := (encAfter i s).map fun e => (e.queue.length, e.queue.sum)

/-- V-ENC-12 and V-ENC-13, where an AUR encoder exists. -/
theorem test_sendAur :
    burstOf (.sendAur 0xA5 0x123 9 0x55 2) { State.reset with params := { txPresentAur := true, clkPerUs := 1 } } = some (131, 100500)
    ∧ burstOf (.sendAur 0xA5 0x123 9 0x55 1) { State.reset with params := { txPresentAur := true, clkPerUs := 1 } } =
      some (65, 50000) := by decide +kernel

/-- V-ENC-12: with the default the command is ignored. -/
theorem test_sendAur_absent : burstOf (.sendAur 0xA5 0x123 9 0x55 2) State.reset = some (0, 0) := by decide

/-- V-ENC-4 and V-ENC-6. -/
theorem test_sendWt4 : burstOf (.sendWt4 11 1 55 9152 2) State.reset = some (97, 129000)
    ∧ burstOf (.sendWt4 0 0 0 0 1) State.reset = some (35, 65000) := by decide +kernel

/-- V-ENC-8. -/
theorem test_sendLiv : burstOf (.sendLiv 0x1A2B 0x35 1) State.reset = some (51, 11200) := by decide +kernel

/-- V-ENC-1 and V-ENC-2. -/
theorem test_sendKop : burstOf (.sendKop 0xC35A 0x81 1) State.reset = some (49, 12480)
    ∧ burstOf (.sendKop 0xC35A 0x81 2) State.reset = some (99, 25080) := by decide +kernel

/-- V-ENC-11. -/
theorem test_sendQuh : burstOf (.sendQuh 0xABCDEF1 2 2) State.reset = some (147, 82950) := by decide +kernel

/-- V-ENC-5: the truncation of a caller's fields. -/
theorem test_send_truncates : sendWt4Line 0x1B 5 0xB7 0x123C0 1 = .sendWt4 11 1 55 9152 1 := by decide

/-- A burst of decoder KOP's encoder with segments left. -/
def sending (queue : List Nat) (level : Bool) (left : Nat) : State :=
  { State.reset with enc := { busy := true, p := .kop, queue := queue, level := allLow.set .kop level, left := left } }

/-- V-ENC-1: TXSTEP 2 drives `LOW 360`. -/
theorem test_txstep : obsAfter .txstep (sending [360, 120] true 0) = some [.seg .kop false 360] := by decide

/-- V-ENC-1: TXSTEP 50 finds the queue empty. -/
theorem test_txstep_end : encAfter .txstep (sending [] true 0) =
    some { busy := false, p := .kop, queue := [], level := allLow, left := 0 } := by decide

/-- V-RST-2: RESET in a burst. -/
theorem test_reset : encAfter .reset (sending [120] false 5) = some Enc.atReset := by decide

/-! ### FRAME (2.4) -/

/-- V-AUR-5 and V-AUR-2. -/
theorem test_frameAur :
    obsAfter (.frameAur 0#32) (withDec .aur fun d => { inBit 0 0 4000 d with minrep := 1 }) = some [.callback .aur 0]
    ∧ obsAfter (.frameAur 0xA51239AB#32) (withDec .aur fun d => { inBit 0 0 4000 d with minrep := 1 }) =
      some [.error .aur .e4] := by decide +kernel

/-- V-WT4-7 and V-WT4-6. -/
theorem test_frameWt4 :
    obsAfter (.frameWt4 0xB7374780#32) (withDec .wt4 fun d => { inBit 0 0 1000 d with minrep := 1 }) =
      some [.callback .wt4 0xB7374780]
    ∧ obsAfter (.frameWt4 0xB7374781#32) (withDec .wt4 fun d => { inBit 0 0 1000 d with minrep := 1 }) =
      some [.error .wt4 .e4] := by decide +kernel

/-- The frame of V-LIV-1, with `minrep = 1`. -/
theorem test_frameLiv : obsAfter (.frameLiv 0x68AC035#30) (withDec .liv fun d => { inBit 0 0 1120 d with minrep := 1 }) =
    some [.callback .liv 0x68AC035] := by decide +kernel

/-- The frame of V-KOP-2. -/
theorem test_frameKop : obsAfter (.frameKop 0xC35A81#24) (withDec .kop fun d => { inBit 0 0 960 d with minrep := 1 }) =
    some [.callback .kop 0xC35A81] := by decide +kernel

/-- The frame of V-QUH-1, with `minrep = 1`, across the wrap of the timestamp. -/
theorem test_frameQuh : obsAfter (.frameQuh 0xABCDEF102#36) (withDec .quh fun d => { inBit 0 0 4294960000 d with minrep := 1 }) =
    some [.callback .quh 0xABCDEF102] := by decide +kernel

/-- The nominal pulses of MK begin `360 120 360 120 120 360` and last 11520 µs. -/
theorem test_frameSegs : (frameSegs descKop 0xC35A81#24).take 6 = [360, 120, 360, 120, 120, 360]
    ∧ (frameSegs descKop 0xC35A81#24).sum = 11520 := by decide +kernel

/-! ### The first step after reset runs the word that is presented -/

theorem test_withFetchWord : decodeTableWord 8 0x23 = some .enableKop
    ∧ (step (State.reset.withFetchWord 8 0x23) matches .next _) = true := by decide

/-! ### Witnesses: states and operands that meet the hypotheses of each statement -/

/-- Both cases of the statement, at the edges of the sync windows (95_test_vectors.md 2.1). -/
theorem witness_SyncHitAgreesWithClassify :
    (Proto.kop ≠ .wt4 ∧ syncHit (desc .kop) 671 = false ∧ syncHit (desc .kop) 672 = true ∧ syncHit (desc .kop) 1247 = true
      ∧ syncHit (desc .kop) 1248 = false)
    ∧ (Proto.wt4 = .wt4 ∧ syncHit (desc .wt4) 699 = false ∧ syncHit (desc .wt4) 700 = true) := by decide

theorem witness_EdgeOfADisabledDecoderChangesNothing : ∀ p ∈ Proto.all, (State.reset.dec p).en = false := by decide

/-- Durations on both sides of both ends of the KOP sync window. -/
theorem witness_EdgeWhileWaitingForSync : ((withDec .kop (waiting 0)).dec .kop).en = true
    ∧ ((withDec .kop (waiting 0)).dec .kop).insync = false
    ∧ [671, 672, 1247, 1248].map (fun ts => decAfter .kop (.edgeKop ts) (withDec .kop (waiting 0))) =
      [some (waiting 671 (State.reset.dec .kop)), some (inBit 0 0 672 (State.reset.dec .kop)),
        some (inBit 0 0 1247 (State.reset.dec .kop)), some (waiting 1248 (State.reset.dec .kop))] := by decide

/-- The hypotheses of the statement on E1. -/
abbrev MeetsE1 (p : Proto) (s : State) (ts : Timestamp) : Prop :=
  (s.dec p).en = true ∧ (s.dec p).insync = true
  ∧ IllegalPulse (desc p) (s.dec p).ph (s.dec p).first (classify (desc p) (ts - (s.dec p).lastTs))

/-- One state and edge for each way in which a pulse is illegal: INVALID, SYNC, a LONG delimiter, SHORT SHORT, LONG LONG, and
SHORT LONG. -/
theorem witness_EdgeWithAnIllegalPulseIsE1 :
    MeetsE1 .kop (withDec .kop (inBit 0 0 0)) 200 ∧ MeetsE1 .kop (withDec .kop (inBit 0 0 0)) 960
    ∧ MeetsE1 .aur (withDec .aur (inBit 0 0 0)) 1050
    ∧ MeetsE1 .kop (withDec .kop fun d => { inBit 0 0 0 d with ph := true }) 155
    ∧ MeetsE1 .kop (withDec .kop fun d => { inBit 0 0 0 d with ph := true, first := true }) 252
    ∧ MeetsE1 .liv (withDec .liv fun d => { inBit 0 0 0 d with ph := true }) 294 :=
  ⟨by decide, by decide, by decide, by decide, by decide, by decide⟩

/-- A SHORT first pulse at both ends of its window, and a LONG one of KOP. -/
theorem witness_EdgeWithTheFirstPulseOfABit :
    ((withDec .kop (inBit 0 0 0)).dec .kop).en = true ∧ ((withDec .kop (inBit 0 0 0)).dec .kop).insync = true
    ∧ ((withDec .kop (inBit 0 0 0)).dec .kop).ph = false
    ∧ classify (desc .kop) (84 - ((withDec .kop (inBit 0 0 0)).dec .kop).lastTs) = .short
    ∧ classify (desc .kop) (155 - ((withDec .kop (inBit 0 0 0)).dec .kop).lastTs) = .short
    ∧ classify (desc .kop) (467 - ((withDec .kop (inBit 0 0 0)).dec .kop).lastTs) = .long := by decide

/-- Bit 22 of KOP, the last one that is not the frame's last; and bit 8 of WT4 with the right constant. -/
theorem witness_EdgeShiftsABitIn :
    (∃ (s : State) (ts : Timestamp), (s.dec .kop).en = true ∧ (s.dec .kop).insync = true
      ∧ symStep (desc .kop) (s.dec .kop).ph (s.dec .kop).first (classify (desc .kop) (ts - (s.dec .kop).lastTs)) = .bit true
      ∧ (s.dec .kop).k.toNat + 1 < Config.total .kop ∧ Proto.kop ≠ .wt4)
    ∧ ∃ (s : State) (ts : Timestamp), (s.dec .wt4).en = true ∧ (s.dec .wt4).insync = true
      ∧ symStep (desc .wt4) (s.dec .wt4).ph (s.dec .wt4).first (classify (desc .wt4) (ts - (s.dec .wt4).lastTs)) = .bit false
      ∧ (s.dec .wt4).k.toNat + 1 < Config.total .wt4
      ∧ (s.dec .wt4).k.toNat = 8 ∧ (2 * (s.dec .wt4).cand.toNat + false.toNat) % 8 = 6 :=
  ⟨⟨withDec .kop fun d => { inBit 22 5 0 d with ph := true, first := true }, 120, by decide⟩,
    ⟨withDec .wt4 (inBit 8 0b10110111 0), 2000, by decide⟩⟩

theorem witness_EdgeWithAWrongConstantIsE2 : ∃ (s : State) (ts : Timestamp) (b : Bool), s.wt4.en = true ∧ s.wt4.insync = true
    ∧ symStep descWt4 s.wt4.ph s.wt4.first (classify descWt4 (ts - s.wt4.lastTs)) = .bit b
    ∧ s.wt4.k.toNat = 8 ∧ (2 * s.wt4.cand.toNat + b.toNat) % 8 ≠ 6 :=
  ⟨withDec .wt4 fun d => { inBit 8 0b10110111 0 d with ph := true }, 1000, true, by decide⟩

/-- For AUR and for WT4. -/
theorem witness_EdgeWithAWrongParityIsE4 :
    (∃ (s : State) (ts : Timestamp), (s.dec .aur).en = true ∧ (s.dec .aur).insync = true
      ∧ symStep (desc .aur) (s.dec .aur).ph (s.dec .aur).first (classify (desc .aur) (ts - (s.dec .aur).lastTs)) = .bit true
      ∧ (s.dec .aur).k.toNat = 31 ∧ xor (s.dec .aur).px true = true)
    ∧ ∃ (s : State) (ts : Timestamp), (s.dec .wt4).en = true ∧ (s.dec .wt4).insync = true
      ∧ symStep (desc .wt4) (s.dec .wt4).ph (s.dec .wt4).first (classify (desc .wt4) (ts - (s.dec .wt4).lastTs)) = .bit false
      ∧ (s.dec .wt4).k.toNat = 31 ∧ xor (s.dec .wt4).px false = true :=
  ⟨⟨withDec .aur fun d => { inBit 31 0 0 d with ph := true }, 1500, by decide⟩,
    ⟨withDec .wt4 (inBit 31 0x5B9BA3C1 0), 2000, by decide⟩⟩

/-- KOP on its last bit, the pulse of a 1 due: the frame word is `0xC35A81`. -/
def lastBit (rep minrep : Nat) (inCb : Bool) : State :=
  withDec .kop fun d =>
    { inBit 23 0x61AD40 0 d with
      ph := true, first := true, prev := 0xC35A81, rep := BitVec.ofNat 8 rep, minrep := BitVec.ofNat 8 minrep, inCb := inCb }

/-- The hypotheses that the three completion statements share. -/
abbrev Completes (p : Proto) (s : State) (ts : Timestamp) (b : Bool) (w : BitVec (Config.total p)) : Prop :=
  (s.dec p).en = true ∧ (s.dec p).insync = true
  ∧ symStep (desc p) (s.dec p).ph (s.dec p).first (classify (desc p) (ts - (s.dec p).lastTs)) = .bit b
  ∧ (s.dec p).k.toNat + 1 = Config.total p
  ∧ (p = .aur ∨ p = .wt4 → xor (s.dec p).px b = false)
  ∧ w = BitVec.ofNat (Config.total p) (2 * (s.dec p).cand.toNat + b.toNat)

/-- A run of 1 with a minimum of 3; and another word, whose run starts at 1. -/
theorem witness_EdgeCompletionBelowTheMinimumCounts :
    (Completes .kop (lastBit 1 3 false) 120 true 0xC35A81
      ∧ (if (0xC35A81 : BitVec 24) = ((lastBit 1 3 false).dec .kop).prev then ((lastBit 1 3 false).dec .kop).rep.toNat else 0) + 1 <
        ((lastBit 1 3 false).dec .kop).minrep.toNat)
    ∧ Completes .wt4 (withDec .wt4 (inBit 31 0x5B9BA3C0 0)) 2000 false 0xB7374780
    ∧ (if (0xB7374780 : BitVec 32) = ((withDec .wt4 (inBit 31 0x5B9BA3C0 0)).dec .wt4).prev then
        ((withDec .wt4 (inBit 31 0x5B9BA3C0 0)).dec .wt4).rep.toNat else 0) + 1 <
      ((withDec .wt4 (inBit 31 0x5B9BA3C0 0)).dec .wt4).minrep.toNat :=
  ⟨⟨by decide, by decide⟩, by decide, by decide⟩

/-- The run reaches the minimum of 2 exactly. -/
theorem witness_EdgeCompletionAtTheMinimumCallsBack :
    Completes .kop (lastBit 1 2 false) 120 true 0xC35A81
    ∧ ((lastBit 1 2 false).dec .kop).minrep.toNat ≤
      (if (0xC35A81 : BitVec 24) = ((lastBit 1 2 false).dec .kop).prev then ((lastBit 1 2 false).dec .kop).rep.toNat else 0) + 1
    ∧ ((lastBit 1 2 false).dec .kop).inCb = false := ⟨by decide, by decide, by decide⟩

theorem witness_EdgeCompletionDuringACallbackIsDropped :
    Completes .kop (lastBit 1 2 true) 120 true 0xC35A81
    ∧ ((lastBit 1 2 true).dec .kop).minrep.toNat ≤
      (if (0xC35A81 : BitVec 24) = ((lastBit 1 2 true).dec .kop).prev then ((lastBit 1 2 true).dec .kop).rep.toNat else 0) + 1
    ∧ ((lastBit 1 2 true).dec .kop).inCb = true := ⟨by decide, by decide, by decide⟩

/-- An edge for each label. -/
theorem witness_EdgeLabelsComeOnlyFromTheirPlaces :
    (∃ t, exec (.edgeKop 200) (withDec .kop (inBit 0 0 0)) = .next t ∧ t.obs = [] ++ [.error .kop .e1])
    ∧ (∃ t, exec (.edgeWt4 1000) (withDec .wt4 fun d => { inBit 8 0b10110111 0 d with ph := true }) = .next t
      ∧ t.obs = [] ++ [.error .wt4 .e2])
    ∧ (∃ t, exec (.edgeAur 1500) (withDec .aur fun d => { inBit 31 0 0 d with ph := true }) = .next t
      ∧ t.obs = [] ++ [.error .aur .e4])
    ∧ (∃ t, exec (.edgeKop 120) (lastBit 1 2 true) = .next t ∧ t.obs = [] ++ [.drop .kop 0xC35A81])
    ∧ ∃ t, exec (.edgeKop 120) (lastBit 1 2 false) = .next t ∧ t.obs = [] ++ [.callback .kop 0xC35A81] :=
  ⟨⟨_, rfl, by decide⟩, ⟨_, rfl, by decide⟩, ⟨_, rfl, by decide⟩, ⟨_, rfl, by decide⟩, ⟨_, rfl, by decide⟩⟩

theorem witness_ProgressCounterOnlyRisesOrResets :
    Dec.Inv (desc .kop) ((lastBit 1 2 false).dec .kop) ∧ ∃ t, exec (edgeInstr .kop 120) (lastBit 1 2 false) = .next t :=
  ⟨by decide +kernel, _, rfl⟩

/-- V-KOP-2: BIT_5, then 200 µs, then 960 µs. -/
theorem witness_InvalidPulseThenSyncStartsAfresh :
    ((withDec .kop (inBit 5 0x18 10360)).dec .kop).en = true ∧ ((withDec .kop (inBit 5 0x18 10360)).dec .kop).insync = true
    ∧ IllegalPulse descKop false false (classify descKop (10560 - ((withDec .kop (inBit 5 0x18 10360)).dec .kop).lastTs))
    ∧ syncHit descKop (11520 - 10560) = true := by decide

/-- A decoder of AUR in BIT_0 with an ISRECV of its own waiting, and the frame MA. -/
theorem witness_FrameDeliversItsWordToTheFilter :
    ∃ s : State, (s.dec .aur).en = true ∧ (s.dec .aur).insync = true ∧ (s.dec .aur).k = 0 ∧ (s.dec .aur).ph = false
      ∧ (s.dec .aur).first = false ∧ (s.dec .aur).cand = 0 ∧ (s.dec .aur).px = false ∧ s.Waiting
      ∧ validFrame (desc .aur) 0xA51239AA#32 = true ∧ (s.isrecv.map fun r => r.p) = some .aur :=
  ⟨{ withDec .aur (inBit 0 0 4000) with isrecv := some { p := .aur, ticksLeft := 3 } }, by decide⟩

/-- AUR, and WT4 with the right constant. -/
theorem witness_FrameWithAWrongParityIsRejected :
    (xorOfAllBits 0xA51239AB#32 = true ∧ xorOfAllBits 0xB7374781#32 = true ∧ BitVec.extractLsb' 23 3 0xB7374781#32 = 0b110#3)
    ∧ ∀ p ∈ [Proto.aur, .wt4], ((withDec p (inBit 0 0 9)).dec p).en = true ∧ ((withDec p (inBit 0 0 9)).dec p).insync = true
      ∧ ((withDec p (inBit 0 0 9)).dec p).k = 0 ∧ ((withDec p (inBit 0 0 9)).dec p).ph = false
      ∧ ((withDec p (inBit 0 0 9)).dec p).first = false ∧ ((withDec p (inBit 0 0 9)).dec p).cand = 0
      ∧ ((withDec p (inBit 0 0 9)).dec p).px = false ∧ (withDec p (inBit 0 0 9)).isrecv = none := by decide

/-- V-REP-1: minimum 2, five frames; and a run of none. -/
theorem witness_RepeatRunCallsBackOncePerN :
    1 ≤ (State.reset.dec .kop).minrep.toNat ∧ (State.reset.dec .kop).inCb = false ∧ (State.reset.dec .kop).rep = 0
    ∧ (filterRun (State.reset.dec .kop) (List.replicate 5 0xC35A81)).2 =
      [none, some (.callback 0xC35A81), none, some (.callback 0xC35A81), none]
    ∧ (filterRun (State.reset.dec .kop) (List.replicate 0 0xC35A81)).2 = [] := by decide

/-- V-REP-2: two words in turn. -/
theorem witness_RunWithoutRepeatsNeverCallsBack :
    2 ≤ (State.reset.dec .kop).minrep.toNat ∧ (0xC35A81 : BitVec 24) ≠ (State.reset.dec .kop).prev
    ∧ ([0xC35A81, 0xC35A82, 0xC35A81] : List (BitVec 24)).IsChain (fun x y => y ≠ x) := by
  refine ⟨by decide, by decide, ?_⟩
  simp

theorem witness_MessageIsStableDuringItsCallback :
    Instr.edgeKop 120 ≠ .reset ∧ ((lastBit 1 2 true).dec .kop).inCb = true
    ∧ ∃ t, exec (.edgeKop 120) (lastBit 1 2 true) = .next t := ⟨by decide, by decide, _, rfl⟩

/-- Both cases. -/
theorem witness_CbretReturnsFromTheCallback :
    ((lastBit 1 2 true).dec .kop).inCb = true ∧ ((lastBit 1 2 false).dec .kop).inCb = false := by decide

theorem witness_InitResult : BitVec.extractLsb' 0 8 (0x102 : ArgA) = 2#8 := by decide

/-- Both answers, at BIT_3 and BIT_4. -/
theorem witness_PollAnswersReceiving :
    false = (((withDec .kop (inBit 3 6 0)).dec .kop).insync && decide (4 ≤ ((withDec .kop (inBit 3 6 0)).dec .kop).k.toNat))
    ∧ true = (((withDec .kop (inBit 4 12 0)).dec .kop).insync && decide (4 ≤ ((withDec .kop (inBit 4 12 0)).dec .kop).k.toNat)) := by
  decide

/-- Both cases, at BIT_4 and BIT_3. -/
theorem witness_IsrecvStartsWithAPoll :
    (withDec .kop (inBit 4 12 0)).isrecv = none
    ∧ (((withDec .kop (inBit 4 12 0)).dec .kop).insync = true ∧ 4 ≤ ((withDec .kop (inBit 4 12 0)).dec .kop).k.toNat)
    ∧ ¬ (((withDec .kop (inBit 3 6 0)).dec .kop).insync = true ∧ 4 ≤ ((withDec .kop (inBit 3 6 0)).dec .kop).k.toNat) := by decide

/-- An ISRECV of decoder KOP that waits with `n` ticks left, and operations to do. -/
def pendingIsrecv (n : Nat) (todo : List Pending) : State :=
  { withDec .kop (inBit 3 6 0) with isrecv := some { p := .kop, ticksLeft := BitVec.ofNat 16 n }, todo := todo }

/-- Bound 2 and bound 0; `j` at both ends of its range. -/
theorem witness_IsrecvEndsAtTheTickAfterItsTimeout : ∀ n ∈ [2, 0],
    (pendingIsrecv n []).isrecv = some { p := .kop, ticksLeft := BitVec.ofNat 16 n }
    ∧ ((pendingIsrecv n []).dec .kop).receiving = false ∧ 0 ≤ n ∧ n ≤ (BitVec.ofNat 16 n).toNat := by decide

/-- The edge that brings KOP to BIT_4 (V-CTL-8), and one that does not. -/
theorem witness_IsrecvEndsWhenReceptionIsSeen :
    (∃ (s t : State) (ts : Timestamp), s.isrecv = some { p := .kop, ticksLeft := 30 } ∧ s.todo = [.op (.edgeStrobe .kop ts)]
      ∧ exec (edgeInstr .kop ts) { s with todo := [], obs := [] } = .next t
      ∧ (t.dec .kop).insync = true ∧ 4 ≤ (t.dec .kop).k.toNat)
    ∧ ∃ (s t : State) (ts : Timestamp), s.isrecv = some { p := .kop, ticksLeft := 30 } ∧ s.todo = [.op (.edgeStrobe .kop ts)]
      ∧ exec (edgeInstr .kop ts) { s with todo := [], obs := [] } = .next t ∧ ¬ 4 ≤ (t.dec .kop).k.toNat :=
  ⟨⟨{ withDec .kop (fun d => { inBit 3 6 2520 d with ph := true }) with
        isrecv := some { p := .kop, ticksLeft := 30 }, todo := [.op (.edgeStrobe .kop 2880)] }, _, 2880, rfl, rfl, rfl, by decide⟩,
    ⟨pendingIsrecv 30 [.op (.edgeStrobe .kop 120)], _, 120, rfl, rfl, rfl, by decide⟩⟩

/-- A POLL, an EDGE command and a CBRET command during an ISRECV. -/
theorem witness_CommandsDuringAnIsrecv :
    (pendingIsrecv 5 [.op (.command 0x53 0 0)]).isrecv = some { p := .kop, ticksLeft := 5 }
    ∧ (BitVec.extractLsb' 4 4 (0x53 : CmdByte)).toNat ≠ 1 ∧ (BitVec.extractLsb' 4 4 (0x53 : CmdByte)).toNat ≠ 7
    ∧ (0x13 : CmdByte) = BitVec.ofNat 8 (0x10 + pidOf .kop) ∧ (0x73 : CmdByte) = BitVec.ofNat 8 (0x70 + pidOf .kop)
    ∧ (pendingIsrecv 5 [.op (.command 0x13 0 0)]).todo = [.op (.command 0x13 0 0)] := by decide

/-- An idle encoder, with an AUR encoder and without. -/
theorem witness_SendLoadsTheBurst :
    State.reset.enc.busy = false ∧ (1 : BitVec 8) ≠ 0
    ∧ ({ State.reset with params := { txPresentAur := true, clkPerUs := 1 } } : State).params.txPresentAur = true := by decide

/-- Each of the three ways. -/
theorem witness_SendIsIgnored :
    (sending [120] true 0).enc.busy = true ∧ (0 : BitVec 8) = 0 ∧ (Proto.aur = .aur ∧ State.reset.params.txPresentAur = false) := by
  decide

/-- One frame, the least number; a body of even and one of odd length (V-ENC-8, V-ENC-1). -/
theorem witness_BurstLastsItsFramesAndTerminator :
    1 ≤ 1 ∧ (burstBody (desc .liv) 0x68AC035#30 1).length % 2 = 0 ∧ (burstBody (desc .kop) 0xC35A81#24 1).length % 2 = 1
    ∧ (burst (desc .liv) 0x68AC035#30 1).sum = 11200 ∧ (burst (desc .kop) 0xC35A81#24 1).sum = 12480 := by decide +kernel

/-- Each of the three cases. -/
theorem witness_TxstepTakesOneSegment :
    State.reset.enc.busy = false ∧ ((sending [] true 0).enc.busy = true ∧ (sending [] true 0).enc.queue = [])
    ∧ ((sending [360, 120] true 0).enc.busy = true ∧ (sending [360, 120] true 0).enc.queue = 360 :: [120]) := by decide

theorem witness_SendAndItsTxstepsPutOutTheBurst :
    State.reset.enc.busy = false ∧ State.reset.enc.level = allLow ∧ (1 : BitVec 8) ≠ 0 ∧ Proto.kop ≠ .aur
    ∧ (burst (desc .kop) (sendWord .kop 0xC35A81#36) 1).length = 49 := by decide +kernel

/-- Both ends of the range of `k`. -/
theorem witness_SegmentLastsItsDuration :
    (sending [120] true 3).enc.busy = true ∧ (sending [120] true 3).todo = [] ∧ (sending [120] true 3).inputs = []
    ∧ 0 ≤ (sending [120] true 3).enc.left ∧ 3 ≤ (sending [120] true 3).enc.left ∧ 3 = (sending [120] true 3).enc.left := by decide

/-- An operation on a decoder and one on the encoder. -/
theorem witness_OperationsTouchOnlyTheirPart :
    (∃ t, exec (.edgeKop 120) (lastBit 1 2 false) = .next t) ∧ partOf (.edgeKop 120) = .decoder .kop
    ∧ (∃ t, exec .txstep (sending [120] true 0) = .next t) ∧ partOf .txstep = .encoder ∧ Proto.aur ≠ .kop :=
  ⟨⟨_, rfl⟩, rfl, ⟨_, rfl⟩, rfl, by decide⟩

/-- Two states that agree on decoder KOP and not on the encoder; and two that agree on the encoder and not on decoder KOP. -/
theorem witness_OperationsReadOnlyTheirPart :
    (State.reset.dec .kop = (sending [120] true 0).dec .kop ∧ State.reset.enc ≠ (sending [120] true 0).enc)
    ∧ (State.reset.params = (lastBit 1 2 false).params ∧ State.reset.enc = (lastBit 1 2 false).enc
      ∧ State.reset.dec .kop ≠ (lastBit 1 2 false).dec .kop)
    ∧ (∃ t, exec (.edgeKop 120) State.reset = .next t) ∧ (∃ t, exec (.edgeKop 120) (sending [120] true 0) = .next t)
    ∧ (∃ t, exec .txstep State.reset = .next t) ∧ ∃ t, exec .txstep (lastBit 1 2 false) = .next t :=
  ⟨by decide, by decide, ⟨_, rfl⟩, ⟨_, rfl⟩, ⟨_, rfl⟩, ⟨_, rfl⟩⟩

/-- No ISRECV pending, and an operation that is taken during one. -/
theorem witness_StepRunsTheDecodedOperation :
    decodesTo (.command 0x53 0 0) .pollKop
    ∧ ({ State.reset with todo := [.op (.command 0x53 0 0)] } : State).todo = .op (.command 0x53 0 0) :: []
    ∧ State.reset.isrecv = none ∧ decodesTo (.command 0x73 0 0) .cbretKop ∧ (pendingIsrecv 5 []).isrecv ≠ none
    ∧ takenDuringIsrecv .cbretKop = true := by decide

/-- Each form of a reserved command, at the least byte of its range. -/
theorem witness_ReservedCommandIsIgnored :
    (BitVec.extractLsb' 4 4 (0x00 : CmdByte)).toNat = 0 ∧ 9 ≤ (BitVec.extractLsb' 4 4 (0x90 : CmdByte)).toNat
    ∧ (0x18 : CmdByte).getLsbD 3 = true ∧ 5 ≤ (BitVec.extractLsb' 0 3 (0x15 : CmdByte)).toNat
    ∧ ((0x80 : CmdByte) = BitVec.ofNat 8 (0x80 + pidOf .aur) ∧ txPresent State.reset.params .aur = false)
    ∧ ({ State.reset with todo := [.op (.command 0x90 0 0)] } : State).todo = .op (.command 0x90 0 0) :: [] := by decide

/-- A due TXSTEP; and a cycle of the tape. -/
theorem witness_EventsOfACycleComeInOrder :
    ((sending [120] true 0).todo = [] ∧ (sending [120] true 0).enc.busy = true ∧ (sending [120] true 0).enc.left = 0)
    ∧ ¬ ((sending [120] true 1).enc.busy = true ∧ (sending [120] true 1).enc.left = 0)
    ∧ ({ State.reset with inputs := [edgeAllLine 7] } : State).inputs = edgeAllLine 7 :: [] := by decide

theorem witness_EdgesOfDifferentDecodersCommute : Proto.aur ≠ Proto.kop := by decide

/-- With `res_stb` standing and without. -/
theorem witness_ClockEndsTheStrobes :
    State.reset.todo = [] ∧ ¬ (State.reset.enc.busy = true ∧ State.reset.enc.left = 0) ∧ State.reset.resStb = false
    ∧ ({ State.reset with resStb := true } : State).todo = [] := by decide

/-- KOP on its last bit with the run at its minimum, the last edge to do. -/
def lastEdge : State := { lastBit 1 2 false with todo := [.op (.edgeStrobe .kop 120)] }

theorem lastEdge_inv : lastEdge.Inv := by
  refine ⟨?_, ?_, ?_, ?_, ?_, ?_, ?_⟩
  all_goals decide +kernel

theorem witness_InvariantKeptByEveryStep : lastEdge.Inv ∧ ∃ t, step lastEdge = .next t := ⟨lastEdge_inv, _, rfl⟩

/-- The step that delivers MK. -/
theorem witness_OnlyValidMessagesAreDelivered :
    lastEdge.Inv ∧ ∃ t, step lastEdge = .next t ∧ Obs.callback .kop 0xC35A81 ∈ t.obs := ⟨lastEdge_inv, _, rfl, by decide⟩

/-- The hypotheses that both LOOPBACK statements share. -/
abbrev MeetsLoopback (p : Proto) (s : State) (n : BitVec 8) (t0 : Timestamp) : Prop :=
  Enc.Inv s.params s.enc ∧ s.enc.busy = false ∧ (p = .aur → s.params.txPresentAur = true)
  ∧ (s.dec p).en = true ∧ (s.dec p).insync = false ∧ (s.dec p).inCb = false ∧ (s.dec p).rep = 0
  ∧ 1 ≤ (s.dec p).minrep.toNat ∧ (s.dec p).minrep.toNat ≤ n.toNat ∧ syncHit (desc p) (t0 - (s.dec p).lastTs) = false

/-- P2, the least number of frames that delivers; its body of two frames of MK has 98 segments, the bound of the statement. -/
theorem witness_LoopbackDeliversTheMessageSent :
    MeetsLoopback .kop (withDec .kop (waiting 0)) 2 100000
    ∧ (∃ t, exec (sendInstr .kop 0xC35A81 2) (withDec .kop (waiting 0)) = .next t)
    ∧ (burstBody (desc .kop) (sendWord .kop 0xC35A81) 2).length = 98 :=
  ⟨⟨by decide, by decide, by decide, by decide, by decide, by decide, by decide, by decide, by decide, by decide⟩, ⟨_, rfl⟩,
    by decide +kernel⟩

theorem witness_LoopbackWithEveryCallbackAnswered :
    Proto.kop ≠ .wt4 ∧ MeetsLoopback .kop (withDec .kop (waiting 0)) 5 100000
    ∧ ∃ t, exec (sendInstr .kop 0xC35A81 5) (withDec .kop (waiting 0)) = .next t :=
  ⟨by decide, ⟨by decide, by decide, by decide, by decide, by decide, by decide, by decide, by decide, by decide, by decide⟩,
    _, rfl⟩

end Sys2Proof.Tests
end

namespace Sys2Proof.Machine

/-! ### The descriptors and the constraints of 00_scope.md R12 -/

/-- Each column of 00_scope.md R11 is checked against R12 with its own frame length; WT4 is the one whose sync window is its
SHORT window, in the other four the sync window lies above both data windows. -/
theorem meetsR12_desc (p : Proto) : meetsR12 (desc p) (Config.total p) = true := by
  cases p <;> decide

@[simp] theorem desc_pid (p : Proto) : (desc p).pid = pidOf p := by cases p <;> rfl

/-- The frame lengths of 30_encoding.md R87, in the order of the ids. -/
theorem map_total_all : Proto.all.map Config.total = [32, 32, 30, 24, 36] := rfl

/-- Settles O8, from the constraints and the id of each descriptor and the list of the frame lengths. -/
theorem parametersMeetTheirConstraints : Obligations.ParametersMeetTheirConstraints :=
  ⟨fun p => ⟨meetsR12_desc p, desc_pid p⟩, map_total_all⟩

end Sys2Proof.Machine

namespace Sys2Proof.Machine

variable {W : Nat}

/-! ### What the operations leave as it was -/

@[simp] theorem State.edge_resStb (s : State) (p : Proto) (ts : Timestamp) : (s.edge p ts).resStb = s.resStb := by
  simp [State.edge]
@[simp] theorem State.edge_res (s : State) (p : Proto) (ts : Timestamp) : (s.edge p ts).res = s.res := by simp [State.edge]
@[simp] theorem State.edge_freeIx (s : State) (p : Proto) (ts : Timestamp) : (s.edge p ts).freeIx = s.freeIx := by
  simp [State.edge]

@[simp] theorem State.signal_msgStb_ne (s : State) {p q : Proto} (e : Option (DecEvent (Config.total p))) (h : q ≠ p) :
    (s.signal p e).msgStb.get q = s.msgStb.get q := by
  cases e with
  | none => rfl
  | some e => cases e <;> simp [State.signal, h]

@[simp] theorem State.edge_msgStb_ne (s : State) {p q : Proto} (ts : Timestamp) (h : q ≠ p) :
    (s.edge p ts).msgStb.get q = s.msgStb.get q := by simp [State.edge, h]

/-- An EDGE puts out at most one thing (60_exceptions.md R268). -/
theorem State.edge_obs (s : State) (p : Proto) (ts : Timestamp) : ∃ o : Option Obs, (s.edge p ts).obs = s.obs ++ o.toList := by
  rw [State.edge, State.signal_obs, State.setDec_obs]
  rcases ((s.dec p).edge (desc p) ts).2 with _ | ⟨w⟩ | ⟨w⟩ | ⟨l⟩
  · exact ⟨none, rfl⟩
  · exact ⟨some (.callback p (w.setWidth 36)), rfl⟩
  · exact ⟨some (.drop p (w.setWidth 36)), rfl⟩
  · exact ⟨some (.error p l), rfl⟩

@[simp] theorem State.poll_dec (s : State) (p q : Proto) : (s.poll p).dec q = s.dec q := by simp [State.poll]

/-- What the start of an ISRECV can do: an answer at once, or a pending ISRECV (45_control_ops.md R216). -/
theorem State.isrecvStart_cases (s : State) (p : Proto) (timeoutMs : BitVec 16) :
    s.isrecvStart p timeoutMs = s.answer true
    ∨ s.isrecvStart p timeoutMs = { s with isrecv := some { p := p, ticksLeft := timeoutMs } } := by
  unfold State.isrecvStart
  split
  · exact .inl rfl
  · exact .inr rfl

@[simp] theorem State.isrecvStart_dec (s : State) (p q : Proto) (timeoutMs : BitVec 16) :
    (s.isrecvStart p timeoutMs).dec q = s.dec q := by
  rcases s.isrecvStart_cases p timeoutMs with h | h <;> rw [h]
  · exact State.answer_dec _ _ _
  · cases q <;> rfl

@[simp] theorem State.isrecvStart_enc (s : State) (p : Proto) (timeoutMs : BitVec 16) :
    (s.isrecvStart p timeoutMs).enc = s.enc := by
  rcases s.isrecvStart_cases p timeoutMs with h | h <;> rw [h]; rfl

@[simp] theorem State.isrecvStart_params (s : State) (p : Proto) (timeoutMs : BitVec 16) :
    (s.isrecvStart p timeoutMs).params = s.params := by
  rcases s.isrecvStart_cases p timeoutMs with h | h <;> rw [h]; rfl

/-! ### A list of pulses reaches one decoder -/

/-- A property that every EDGE of decoder `p` and every POLL of a pending ISRECV keeps is kept by pulses on the wire of `p`. -/
theorem State.pulses_induction {P : State → Prop} {p : Proto} (edge : ∀ s ts, P s → P (s.edge p ts))
    (poll : ∀ s, P s → P s.isrecvPoll) (ds : List Nat) (s : State) (h : P s) : P (s.pulses p ds) := by
  induction ds generalizing s with
  | nil => exact h
  | cons d ds ih => exact ih _ (poll _ (edge _ _ h))

theorem State.pulses_dec_ne (s : State) {p q : Proto} (ds : List Nat) (h : q ≠ p) : (s.pulses p ds).dec q = s.dec q :=
  State.pulses_induction (P := fun t => t.dec q = s.dec q) (fun t ts ht => by rw [State.edge_dec_ne t ts h, ht])
    (fun t ht => by rw [State.isrecvPoll_dec, ht]) ds s rfl

theorem State.pulses_enc (s : State) (p : Proto) (ds : List Nat) : (s.pulses p ds).enc = s.enc :=
  State.pulses_induction (P := fun t => t.enc = s.enc) (fun t ts ht => by rw [State.edge_enc, ht])
    (fun t ht => by rw [State.isrecvPoll_enc, ht]) ds s rfl

theorem State.pulses_params (s : State) (p : Proto) (ds : List Nat) : (s.pulses p ds).params = s.params :=
  State.pulses_induction (P := fun t => t.params = s.params) (fun t ts ht => by rw [State.edge_params, ht])
    (fun t ht => by rw [State.isrecvPoll_params, ht]) ds s rfl

/-- Decoder `p` under pulses on its wire is the run of that decoder alone. -/
theorem State.pulses_dec_same (s : State) (p : Proto) (ds : List Nat) :
    (s.pulses p ds).dec p = (Dec.pulseRun id (desc p) (s.dec p) ds).1 := by
  induction ds generalizing s with
  | nil => rfl
  | cons d ds ih => rw [State.pulses_cons, ih]; simp [State.pulse, Dec.pulseRun]

/-! ### The encoder's operations as functions of the encoder record -/

/-- SEND and TXSTEP read no more of the machine than the encoder and the open parameters (46_encoder.md R233, R237). -/
theorem State.send_enc_congr {s s' : State} (hp : s.params = s'.params) (he : s.enc = s'.enc) (p : Proto)
    (w : BitVec (Config.total p)) (n : BitVec 8) : (s.send p w n).enc = (s'.send p w n).enc := by
  by_cases h : txPresent s.params p = false ∨ s.enc.busy = true ∨ n = 0
  · rw [State.send_of_ignore h, State.send_of_ignore (by rwa [hp, he] at h), he]
  · obtain ⟨htx, hb, hn⟩ : txPresent s.params p = true ∧ s.enc.busy = false ∧ n ≠ 0 := by simpa using h
    rw [State.send_of_accept htx hb hn, State.send_of_accept (hp ▸ htx) (he ▸ hb) hn, he]

theorem State.txstep_enc_congr {s s' : State} (hp : s.params = s'.params) (he : s.enc = s'.enc) :
    s.txstep.enc = s'.txstep.enc := by
  cases hb : s.enc.busy with
  | false => rw [State.txstep_of_idle hb, State.txstep_of_idle (he ▸ hb), he]
  | true =>
    cases hq : s.enc.queue with
    | nil => rw [State.txstep_of_end hb hq, State.txstep_of_end (he ▸ hb) (he ▸ hq)]; simp [State.txEnd, he]
    | cons d rest =>
      rw [State.txstep_of_segment hb hq, State.txstep_of_segment (he ▸ hb) (he ▸ hq)]
      simp [State.txSegment, he, hp]

/-! ### The part that each family of operations names -/

@[simp] theorem partOf_edgeInstr (p : Proto) (ts : Timestamp) : partOf (edgeInstr p ts) = .decoder p := by cases p <;> rfl
@[simp] theorem partOf_enableInstr (p : Proto) : partOf (enableInstr p) = .decoder p := by cases p <;> rfl
@[simp] theorem partOf_disableInstr (p : Proto) : partOf (disableInstr p) = .decoder p := by cases p <;> rfl
@[simp] theorem partOf_initInstr (p : Proto) (m q : BitVec 8) : partOf (initInstr p m q) = .decoder p := by cases p <;> rfl
@[simp] theorem partOf_pollInstr (p : Proto) : partOf (pollInstr p) = .decoder p := by cases p <;> rfl
@[simp] theorem partOf_isrecvInstr (p : Proto) (t : BitVec 16) : partOf (isrecvInstr p t) = .decoder p := by cases p <;> rfl
@[simp] theorem partOf_cbretInstr (p : Proto) : partOf (cbretInstr p) = .decoder p := by cases p <;> rfl
@[simp] theorem partOf_sendInstr (p : Proto) (a : ArgA) (n : BitVec 8) : partOf (sendInstr p a n) = .encoder := by
  cases p <;> rfl
@[simp] theorem partOf_frameInstr (p : Proto) (w : BitVec (Config.total p)) : partOf (frameInstr p w) = .decoder p := by
  cases p <;> rfl
@[simp] theorem partOf_txstep : partOf .txstep = .encoder := rfl
@[simp] theorem partOf_reset : partOf .reset = .everything := rfl

/-! ### An operation on a decoder is a function of that decoder's record -/

/-- What an operation that names decoder `p` can do to its record (POLL and ISRECV read it alone). -/
inductive DecEffect (p : Proto) : (Dec (Config.total p) → Dec (Config.total p)) → Prop
  | keep : DecEffect p id
  | edge (ts : Timestamp) : DecEffect p fun d => (d.edge (desc p) ts).1
  | enable : DecEffect p Dec.enable
  | disable : DecEffect p Dec.disable
  | init (minrep irq : BitVec 8) : DecEffect p fun d => d.init minrep irq
  | cbret : DecEffect p Dec.cbret
  | pulses (ds : List Nat) : DecEffect p fun d => (Dec.pulseRun id (desc p) d ds).1

/-- From `s` to `t` the record of decoder `p` changed by `f`, and no other decoder, nothing of the encoder and no open parameter
(10_state.md R21). -/
structure ActsOnDec (p : Proto) (f : Dec (Config.total p) → Dec (Config.total p)) (s t : State) : Prop where
  dec_same : t.dec p = f (s.dec p)
  dec_ne : ∀ q, q ≠ p → t.dec q = s.dec q
  enc : t.enc = s.enc
  params : t.params = s.params

theorem actsOnDec_setDec (p : Proto) (f : Dec (Config.total p) → Dec (Config.total p)) (s : State) :
    ActsOnDec p f s (s.setDec p (f (s.dec p))) :=
  ⟨s.dec_setDec_same p _, fun _ h => s.dec_setDec_ne _ h, s.setDec_enc p _, s.setDec_params p _⟩

/-- An operation that names decoder `p` has one effect on its record, the same in every state. -/
theorem exec_of_decoder {i : Instr} {p : Proto} (hi : partOf i = .decoder p) :
    ∃ f, DecEffect p f ∧ ∀ s, ∃ t, exec i s = .next t ∧ ActsOnDec p f s t := by
  induction i using Instr.family_cases with
  | edge q ts =>
    obtain rfl : q = p := by simpa using hi
    exact ⟨_, .edge ts, fun s => ⟨_, exec_edgeInstr q ts s,
      ⟨s.edge_dec_same q ts, fun _ h => s.edge_dec_ne ts h, s.edge_enc q ts, s.edge_params q ts⟩⟩⟩
  | enable q =>
    obtain rfl : q = p := by simpa using hi
    exact ⟨_, .enable, fun s => ⟨_, exec_enableInstr q s, actsOnDec_setDec q _ s⟩⟩
  | disable q =>
    obtain rfl : q = p := by simpa using hi
    exact ⟨_, .disable, fun s => ⟨_, exec_disableInstr q s, actsOnDec_setDec q _ s⟩⟩
  | init q m irq =>
    obtain rfl : q = p := by simpa using hi
    exact ⟨_, .init m irq, fun s => ⟨_, exec_initInstr q m irq s, actsOnDec_setDec q (fun d => d.init m irq) s⟩⟩
  | poll q =>
    obtain rfl : q = p := by simpa using hi
    exact ⟨_, .keep, fun s => ⟨_, exec_pollInstr q s, ⟨s.poll_dec q q, fun r _ => s.poll_dec q r, rfl, rfl⟩⟩⟩
  | isrecv q n =>
    obtain rfl : q = p := by simpa using hi
    exact ⟨_, .keep, fun s => ⟨_, exec_isrecvInstr q n s, ⟨s.isrecvStart_dec q q n, fun r _ => s.isrecvStart_dec q r n,
      s.isrecvStart_enc q n, s.isrecvStart_params q n⟩⟩⟩
  | cbret q =>
    obtain rfl : q = p := by simpa using hi
    exact ⟨_, .cbret, fun s => ⟨_, exec_cbretInstr q s, actsOnDec_setDec q _ s⟩⟩
  | frame q w =>
    obtain rfl : q = p := by simpa using hi
    exact ⟨_, .pulses (frameSegs (desc q) w), fun s => ⟨_, exec_frameInstr q w s,
      ⟨s.pulses_dec_same q _, fun _ h => s.pulses_dec_ne _ h, s.pulses_enc q _, s.pulses_params q _⟩⟩⟩
  | send q a n => simp at hi
  | reset => simp at hi
  | txstep => simp at hi

/-- The operations that name the encoder are SEND and TXSTEP. -/
theorem encoder_instr_cases {i : Instr} (hi : partOf i = .encoder) : (∃ p a n, i = sendInstr p a n) ∨ i = .txstep := by
  induction i using Instr.family_cases with
  | send p a n => exact .inl ⟨p, a, n, rfl⟩
  | txstep => exact .inr rfl
  | _ => simp at hi

theorem everything_instr {i : Instr} (hi : partOf i = .everything) : i = .reset := by
  induction i using Instr.family_cases with
  | reset => rfl
  | _ => simp at hi

/-- Settles O46: an operation on a decoder acts on its record alone, and SEND and TXSTEP write no decoder. -/
theorem operationsTouchOnlyTheirPart : Obligations.OperationsTouchOnlyTheirPart := by
  intro i s t h
  constructor
  · intro p hp
    obtain ⟨f, -, hf⟩ := exec_of_decoder hp
    obtain ⟨u, hu, hact⟩ := hf s
    obtain rfl : t = u := by simpa [h] using hu
    exact ⟨hact.enc, hact.dec_ne⟩
  · intro hi q
    rcases encoder_instr_cases hi with ⟨p, a, n, rfl⟩ | rfl
    · obtain rfl : s.send p (sendWord p a) n = t := by simpa using h
      exact s.send_dec p _ n q
    · obtain rfl : s.txstep = t := by simpa using h
      exact s.txstep_dec q

/-- Settles O47: the effect of an operation on a decoder is the same function in both states, and SEND and TXSTEP read the encoder and
the open parameters alone. -/
theorem operationsReadOnlyTheirPart : Obligations.OperationsReadOnlyTheirPart := by
  intro i s s' t t' h h'
  constructor
  · intro p hp heq
    obtain ⟨f, -, hf⟩ := exec_of_decoder hp
    obtain ⟨u, hu, hact⟩ := hf s
    obtain ⟨u', hu', hact'⟩ := hf s'
    obtain rfl : t = u := by simpa [h] using hu
    obtain rfl : t' = u' := by simpa [h'] using hu'
    rw [hact.dec_same, hact'.dec_same, heq]
  · intro hi hp he
    rcases encoder_instr_cases hi with ⟨p, a, n, rfl⟩ | rfl
    · obtain rfl : s.send p (sendWord p a) n = t := by simpa using h
      obtain rfl : s'.send p (sendWord p a) n = t' := by simpa using h'
      exact State.send_enc_congr hp he p _ n
    · obtain rfl : s.txstep = t := by simpa using h
      obtain rfl : s'.txstep = t' := by simpa using h'
      exact State.txstep_enc_congr hp he

/-! ### One decoder's EDGE: configuration, callback and progress -/

/-- The filter and the dispatcher keep the configuration, and a callback in progress with its message; a callback in progress
lets no other begin (44_dispatcher.md R201, R202). -/
theorem Dec.repeatFilter_keeps (d : Dec W) (w : BitVec W) :
    (d.repeatFilter w).1.en = d.en ∧ (d.repeatFilter w).1.minrep = d.minrep ∧ (d.repeatFilter w).1.irq = d.irq
    ∧ (d.inCb = true → (d.repeatFilter w).1.inCb = true ∧ (d.repeatFilter w).1.msg = d.msg
      ∧ ∀ v, (d.repeatFilter w).2 ≠ some (.callback v)) := by
  rcases Dec.repeatFilter_cases d w with ⟨_, h⟩ | ⟨_, hc, h⟩ | ⟨_, hc, h⟩ <;> rw [h] <;> simp [*]

/-- An EDGE keeps the configuration, and a callback in progress with its message, during which it calls back no other time. -/
theorem Dec.edge_keeps (C : Desc) (ts : Timestamp) (d : Dec W) :
    (d.edge C ts).1.en = d.en ∧ (d.edge C ts).1.minrep = d.minrep ∧ (d.edge C ts).1.irq = d.irq
    ∧ (d.inCb = true → (d.edge C ts).1.inCb = true ∧ (d.edge C ts).1.msg = d.msg
      ∧ ∀ v, (d.edge C ts).2 ≠ some (.callback v)) := by
  have hc := Dec.edge_cases C ts d
  generalize d.edge C ts = r at hc ⊢
  cases hc with
  | complete b => exact Dec.repeatFilter_keeps _ _
  | _ => simp

/-- Settles O20, from what an EDGE writes in its own decoder and what it leaves in the rest of the machine. -/
theorem edgeFrame : Obligations.EdgeFrame := by
  intro p s ts
  obtain ⟨o, ho⟩ := s.edge_obs p ts
  obtain ⟨hen, hmin, hirq, hcb⟩ := Dec.edge_keeps (desc p) ts (s.dec p)
  refine ⟨s.edge p ts, o, exec_edgeInstr p ts s, ho, fun q hq => ⟨s.edge_dec_ne ts hq, s.edge_msgStb_ne ts hq⟩, ?_⟩
  simp only [State.edge_dec_same]
  exact ⟨hen, hmin, hirq, fun h => (hcb h).1, by simp⟩

/-! ### A callback in progress -/

theorem Dec.cbret_msg (d : Dec W) : d.cbret.msg = d.msg := by
  unfold Dec.cbret
  split <;> rfl

/-- From `s` to `t` the message of decoder `p` is the same and nothing called it back. -/
structure MessageStable (p : Proto) (s t : State) : Prop where
  msg : (t.dec p).msg = (s.dec p).msg
  callbacks : callbacksOf p t.obs = callbacksOf p s.obs

theorem callbacksOf_append (p : Proto) (xs ys : List Obs) : callbacksOf p (xs ++ ys) = callbacksOf p xs ++ callbacksOf p ys :=
  List.filter_append ..

/-- An event of decoder `q` calls decoder `p` back only if it is a CALLBACK and `q` is `p`. -/
theorem State.signal_callbacksOf (s : State) {p q : Proto} {e : Option (DecEvent (Config.total q))}
    (h : p ≠ q ∨ ∀ w, e ≠ some (.callback w)) : callbacksOf p (s.signal q e).obs = callbacksOf p s.obs := by
  rw [State.signal_obs, callbacksOf_append]
  rcases e with _ | ⟨w⟩ | ⟨w⟩ | ⟨l⟩
  · simp [callbacksOf]
  · have : q ≠ p := by simpa [eq_comm] using h
    simp [callbacksOf, this]
  · simp [callbacksOf]
  · simp [callbacksOf]

/-- An EDGE of any decoder leaves the callback of `p` in progress, with its message (44_dispatcher.md R202). -/
theorem State.edge_messageStable {s : State} {p : Proto} (h : (s.dec p).inCb = true) (q : Proto) (ts : Timestamp) :
    ((s.edge q ts).dec p).inCb = true ∧ MessageStable p s (s.edge q ts) := by
  by_cases hq : p = q
  · subst hq
    obtain ⟨-, -, -, hcb⟩ := Dec.edge_keeps (desc p) ts (s.dec p)
    obtain ⟨hin, hmsg, hev⟩ := hcb h
    rw [← State.edge_dec_same] at hin hmsg
    exact ⟨hin, hmsg, by rw [State.edge, State.signal_callbacksOf _ (.inr hev), State.setDec_obs]⟩
  · have hdec := s.edge_dec_ne ts hq
    exact ⟨by rw [hdec, h], by rw [hdec], by rw [State.edge, State.signal_callbacksOf _ (.inl hq), State.setDec_obs]⟩

theorem State.answer_callbacksOf (s : State) (b : Bool) (p : Proto) :
    callbacksOf p (s.answer b).obs = callbacksOf p s.obs := by simp [callbacksOf]

theorem State.isrecvPoll_callbacksOf (s : State) (p : Proto) : callbacksOf p s.isrecvPoll.obs = callbacksOf p s.obs := by
  rcases s.isrecvPoll_cases with ⟨_, h⟩ | ⟨r, _, _, h⟩ <;> rw [h]
  exact State.answer_callbacksOf _ true p

theorem State.isrecvStart_callbacksOf (s : State) (q : Proto) (n : BitVec 16) (p : Proto) :
    callbacksOf p (s.isrecvStart q n).obs = callbacksOf p s.obs := by
  rcases s.isrecvStart_cases q n with h | h <;> rw [h]
  exact s.answer_callbacksOf true p

theorem State.send_obs (s : State) (q : Proto) (w : BitVec (Config.total q)) (n : BitVec 8) : (s.send q w n).obs = s.obs := by
  unfold State.send
  repeat' split
  all_goals rfl

theorem State.txstep_callbacksOf (s : State) (p : Proto) : callbacksOf p s.txstep.obs = callbacksOf p s.obs := by
  unfold State.txstep
  split
  · split
    · simp [State.txSegment, callbacksOf]
    · rfl
  · rfl

theorem State.pulses_messageStable {s : State} {p : Proto} (h : (s.dec p).inCb = true) (q : Proto) (ds : List Nat) :
    MessageStable p s (s.pulses q ds) := by
  refine (State.pulses_induction (P := fun t => (t.dec p).inCb = true ∧ MessageStable p s t) ?_ ?_ ds s ⟨h, rfl, rfl⟩).2
  · intro t ts ⟨hin, hmsg, hcb⟩
    obtain ⟨hin', hmsg', hcb'⟩ := State.edge_messageStable hin q ts
    exact ⟨hin', hmsg'.trans hmsg, hcb'.trans hcb⟩
  · intro t ⟨hin, hmsg, hcb⟩
    exact ⟨by rw [State.isrecvPoll_dec, hin], by rw [State.isrecvPoll_dec, hmsg], by rw [t.isrecvPoll_callbacksOf, hcb]⟩

/-- A write to a decoder's record that leaves `msg`, with nothing put out. -/
theorem messageStable_setDec (s : State) (p q : Proto) {d : Dec (Config.total q)} (h : d.msg = (s.dec q).msg) :
    MessageStable p s (s.setDec q d) := by
  refine ⟨?_, by rw [State.setDec_obs]⟩
  by_cases hq : p = q
  · subst hq; rw [State.dec_setDec_same, h]
  · rw [State.dec_setDec_ne s d hq]

/-- Settles O28: EDGE and FRAME drop what completes during the callback, and no other operation but RESET writes `msg` or calls back. -/
theorem messageIsStableDuringItsCallback : Obligations.MessageIsStableDuringItsCallback := by
  intro i s t p hr hin h
  suffices hs : MessageStable p s t from ⟨hs.msg, hs.callbacks⟩
  induction i using Instr.family_cases with
  | edge q ts =>
    obtain rfl : s.edge q ts = t := by simpa using h
    exact (State.edge_messageStable hin q ts).2
  | enable q =>
    obtain rfl : s.enable q = t := by simpa using h
    exact messageStable_setDec s p q (Dec.enable_msg _)
  | disable q =>
    obtain rfl : s.disable q = t := by simpa using h
    exact messageStable_setDec s p q (Dec.disable_msg _)
  | init q m irq =>
    obtain rfl : s.initDec q m irq = t := by simpa using h
    exact messageStable_setDec s p q (Dec.init_msg _ m irq)
  | poll q =>
    obtain rfl : s.poll q = t := by simpa using h
    exact ⟨by rw [State.poll_dec], s.answer_callbacksOf _ p⟩
  | isrecv q n =>
    obtain rfl : s.isrecvStart q n = t := by simpa using h
    exact ⟨by rw [State.isrecvStart_dec], s.isrecvStart_callbacksOf q n p⟩
  | cbret q =>
    obtain rfl : s.cbret q = t := by simpa using h
    exact messageStable_setDec s p q (Dec.cbret_msg _)
  | send q a n =>
    obtain rfl : s.send q (sendWord q a) n = t := by simpa using h
    exact ⟨by rw [State.send_dec], by rw [State.send_obs]⟩
  | reset => exact absurd rfl hr
  | txstep =>
    obtain rfl : s.txstep = t := by simpa using h
    exact ⟨by rw [State.txstep_dec], s.txstep_callbacksOf p⟩
  | frame q w =>
    obtain rfl : s.frame q w = t := by simpa using h
    exact State.pulses_messageStable hin q _

/-! ### The decoder's invariant -/

theorem Config.total_pos (p : Proto) : 0 < Config.total p := by cases p <;> decide

/-- The index of the next bit fits the six bits of `k`. -/
theorem nextIndex_toNat {p : Proto} {n : Nat} (h : n < Config.total p) : (BitVec.ofNat 6 (n + 1)).toNat = n + 1 := by
  rw [BitVec.toNat_ofNat, Nat.mod_eq_of_lt]
  have := Config.total_le p
  omega

/-- A first pulse comes in phase 0, and outside PP it is SHORT (41_decoder_step.md R146 to R148). -/
theorem symStep_more {C : Desc} {ph first f : Bool} {c : PulseClass} (h : symStep C ph first c = .more f) :
    ph = false ∧ (C.kind ≠ .pp → f = false) := by
  cases hk : C.kind with
  | pw2 =>
    simp only [symStep, hk, symStepPw2] at h
    split at h <;> simp_all
  | pp =>
    simp only [symStep, hk, symStepPp] at h
    split at h <;> simp_all
  | var =>
    simp only [symStep, hk, symStepVar] at h
    split at h <;> simp_all

theorem desc_hasConst_iff (p : Proto) : (desc p).hasConst = true ↔ p = .wt4 := by cases p <;> decide

theorem desc_rearm_iff (p : Proto) : (desc p).rearm = true ↔ p = .wt4 := by cases p <;> decide

/-- The three bits of a candidate above its lowest `n`, as a number. -/
theorem constField_iff (c : BitVec W) (n : Nat) : (c >>> n).extractLsb' 0 3 = 0b110#3 ↔ c.toNat / 2 ^ n % 8 = 6 := by
  rw [← BitVec.toNat_inj, BitVec.extractLsb'_toNat, BitVec.toNat_ushiftRight]
  simp [Nat.shiftRight_eq_div_pow]

/-- A decoder between two bits with nothing received keeps the invariant: after RESET, a sync, an error or a completion. -/
theorem Dec.inv_of_cleared {C : Desc} {d : Dec W} (hW : 0 < W) (hk : d.k = 0) (hph : d.ph = false) (hf : d.first = false)
    (hc : d.cand = 0) (hx : d.px = false) (hrep : d.rep.toNat < max d.minrep.toNat 1) : Dec.Inv C d := by
  refine ⟨fun _ => ⟨hk, hph, hf, hc, hx⟩, fun _ => hf, fun _ => hf, by simpa [hk], by simp [hc], ?_, hrep, fun _ h9 => ?_⟩
  · rw [hc, hx, xorOfAllBits_zero]
  · simp [hk] at h9

theorem Dec.atReset_inv (p : Proto) : Dec.Inv (desc p) (State.reset.dec p) := by
  cases p <;> exact Dec.inv_of_cleared (by decide) rfl rfl rfl rfl rfl (by decide)

/-- The repeat filter keeps `rep` below the minimum and leaves the bit in progress alone (43_repeat_filter.md R191). -/
theorem Dec.repeatFilter_inv {C : Desc} {d : Dec W} (hW : 0 < W) (hk : d.k = 0) (hph : d.ph = false) (hf : d.first = false)
    (hc : d.cand = 0) (hx : d.px = false) (w : BitVec W) : Dec.Inv C (d.repeatFilter w).1 := by
  rcases Dec.repeatFilter_cases d w with ⟨hlt, h⟩ | ⟨-, -, h⟩ | ⟨-, -, h⟩ <;> rw [h]
  · refine Dec.inv_of_cleared hW hk hph hf hc hx ?_
    calc (BitVec.ofNat 8 (d.nextRep w)).toNat ≤ d.nextRep w := by rw [BitVec.toNat_ofNat]; exact Nat.mod_le _ _
      _ < d.minrep.toNat := hlt
      _ ≤ max d.minrep.toNat 1 := le_max_left _ _
  · exact Dec.inv_of_cleared hW hk hph hf hc hx (by simp)
  · exact Dec.inv_of_cleared hW hk hph hf hc hx (by simp)

/-- With the constant in place, or just completed, one more bit leaves it there (41_decoder_step.md R149, R150). -/
theorem const_shifted {c k b : Nat} (hb : b ≤ 1) (h9 : 9 ≤ k + 1) (hnow : k + 1 = 9 → (2 * c + b) % 8 = 6)
    (hbefore : 9 ≤ k → c / 2 ^ (k - 9) % 8 = 6) : (2 * c + b) / 2 ^ (k + 1 - 9) % 8 = 6 := by
  by_cases hk : k + 1 = 9
  · simpa [hk] using hnow hk
  · rw [show k + 1 - 9 = k - 9 + 1 by omega, Nat.pow_succ', ← Nat.div_div_eq_div_mul, show (2 * c + b) / 2 = c by omega]
    exact hbefore (by omega)

/-- Shifting in a bit that is not the last one (41_decoder_step.md R149). -/
theorem Dec.shift_inv {p : Proto} {d : Dec (Config.total p)} (h : Dec.Inv (desc p) d) (hi : d.insync = true) (ts : Timestamp)
    {b : Bool} (hs : structuralOk (desc p) (d.k.toNat + 1) (nextCand d.cand b) = true) (hl : d.k.toNat + 1 ≠ Config.total p) :
    Dec.Inv (desc p) { d with
      lastTs := ts, ph := false, first := false, cand := nextCand d.cand b, px := nextParity d.px b
      k := BitVec.ofNat 6 (d.k.toNat + 1) } := by
  obtain ⟨-, -, -, hk, hcand, hpx, hrep, hconst⟩ := h
  have hb := Bool.toNat_le b
  have hk' := nextIndex_toNat hk
  have hroom : 2 * d.cand.toNat + b.toNat < 2 ^ (d.k.toNat + 1) := by rw [Nat.pow_succ]; omega
  have hfits : 2 * d.cand.toNat + b.toNat < 2 ^ Config.total p :=
    lt_of_lt_of_le hroom (Nat.pow_le_pow_right (by decide) (by omega))
  have hcand' : (nextCand d.cand b).toNat = 2 * d.cand.toNat + b.toNat := by rw [nextCand_toNat, Nat.mod_eq_of_lt hfits]
  refine ⟨fun hi' => absurd hi (by simpa using hi'), fun _ => rfl, fun _ => rfl, ?_, ?_, ?_, hrep, fun hC h9 => ?_⟩
  · rw [hk']; omega
  · rw [hk', hcand']; exact hroom
  · rw [xorOfAllBits_nextCand _ _ hfits, ← hpx]; rfl
  · rw [constField_iff, hk', hcand']
    rw [hk'] at h9
    refine const_shifted hb h9 ((structuralOk_iff p _ _ _).1 hs ((desc_hasConst_iff p).1 hC)) fun hk9 => ?_
    exact (constField_iff _ _).1 (hconst hC hk9)

/-- An EDGE keeps the invariant of its decoder (10_state.md R27). -/
theorem Dec.edge_inv {p : Proto} {d : Dec (Config.total p)} (h : Dec.Inv (desc p) d) (ts : Timestamp) :
    Dec.Inv (desc p) (d.edge (desc p) ts).1 := by
  obtain ⟨hwait, -, -, hk, hcand, hpx, hrep, hconst⟩ := id h
  have hc := Dec.edge_cases (desc p) ts d
  generalize d.edge (desc p) ts = r at hc ⊢
  cases hc with
  | disabled => exact h
  | ignored => exact h
  | sync => exact Dec.inv_of_cleared (Config.total_pos p) rfl rfl rfl rfl rfl hrep
  | illegal => exact Dec.inv_of_cleared (Config.total_pos p) rfl rfl rfl rfl rfl hrep
  | first f _ hi hsym =>
    exact ⟨fun hi' => absurd hi (by simpa using hi'), fun hph => absurd hph (by simp), (symStep_more hsym).2, hk, hcand, hpx,
      hrep, hconst⟩
  | mismatch => exact Dec.inv_of_cleared (Config.total_pos p) rfl rfl rfl rfl rfl hrep
  | shift b _ hi _ hs hl => exact Dec.shift_inv h hi ts hs hl
  | parity => exact Dec.inv_of_cleared (Config.total_pos p) rfl rfl rfl rfl rfl hrep
  | complete => exact Dec.repeatFilter_inv (Config.total_pos p) rfl rfl rfl rfl rfl _

theorem Dec.pulseRun_inv {p : Proto} (ds : List Nat) {d : Dec (Config.total p)} (h : Dec.Inv (desc p) d) :
    Dec.Inv (desc p) (Dec.pulseRun id (desc p) d ds).1 := by
  induction ds generalizing d with
  | nil => exact h
  | cons x ds ih => exact ih (Dec.edge_inv h _)

theorem Dec.cbret_inv {p : Proto} {d : Dec (Config.total p)} (h : Dec.Inv (desc p) d) : Dec.Inv (desc p) d.cbret := by
  obtain ⟨-, -, -, -, -, -, hrep, -⟩ := id h
  unfold Dec.cbret
  split
  · exact Dec.inv_of_cleared (Config.total_pos p) rfl rfl rfl rfl rfl hrep
  · exact h

/-- Every operation on a decoder keeps its invariant. -/
theorem DecEffect.inv {p : Proto} {f : Dec (Config.total p) → Dec (Config.total p)} (hf : DecEffect p f)
    {d : Dec (Config.total p)} (h : Dec.Inv (desc p) d) : Dec.Inv (desc p) (f d) := by
  obtain ⟨-, -, -, -, -, -, hrep, -⟩ := id h
  cases hf with
  | keep => exact h
  | edge ts => exact Dec.edge_inv h ts
  | enable => exact Dec.inv_of_cleared (Config.total_pos p) rfl rfl rfl rfl rfl hrep
  | disable => exact h
  | init m irq => exact Dec.inv_of_cleared (Config.total_pos p) rfl rfl rfl rfl rfl (by simp)
  | cbret => exact Dec.cbret_inv h
  | pulses ds => exact Dec.pulseRun_inv ds h

/-! ### The state ordinal -/

theorem Dec.ord_of_waiting {d : Dec W} (h : d.insync = false) : d.ord = -1 := by simp [Dec.ord, h]

theorem Dec.ord_of_insync {d : Dec W} (h : d.insync = true) : d.ord = 2 * (d.k.toNat : Int) + d.ph.toNat := by
  simp [Dec.ord, h]

/-- A completed frame leaves WT4 in BIT_0 and every other decoder in WAITING_SYNC (41_decoder_step.md R151, R152). -/
theorem Dec.repeatFilter_ord {d : Dec W} (hk : d.k = 0) (hph : d.ph = false) (w : BitVec W) :
    (d.repeatFilter w).1.insync = d.insync ∧ (d.repeatFilter w).1.ord = if d.insync then 0 else -1 := by
  rw [Dec.repeatFilter_frame]
  exact ⟨rfl, by simp [Dec.ord, hk, hph]⟩

/-- Settles O22, from the cases of the EDGE step and what each does to `insync`, `k` and `ph` (10_state.md R26). -/
theorem progressCounterOnlyRisesOrResets : Obligations.ProgressCounterOnlyRisesOrResets := by
  intro p s t ts hinv h
  obtain rfl : s.edge p ts = t := by simpa using h
  rw [State.edge_dec_same]
  generalize s.dec p = d at hinv ⊢
  obtain ⟨-, -, -, hk, -⟩ := hinv
  have hc := Dec.edge_cases (desc p) ts d
  generalize d.edge (desc p) ts = r at hc ⊢
  cases hc with
  | disabled he => exact .inl ⟨rfl, .inl he⟩
  | ignored _ hi hn => exact .inl ⟨rfl, .inr ⟨hi, hn⟩⟩
  | sync _ hi => exact .inr (.inr (.inr (.inr ⟨by simp [Dec.ord], .inl hi⟩)))
  | illegal => exact .inr (.inr (.inr (.inl ⟨Dec.ord_of_waiting rfl, rfl⟩)))
  | mismatch => exact .inr (.inr (.inr (.inl ⟨Dec.ord_of_waiting rfl, rfl⟩)))
  | parity => exact .inr (.inr (.inr (.inl ⟨Dec.ord_of_waiting rfl, rfl⟩)))
  | first f _ hi hsym =>
    refine .inr (.inl ?_)
    rw [Dec.ord_of_insync (by exact hi), Dec.ord_of_insync hi, (symStep_more hsym).1]
    simp
  | shift b _ hi _ _ hl =>
    rw [Dec.ord_of_insync (by exact hi), Dec.ord_of_insync hi, nextIndex_toNat hk]
    cases d.ph
    · exact .inr (.inr (.inl (by simp; ring)))
    · exact .inr (.inl (by simp; ring))
  | complete b _ _ _ _ hl =>
    obtain ⟨hi', hord⟩ := Dec.repeatFilter_ord (d := { d with
      lastTs := ts, insync := (desc p).rearm, k := 0, ph := false, first := false, cand := 0, px := false }) rfl rfl
      (nextCand d.cand b)
    cases hr : (desc p).rearm with
    | false =>
      simp only [hr] at hi' hord ⊢
      exact .inr (.inr (.inr (.inl ⟨hord, hi'⟩)))
    | true =>
      obtain rfl := (desc_rearm_iff p).1 hr
      have : d.k.toNat + 1 = 32 := hl
      exact .inr (.inr (.inr (.inr ⟨hord, .inr ⟨rfl, by omega⟩⟩)))

/-! ### The encoder's invariant -/

theorem sym_bounds (p : Proto) (b : Bool) : ∀ d ∈ sym (desc p) b, 0 < d ∧ d < 2 ^ 13 := by
  cases p <;> cases b <;> decide

theorem syncNom_bounds (p : Proto) : 0 < (desc p).syncNom ∧ (desc p).syncNom < 2 ^ 13 := by cases p <;> decide

theorem shortNom_bounds (p : Proto) : 0 < (desc p).shortNom ∧ (desc p).shortNom < 2 ^ 13 := by cases p <;> decide

theorem burstFrame_bounds (p : Proto) (w : BitVec (Config.total p)) (f : Nat) :
    ∀ d ∈ burstFrame (desc p) w f, 0 < d ∧ d < 2 ^ 13 := by
  intro d hd
  rcases List.mem_append.1 hd with hsync | hbits
  · split at hsync
    · rw [List.mem_singleton.1 hsync]; exact syncNom_bounds p
    · exact absurd hsync List.not_mem_nil
  · obtain ⟨b, -, hb⟩ := List.mem_flatMap.1 hbits
    exact sym_bounds p b d hb

theorem burstBody_bounds (p : Proto) (w : BitVec (Config.total p)) (n : Nat) :
    ∀ d ∈ burstBody (desc p) w n, 0 < d ∧ d < 2 ^ 13 := by
  intro d hd
  obtain ⟨f, -, hf⟩ := List.mem_flatMap.1 hd
  exact burstFrame_bounds p w f d hf

/-- Every segment of a burst is a nominal duration of its protocol, which fits the 13 bits of 10_state.md R34. -/
theorem burst_bounds (p : Proto) (w : BitVec (Config.total p)) (n : Nat) :
    ∀ d ∈ burst (desc p) w n, 0 < d ∧ d < 2 ^ 13 := by
  unfold burst
  dsimp only
  split
  · intro d hd
    rcases List.mem_append.1 hd with hbody | hterm
    · exact burstBody_bounds p w n d hbody
    · rw [List.mem_singleton.1 hterm]; exact shortNom_bounds p
  · exact burstBody_bounds p w n

/-- A burst has an odd number of segments (46_encoder.md R236). -/
theorem burst_length_mod_two (C : Desc) (w : BitVec W) (n : Nat) : (burst C w n).length % 2 = 1 := by
  unfold burst
  dsimp only
  split
  · rw [List.length_append, List.length_singleton]; omega
  · omega

theorem Enc.atReset_inv (q : Params) : Enc.Inv q Enc.atReset :=
  ⟨fun _ => ⟨rfl, rfl, rfl⟩, fun h => absurd h (by decide), fun _ h => absurd h List.not_mem_nil⟩

/-- A SEND keeps the encoder's invariant: it loads an odd number of segments with every pin LOW. -/
theorem State.send_encInv {s : State} (h : Enc.Inv s.params s.enc) (p : Proto) (w : BitVec (Config.total p)) (n : BitVec 8) :
    Enc.Inv (s.send p w n).params (s.send p w n).enc := by
  by_cases hig : txPresent s.params p = false ∨ s.enc.busy = true ∨ n = 0
  · rw [State.send_of_ignore hig]; exact h
  · obtain ⟨htx, hb, hn⟩ : txPresent s.params p = true ∧ s.enc.busy = false ∧ n ≠ 0 := by simpa using hig
    obtain ⟨-, -, hlow⟩ := h.1 hb
    rw [State.send_of_accept htx hb hn]
    refine ⟨fun hb' => absurd hb' (by simp), fun _ => ⟨htx, ?_, fun q _ _ => ?_⟩, burst_bounds p w n.toNat⟩
    · simp [hlow, burst_length_mod_two]
    · simp [hlow]

/-- A TXSTEP keeps the encoder's invariant: a segment toggles the pin and the parity of the queue, and the last step finds the queue
empty and so the pin HIGH, the only one that is (46_encoder.md R237). -/
theorem State.txstep_encInv {s : State} (h : Enc.Inv s.params s.enc) : Enc.Inv s.txstep.params s.txstep.enc := by
  cases hb : s.enc.busy with
  | false => rw [State.txstep_of_idle hb]; exact h
  | true =>
    obtain ⟨-, hbusy, hseg⟩ := h
    obtain ⟨htx, hlevel, hothers⟩ := hbusy hb
    cases hq : s.enc.queue with
    | nil =>
      rw [State.txstep_of_end hb hq]
      refine ⟨fun _ => ⟨hq, rfl, PerProto.ext_get fun p => ?_⟩, fun hb' => absurd hb' (by simp [State.txEnd]), hseg⟩
      by_cases hp : p = s.enc.p
      · subst hp; simp [State.txEnd]
      · simp [State.txEnd, hp, hothers p (Proto.mem_all p) hp]
    | cons d rest =>
      rw [State.txstep_of_segment hb hq]
      refine ⟨fun hb' => absurd hb (by simpa [State.txSegment] using hb'), fun _ => ⟨htx, ?_, fun p hp hne => ?_⟩, fun x hx => ?_⟩
      · have hpar : decide ((rest.length + 1) % 2 = 0) = !decide (rest.length % 2 = 0) := by
          rw [← decide_not]; congr 1; simp only [eq_iff_iff]; omega
        simp [State.txSegment, hlevel, hq, hpar]
      · simp only [State.txSegment, State.emit_enc] at hne ⊢
        rw [PerProto.get_set_ne _ _ hne]
        exact hothers p hp hne
      · exact hseg x (hq ▸ List.mem_cons_of_mem d hx)

/-- The clock counts the down-counter, which stays 0 while the encoder is idle (46_encoder.md R244). -/
theorem Enc.tick_inv {q : Params} {e : Enc} (h : Enc.Inv q e) : Enc.Inv q { e with left := e.left - 1 } := by
  obtain ⟨hidle, hbusy, hseg⟩ := h
  refine ⟨fun hb => ?_, hbusy, hseg⟩
  obtain ⟨hq, hl, hlow⟩ := hidle hb
  exact ⟨hq, by simp [hl], hlow⟩

/-! ### The invariant of the machine under one operation -/

/-- The invariant but for the pending ISRECV. -/
structure PartsInv (s : State) : Prop where
  dec : ∀ p, Dec.Inv (desc p) (s.dec p)
  enc : Enc.Inv s.params s.enc

theorem inv_iff (s : State) : s.Inv ↔ PartsInv s ∧ s.Waiting := by
  constructor
  · rintro ⟨ha, hw, hl, hk, hq, he, hwait⟩
    refine ⟨⟨fun p => ?_, he⟩, hwait⟩
    cases p
    · exact ha
    · exact hw
    · exact hl
    · exact hk
    · exact hq
  · rintro ⟨⟨hd, he⟩, hwait⟩
    exact ⟨hd .aur, hd .wt4, hd .liv, hd .kop, hd .quh, he, hwait⟩

theorem PartsInv.congr {s t : State} (h : PartsInv s) (hd : ∀ p, t.dec p = s.dec p) (he : t.enc = s.enc)
    (hp : t.params = s.params) : PartsInv t :=
  ⟨fun p => hd p ▸ h.dec p, he ▸ hp ▸ h.enc⟩

theorem reset_partsInv : PartsInv State.reset := ⟨Dec.atReset_inv, Enc.atReset_inv _⟩

/-- Every operation keeps the invariants of the decoders and of the encoder: one on a decoder acts on its record alone. -/
theorem exec_partsInv {i : Instr} {s t : State} (hs : PartsInv s) (h : exec i s = .next t) : PartsInv t := by
  cases hi : partOf i with
  | decoder p =>
    obtain ⟨f, hf, hact⟩ := exec_of_decoder hi
    obtain ⟨u, hu, hdec⟩ := hact s
    obtain rfl : t = u := by simpa [h] using hu
    refine ⟨fun q => ?_, by rw [hdec.enc, hdec.params]; exact hs.enc⟩
    by_cases hq : q = p
    · subst hq; rw [hdec.dec_same]; exact hf.inv (hs.dec q)
    · rw [hdec.dec_ne q hq]; exact hs.dec q
  | encoder =>
    rcases encoder_instr_cases hi with ⟨p, a, n, rfl⟩ | rfl
    · obtain rfl : s.send p (sendWord p a) n = t := by simpa using h
      exact ⟨fun q => by rw [State.send_dec]; exact hs.dec q, State.send_encInv hs.enc p _ n⟩
    · obtain rfl : s.txstep = t := by simpa using h
      exact ⟨fun q => by rw [State.txstep_dec]; exact hs.dec q, State.txstep_encInv hs.enc⟩
  | everything =>
    obtain rfl := everything_instr hi
    obtain rfl : s.resetOp = t := by simpa using h
    exact ⟨fun q => by rw [State.resetOp_dec]; exact Dec.atReset_inv q, Enc.atReset_inv _⟩

/-! ### Everything a step can do -/

/-- The state in which a step acts: the operation presented first is taken, and the outputs of the step before are cleared. -/
def State.beginStep (s : State) : State := { s with todo := s.todo.tail, obs := [] }

@[simp] theorem State.beginStep_dec (s : State) (p : Proto) : s.beginStep.dec p = s.dec p := by cases p <;> rfl
@[simp] theorem State.beginStep_enc (s : State) : s.beginStep.enc = s.enc := rfl
@[simp] theorem State.beginStep_params (s : State) : s.beginStep.params = s.params := rfl
@[simp] theorem State.beginStep_isrecv (s : State) : s.beginStep.isrecv = s.isrecv := rfl
@[simp] theorem State.beginStep_obs (s : State) : s.beginStep.obs = [] := rfl

/-- The next states of a step: an operation with the POLL after it, one that is not taken, a millisecond tick, or the clock. -/
inductive StepCase (s : State) : State → Prop
  | op {word : OpWord} {i : Instr} {t : State} : s.todo.head? = some (.op word) → decode word = .ok i →
      s.beginStep.accepts i = true → exec i s.beginStep = .next t → StepCase s t.isrecvPoll
  | reserved {word : OpWord} {e : DecodeError} : s.todo.head? = some (.op word) → decode word = .error e →
      StepCase s s.beginStep
  | notTaken {word : OpWord} {i : Instr} : s.todo.head? = some (.op word) → decode word = .ok i →
      s.beginStep.accepts i = false → StepCase s s.beginStep
  | msTick : s.todo.head? = some .msTick → StepCase s s.beginStep.msTick
  | txstep : s.todo = [] → s.txDue = true → StepCase s s.beginStep.txstep.isrecvPoll
  | clock : s.todo = [] → s.txDue = false → StepCase s s.beginStep.clock

theorem State.runInstr_of_exec {s t : State} {i : Instr} (h : exec i s = .next t) : s.runInstr i = .next t.isrecvPoll := by
  simp [State.runInstr, h]

theorem step_cases {s t : State} (h : step s = .next t) : StepCase s t := by
  cases htodo : s.todo with
  | nil =>
    have hb : ({ s with todo := [], obs := [] } : State) = s.beginStep := by simp [State.beginStep, htodo]
    simp only [step, htodo, hb] at h
    cases hd : s.txDue with
    | true =>
      rw [if_pos hd, State.runInstr_of_exec (exec_txstep _)] at h
      cases h
      exact .txstep htodo hd
    | false =>
      rw [if_neg (by simp [hd])] at h
      cases h
      exact .clock htodo hd
  | cons x rest =>
    have hb : ({ s with todo := rest, obs := [] } : State) = s.beginStep := by simp [State.beginStep, htodo]
    have hhead : s.todo.head? = some x := by rw [htodo]; rfl
    simp only [step, htodo, hb] at h
    cases x with
    | msTick => cases h; exact .msTick hhead
    | op word =>
      simp only [State.runPending, State.runWord] at h
      cases hw : decode word with
      | error e => simp only [hw] at h; cases h; exact .reserved hhead hw
      | ok i =>
        simp only [hw] at h
        cases ha : s.beginStep.accepts i with
        | false => rw [if_neg (by simp [ha])] at h; cases h; exact .notTaken hhead hw ha
        | true =>
          obtain ⟨u, hu⟩ := exec_next i s.beginStep
          rw [if_pos ha, State.runInstr_of_exec hu] at h
          cases h
          exact .op hhead hw ha hu

/-! ### The invariant of the machine under one step -/

theorem PartsInv.isrecvPoll {s : State} (h : PartsInv s) : PartsInv s.isrecvPoll :=
  h.congr s.isrecvPoll_dec s.isrecvPoll_enc s.isrecvPoll_params

theorem PartsInv.beginStep {s : State} (h : PartsInv s) : PartsInv s.beginStep :=
  h.congr s.beginStep_dec s.beginStep_enc s.beginStep_params

@[simp] theorem State.msTick_dec (s : State) (p : Proto) : s.msTick.dec p = s.dec p := by
  rcases s.msTick_cases with ⟨_, h⟩ | ⟨r, _, _, h⟩ | ⟨r, _, _, h⟩ <;> rw [h] <;> cases p <;> rfl

@[simp] theorem State.msTick_enc (s : State) : s.msTick.enc = s.enc := by
  rcases s.msTick_cases with ⟨_, h⟩ | ⟨r, _, _, h⟩ | ⟨r, _, _, h⟩ <;> rw [h]; rfl

@[simp] theorem State.msTick_params (s : State) : s.msTick.params = s.params := by
  rcases s.msTick_cases with ⟨_, h⟩ | ⟨r, _, _, h⟩ | ⟨r, _, _, h⟩ <;> rw [h]; rfl

theorem PartsInv.msTick {s : State} (h : PartsInv s) : PartsInv s.msTick :=
  h.congr s.msTick_dec s.msTick_enc s.msTick_params

/-- A tick ends a pending ISRECV or leaves it to the same decoder (45_control_ops.md R217). -/
theorem State.msTick_waiting {s : State} (h : s.Waiting) : s.msTick.Waiting := by
  intro r hr
  rw [State.msTick_dec]
  rcases s.msTick_cases with ⟨_, heq⟩ | ⟨r', _, _, heq⟩ | ⟨r', hr', _, heq⟩ <;> rw [heq] at hr
  · exact h r hr
  · simp at hr
  · obtain rfl := Option.mem_some.1 hr
    exact h r' hr'

theorem State.clock_fields (s : State) :
    s.clock.enc = { s.enc with left := s.enc.left - 1 } ∧ s.clock.isrecv = s.isrecv ∧ s.clock.params = s.params := by
  obtain ⟨henc, -, -, -, -, -, -, hisrecv, hparams⟩ := s.nextCycle_fields
  unfold State.clock
  split <;> exact ⟨henc, hisrecv, hparams⟩

theorem PartsInv.clock {s : State} (h : PartsInv s) : PartsInv s.clock := by
  obtain ⟨henc, -, hparams⟩ := s.clock_fields
  exact ⟨fun p => by rw [State.clock_dec]; exact h.dec p, by rw [henc, hparams]; exact Enc.tick_inv h.enc⟩

theorem State.Waiting.congr {s t : State} (h : s.Waiting) (hd : ∀ p, t.dec p = s.dec p) (hi : t.isrecv = s.isrecv) :
    t.Waiting := fun r hr => by rw [hd]; exact h r (hi ▸ hr)

/-- Settles O57: an operation and a TXSTEP keep the parts' invariants and end with a POLL, after which what is pending waits; the tick
and the clock touch no decoder. -/
theorem invariantKeptByEveryStep : Obligations.InvariantKeptByEveryStep := by
  intro s t hinv h
  obtain ⟨hparts, hwait⟩ := (inv_iff s).1 hinv
  have hwait' : s.beginStep.Waiting := hwait.congr s.beginStep_dec s.beginStep_isrecv
  rw [inv_iff]
  cases step_cases h with
  | op _ _ _ hexec => exact ⟨(exec_partsInv hparts.beginStep hexec).isrecvPoll, State.isrecvPoll_waiting _⟩
  | reserved => exact ⟨hparts.beginStep, hwait'⟩
  | notTaken => exact ⟨hparts.beginStep, hwait'⟩
  | msTick => exact ⟨hparts.beginStep.msTick, State.msTick_waiting hwait'⟩
  | txstep =>
    exact ⟨(exec_partsInv hparts.beginStep (exec_txstep _)).isrecvPoll, State.isrecvPoll_waiting _⟩
  | clock =>
    obtain ⟨-, hisrecv, -⟩ := s.beginStep.clock_fields
    exact ⟨hparts.beginStep.clock, hwait'.congr s.beginStep.clock_dec hisrecv⟩

/-! ### The state right after reset -/

/-- Settles O56: every decoder is cleared with `rep` below its minimum, the encoder is idle, and nothing is pending. -/
theorem invariantHoldsAtReset : Obligations.InvariantHoldsAtReset :=
  (inv_iff _).2 ⟨reset_partsInv, fun _ h => absurd h (by simp [State.reset])⟩

/-- Settles O49: the five decoders have one reset record, since MINREP_RESET is 2 for each of them (00_scope.md R11). -/
theorem resetStateValues : Obligations.ResetStateValues :=
  ⟨fun p => by cases p <;> rfl, rfl, rfl, rfl, rfl, rfl, rfl, rfl, rfl⟩

end Sys2Proof.Machine

namespace Sys2Proof

variable {α : Type}

@[simp] theorem PerProto.set_get_self (x : PerProto α) (p : Proto) : x.set p (x.get p) = x := by cases p <;> rfl

theorem PerProto.set_comm (x : PerProto α) {p q : Proto} (h : p ≠ q) (v w : α) :
    (x.set p v).set q w = (x.set q w).set p v := by
  refine PerProto.ext_get fun r => ?_
  by_cases hp : r = p
  · subst hp; simp [h]
  · by_cases hq : r = q
    · subst hq; simp [hp]
    · simp [hp, hq]

end Sys2Proof

namespace Sys2Proof.Machine

variable {W : Nat}

/-! ### The forms of a step -/

/-- The state in which a step acts, as `step` writes it: with what is left of the queue. -/
theorem State.beginStep_of_tail {s : State} {rest : List Pending} (h : s.todo.tail = rest) :
    ({ s with todo := rest, obs := [] } : State) = s.beginStep := by rw [← h]; rfl

theorem State.beginStep_of_nil {s : State} (h : s.todo = []) : ({ s with obs := [] } : State) = s.beginStep :=
  State.beginStep_of_tail (by rw [h]; rfl)

/-- An operation is taken when no ISRECV is pending, or when it is one that is taken during an ISRECV (45_control_ops.md R218). -/
theorem State.accepts_iff (s : State) (i : Instr) : s.accepts i = true ↔ s.isrecv = none ∨ takenDuringIsrecv i = true := by
  simp [State.accepts]

theorem State.txDue_iff (s : State) : s.txDue = true ↔ s.enc.busy = true ∧ s.enc.left = 0 := by simp [State.txDue]

/-- The step of a presented operation that is taken. -/
theorem step_of_op {s t : State} {word : OpWord} {rest : List Pending} {i : Instr} (htodo : s.todo = .op word :: rest)
    (hw : decode word = .ok i) (ha : s.beginStep.accepts i = true) (h : exec i s.beginStep = .next t) :
    step s = .next t.isrecvPoll := by
  have hb := State.beginStep_of_tail (s := s) (rest := rest) (by rw [htodo]; rfl)
  simp only [step, htodo, hb, State.runPending, State.runWord, hw]
  rw [if_pos ha, State.runInstr_of_exec h]

/-- The step of the sequencer's own TXSTEP (46_encoder.md R237). -/
theorem step_of_txDue {s : State} (htodo : s.todo = []) (hd : s.txDue = true) :
    step s = .next s.beginStep.txstep.isrecvPoll := by
  have hb := State.beginStep_of_tail (s := s) (rest := []) (by rw [htodo]; rfl)
  simp only [step, htodo, hd, if_true, hb]
  exact State.runInstr_of_exec (exec_txstep _)

/-- The step of a cycle with nothing left to do and no TXSTEP due is the clock. -/
theorem step_of_idle {s : State} (htodo : s.todo = []) (hd : ¬ (s.enc.busy = true ∧ s.enc.left = 0)) :
    step s = .next s.beginStep.clock := by
  rw [← State.beginStep_of_nil htodo]
  exact step_of_clock htodo hd

/-- Settles O50, from the step of an operation that is taken and from every operation's having a next state. -/
theorem stepRunsTheDecodedOperation : Obligations.StepRunsTheDecodedOperation := by
  intro s word rest i htodo hw hi
  rw [State.beginStep_of_tail (by rw [htodo]; rfl)]
  obtain ⟨t, ht⟩ := exec_next i s.beginStep
  exact ⟨t, ht, step_of_op htodo hw ((State.accepts_iff _ i).2 hi) ht⟩

/-! ### The clock and the ports -/

/-- The clock ends the strobes, and `res` stays where no answer stood on it (20_memory.md R61). -/
theorem State.clock_strobes (s : State) :
    s.clock.msgStb = allLow ∧ s.clock.resStb = false ∧ (s.resStb = false → s.clock.res = s.res) ∧ s.clock.obs = s.obs := by
  obtain ⟨-, -, -, hobs, hmsg, hstb, hres, -, -⟩ := s.nextCycle_fields
  unfold State.clock
  split <;> exact ⟨hmsg, hstb, hres, hobs⟩

/-- The clock takes the next cycle from the input tape. -/
theorem State.clock_of_input {s : State} {x : PortIn} {rest : List PortIn} (h : s.inputs = x :: rest) :
    s.clock.inputs = rest ∧ s.clock.todo = x.operations := by simp [State.clock, h]

/-- Settles O54: the step is the clock, which writes the strobes, `res` and the down-counter. -/
theorem clockEndsTheStrobes : Obligations.ClockEndsTheStrobes := by
  intro s htodo hd
  obtain ⟨hmsg, hstb, hres, hobs⟩ := s.beginStep.clock_strobes
  obtain ⟨henc, hisrecv, hparams⟩ := s.beginStep.clock_fields
  exact ⟨_, step_of_idle htodo hd, hmsg, hstb, hres, hobs, fun p => by simp, henc, hisrecv, hparams⟩

/-- A filtered list, mapped, as one list of at most one entry for each of its elements. -/
theorem map_filter_eq_flatMap {α β : Type} (g : α → Bool) (f : α → β) (l : List α) :
    (l.filter g).map f = l.flatMap fun a => if g a then [f a] else [] := by
  induction l with
  | nil => rfl
  | cons a l ih => cases h : g a <;> simp [h, ih]

/-- The operations of a cycle without `rst`, one port after another (20_memory.md R68). -/
theorem PortIn.operations_of_rst_low {x : PortIn} (h : x.rst = false) :
    x.operations =
      (if x.edgeStb.aur then [.op (.edgeStrobe .aur x.ts)] else [])
        ++ (if x.edgeStb.wt4 then [.op (.edgeStrobe .wt4 x.ts)] else [])
        ++ (if x.edgeStb.liv then [.op (.edgeStrobe .liv x.ts)] else [])
        ++ (if x.edgeStb.kop then [.op (.edgeStrobe .kop x.ts)] else [])
        ++ (if x.edgeStb.quh then [.op (.edgeStrobe .quh x.ts)] else [])
        ++ (if x.msTick then [.msTick] else [])
        ++ (if x.cmdStb then [.op (.command x.cmd x.argA x.argB)] else []) := by
  simp [PortIn.operations, h, map_filter_eq_flatMap, Proto.all, PerProto.get]

theorem PortIn.operations_of_rst_high {x : PortIn} (h : x.rst = true) : x.operations = [.op .rstPin] := by
  simp [PortIn.operations, h]

/-- Settles O52: the step is the TXSTEP where it is due and else the clock, which presents the operations of the next cycle. -/
theorem eventsOfACycleComeInOrder : Obligations.EventsOfACycleComeInOrder := by
  intro s htodo
  constructor
  · intro hb hl
    rw [State.beginStep_of_nil htodo]
    exact ⟨_, exec_txstep _, step_of_txDue htodo ((State.txDue_iff s).2 ⟨hb, hl⟩)⟩
  · intro hd x rest hin
    obtain ⟨hrest, hops⟩ := State.clock_of_input (s := s.beginStep) hin
    refine ⟨_, step_of_idle htodo hd, hrest, hops.trans ?_⟩
    cases hr : x.rst with
    | true => exact PortIn.operations_of_rst_high hr
    | false => exact PortIn.operations_of_rst_low hr

/-! ### Two decoders -/

/-- Whether a decoder's event raises its strobe `msg_stb[p]` (44_dispatcher.md R201). -/
def raisesStrobe : Option (DecEvent W) → Bool
  | some (.callback _) => true
  | some (.drop _) | some (.error _) | none => false

/-- An event writes the strobe of its own decoder and the record of outputs, nothing else. -/
theorem State.signal_eq (s : State) (p : Proto) (e : Option (DecEvent (Config.total p))) :
    s.signal p e = { s with
      msgStb := s.msgStb.set p (raisesStrobe e || s.msgStb.get p), obs := (s.signal p e).obs } := by
  rcases e with _ | ⟨w⟩ | ⟨w⟩ | ⟨l⟩ <;> simp [State.signal, State.emit, raisesStrobe]

theorem State.signal_setDec (s : State) (p q : Proto) (e : Option (DecEvent (Config.total p))) (d : Dec (Config.total q)) :
    (s.signal p e).setDec q d = (s.setDec q d).signal p e := by
  rcases e with _ | ⟨w⟩ | ⟨w⟩ | ⟨l⟩ <;> cases q <;> rfl

/-- The events of two decoders raise their own strobes. -/
theorem State.signal_comm (s : State) {p q : Proto} (h : p ≠ q) (e : Option (DecEvent (Config.total p)))
    (e' : Option (DecEvent (Config.total q))) :
    ({ (s.signal p e).signal q e' with obs := [] } : State) = { (s.signal q e').signal p e with obs := [] } := by
  rw [State.signal_eq (s.signal p e), State.signal_eq s, State.signal_eq (s.signal q e'), State.signal_eq s q]
  simp [h, h.symm, PerProto.set_comm s.msgStb h]

theorem State.signal_obs_perm (s : State) (p q : Proto) (e : Option (DecEvent (Config.total p)))
    (e' : Option (DecEvent (Config.total q))) :
    ((s.signal p e).signal q e').obs.Perm ((s.signal q e').signal p e).obs := by
  simp only [State.signal_obs, List.append_assoc]
  exact List.perm_append_comm.append_left s.obs

/-- The second of two EDGEs finds its decoder as it was, so both records can be written before either event is put out. -/
theorem State.edge_edge_of_ne (s : State) {p q : Proto} (h : q ≠ p) (ts ts' : Timestamp) :
    (s.edge p ts).edge q ts' =
      (((s.setDec p ((s.dec p).edge (desc p) ts).1).setDec q ((s.dec q).edge (desc q) ts').1).signal p
        ((s.dec p).edge (desc p) ts).2).signal q ((s.dec q).edge (desc q) ts').2 := by
  rw [State.edge, State.edge_dec_ne s ts h, State.edge, State.signal_setDec]

/-- Settles O53: each EDGE writes its own decoder's record and strobe, and puts out its own event. -/
theorem edgesOfDifferentDecodersCommute : Obligations.EdgesOfDifferentDecodersCommute := by
  intro p q s ts ts' h
  refine ⟨(s.edge p ts).edge q ts', (s.edge q ts').edge p ts, by simp [andThen], by simp [andThen], ?_⟩
  rw [State.edge_edge_of_ne s h.symm, State.edge_edge_of_ne s h, State.setDec_comm s h]
  exact ⟨State.signal_obs_perm _ p q _ _, State.signal_comm _ h _ _⟩

end Sys2Proof.Machine

namespace Sys2Proof

/-! ### The command port, field by field -/

theorem protoOfPid_of_lt {n : Nat} (h : n < 5) : ∃ p, protoOfPid n = some p := by
  interval_cases n <;> exact ⟨_, rfl⟩

theorem protoOfPid_of_le {n : Nat} (h : 5 ≤ n) : protoOfPid n = none := by
  obtain ⟨m, rfl⟩ := Nat.exists_eq_add_of_le' h
  rfl

section
variable {cmd : CmdByte} (a : ArgA) (b : ArgB)

theorem decodeCommand_of_bit3 (h3 : cmd.getLsbD 3 = true) : decodeCommand cmd a b = .error .reservedBit3 := by
  simp [decodeCommand, h3]

theorem decodeCommand_of_pid (h3 : cmd.getLsbD 3 = false) (hp : 5 ≤ (cmd.extractLsb' 0 3).toNat) :
    decodeCommand cmd a b = .error .reservedPid := by
  simp only [decodeCommand, h3, Bool.false_eq_true, if_false, protoOfPid_of_le hp]

theorem decodeCommand_of_op (h3 : cmd.getLsbD 3 = false) (hp : (cmd.extractLsb' 0 3).toNat < 5)
    (ho : (cmd.extractLsb' 4 4).toNat = 0 ∨ 9 ≤ (cmd.extractLsb' 4 4).toNat) :
    decodeCommand cmd a b = .error .reservedOp := by
  obtain ⟨p, hpid⟩ := protoOfPid_of_lt hp
  simp only [decodeCommand, h3, hpid]
  generalize (cmd.extractLsb' 4 4).toNat = op at ho
  obtain rfl | ho := ho
  · rfl
  · obtain ⟨m, rfl⟩ := Nat.exists_eq_add_of_le' ho
    rfl

theorem decodeCommand_of_row (h3 : cmd.getLsbD 3 = false) (hp : (cmd.extractLsb' 0 3).toNat < 5)
    (hlo : 1 ≤ (cmd.extractLsb' 4 4).toNat) (hhi : (cmd.extractLsb' 4 4).toNat < 9) : ∃ i, decodeCommand cmd a b = .ok i := by
  obtain ⟨p, hpid⟩ := protoOfPid_of_lt hp
  simp only [decodeCommand, h3, hpid]
  generalize (cmd.extractLsb' 4 4).toNat = op at hlo hhi
  interval_cases op <;> exact ⟨_, rfl⟩

end

/-- Settles O2: the four ways in which the fields can stand exclude each other, and each has its own answer. -/
theorem decoderJudgesACommandByItsThreeFields : Obligations.DecoderJudgesACommandByItsThreeFields := by
  intro cmd a b
  cases h3 : cmd.getLsbD 3 with
  | true => simp [decodeCommand_of_bit3 a b h3]
  | false =>
    by_cases hp : (cmd.extractLsb' 0 3).toNat < 5
    · by_cases ho : (cmd.extractLsb' 4 4).toNat = 0 ∨ 9 ≤ (cmd.extractLsb' 4 4).toNat
      · rw [decodeCommand_of_op a b h3 hp ho]
        simp only [reduceCtorEq, exists_false, Except.error.injEq, true_and, false_iff, true_iff, iff_self]
        omega
      · obtain ⟨i, hi⟩ := decodeCommand_of_row a b h3 hp (by omega) (by omega)
        simp only [hi, reduceCtorEq, Except.ok.injEq, exists_eq', true_and, false_iff, true_iff]
        omega
    · rw [decodeCommand_of_pid a b h3 (by omega)]
      simp only [reduceCtorEq, exists_false, Except.error.injEq, true_and, false_iff, true_iff, iff_self]
      omega

/-! ### The eight rows of 30_encoding.md R101 -/

section
variable (p : Proto) (a : ArgA) (b : ArgB)

theorem decodeCommand_edge : decodeCommand (cmdByte 1 p) a b = .ok (edgeInstr p (a.extractLsb' 0 32)) := by cases p <;> rfl
theorem decodeCommand_enable : decodeCommand (cmdByte 2 p) a b = .ok (enableInstr p) := by cases p <;> rfl
theorem decodeCommand_disable : decodeCommand (cmdByte 3 p) a b = .ok (disableInstr p) := by cases p <;> rfl
theorem decodeCommand_init : decodeCommand (cmdByte 4 p) a b = .ok (initInstr p (a.extractLsb' 0 8) b) := by cases p <;> rfl
theorem decodeCommand_poll : decodeCommand (cmdByte 5 p) a b = .ok (pollInstr p) := by cases p <;> rfl
theorem decodeCommand_isrecv : decodeCommand (cmdByte 6 p) a b = .ok (isrecvInstr p (a.extractLsb' 0 16)) := by cases p <;> rfl
theorem decodeCommand_cbret : decodeCommand (cmdByte 7 p) a b = .ok (cbretInstr p) := by cases p <;> rfl
theorem decodeCommand_send : decodeCommand (cmdByte 8 p) a b = .ok (sendInstr p a b) := by cases p <;> rfl

end

/-- Settles O3, row by row: the operand of a row is the low bits of `arg_a`, which the slice from bit 0 takes. -/
theorem commandRowsDecode : Obligations.CommandRowsDecode := fun p a b =>
  ⟨decodeCommand_edge p a b, decodeCommand_enable p a b, decodeCommand_disable p a b, decodeCommand_init p a b,
    decodeCommand_poll p a b, decodeCommand_isrecv p a b, decodeCommand_cbret p a b, decodeCommand_send p a b⟩

/-- Settles O4: seven words are rows of R101, and each of the other three has one reserved field. -/
theorem writtenWordsDecode : Obligations.WrittenWordsDecode :=
  ⟨decodeCommand_edge .kop 7000 0, decodeCommand_enable .quh 0 0, decodeCommand_init .wt4 2 0xFF, decodeCommand_isrecv .liv 30 0,
    decodeCommand_cbret .aur 0 0, decodeCommand_send .kop 0xC35A81 1, decodeCommand_send .wt4 0xB7374780 2,
    decodeCommand_of_bit3 0 0 (by decide), decodeCommand_of_pid 0 0 (by decide) (by decide),
    decodeCommand_of_op 0 0 (by decide) (by decide) (by decide)⟩

/-! ### Decode of encode -/

/-- An operand narrower than `arg_a` stands in its low bits (30_encoding.md R101). -/
theorem extractLsb'_setWidth_argA {n : Nat} (x : BitVec n) (h : n ≤ 36) : (x.setWidth 36 : ArgA).extractLsb' 0 n = x := by
  apply BitVec.eq_of_toNat_eq
  have hx : x.toNat < 2 ^ 36 := lt_of_lt_of_le x.isLt (Nat.pow_le_pow_right (by decide) h)
  rw [BitVec.extractLsb'_toNat, BitVec.toNat_setWidth, Nat.shiftRight_zero, Nat.mod_eq_of_lt hx, Nat.mod_eq_of_lt x.isLt]

theorem encode_edgeInstr (p : Proto) (ts : Timestamp) : encode (edgeInstr p ts) = encodeCommand 1 p (ts.setWidth 36) 0 := by
  cases p <;> rfl
theorem encode_enableInstr (p : Proto) : encode (enableInstr p) = encodeCommand 2 p 0 0 := by cases p <;> rfl
theorem encode_disableInstr (p : Proto) : encode (disableInstr p) = encodeCommand 3 p 0 0 := by cases p <;> rfl
theorem encode_initInstr (p : Proto) (m q : BitVec 8) : encode (initInstr p m q) = encodeCommand 4 p (m.setWidth 36) q := by
  cases p <;> rfl
theorem encode_pollInstr (p : Proto) : encode (pollInstr p) = encodeCommand 5 p 0 0 := by cases p <;> rfl
theorem encode_isrecvInstr (p : Proto) (t : BitVec 16) : encode (isrecvInstr p t) = encodeCommand 6 p (t.setWidth 36) 0 := by
  cases p <;> rfl
theorem encode_cbretInstr (p : Proto) : encode (cbretInstr p) = encodeCommand 7 p 0 0 := by cases p <;> rfl
theorem encode_frameInstr (p : Proto) (w : BitVec (Config.total p)) : encode (frameInstr p w) = .wireFrame p w := by
  cases p <;> rfl

/-- A SEND is encoded with each field back at its slice, and nothing else on `arg_a` (30_encoding.md R99). -/
theorem encode_sendInstr (p : Proto) (a : ArgA) (n : BitVec 8) :
    ∃ a', encode (sendInstr p a n) = encodeCommand 8 p a' n ∧ sendInstr p a' n = sendInstr p a n := by
  cases p with
  | aur => exact ⟨_, rfl, Machine.sendInstr_sendArgAur _ _ _ _ n⟩
  | wt4 => exact ⟨_, rfl, Machine.sendInstr_sendArgWt4 _ _ _ _ n⟩
  | liv => exact ⟨_, rfl, Machine.sendInstr_sendArgLiv _ _ n⟩
  | kop => exact ⟨_, rfl, Machine.sendInstr_sendArgKop _ _ n⟩
  | quh => exact ⟨_, rfl, Machine.sendInstr_sendArgQuh _ _ n⟩

theorem decode_encodeCommand (op : Nat) (p : Proto) (a : ArgA) (b : ArgB) :
    decode (encodeCommand op p a b) = decodeCommand (cmdByte op p) a b := rfl

/-- Settles O1, family by family: the command byte names the row, and the row's operand stands where the encoder put it. -/
theorem encodeThenDecodeGivesTheOperation : Obligations.EncodeThenDecodeGivesTheOperation := by
  intro i
  induction i using Machine.Instr.family_cases with
  | edge p ts =>
    rw [encode_edgeInstr, decode_encodeCommand, decodeCommand_edge, extractLsb'_setWidth_argA ts (by decide)]
  | enable p => rw [encode_enableInstr, decode_encodeCommand, decodeCommand_enable]
  | disable p => rw [encode_disableInstr, decode_encodeCommand, decodeCommand_disable]
  | init p m q =>
    rw [encode_initInstr, decode_encodeCommand, decodeCommand_init, extractLsb'_setWidth_argA m (by decide)]
  | poll p => rw [encode_pollInstr, decode_encodeCommand, decodeCommand_poll]
  | isrecv p t =>
    rw [encode_isrecvInstr, decode_encodeCommand, decodeCommand_isrecv, extractLsb'_setWidth_argA t (by decide)]
  | cbret p => rw [encode_cbretInstr, decode_encodeCommand, decodeCommand_cbret]
  | send p a n =>
    obtain ⟨a', henc, hsend⟩ := encode_sendInstr p a n
    rw [henc, decode_encodeCommand, decodeCommand_send, hsend]
  | reset => rfl
  | txstep => rfl
  | frame p w => rw [encode_frameInstr]; rfl

end Sys2Proof

namespace Sys2Proof.Machine

variable {W : Nat}

/-! ### A reserved command in the machine -/

/-- The step of a presented operation whose bits the decoder refuses. -/
theorem step_of_reserved {s : State} {word : OpWord} {rest : List Pending} {e : DecodeError} (htodo : s.todo = .op word :: rest)
    (hw : decode word = .error e) : step s = .next s.beginStep := by
  have hb := State.beginStep_of_tail (s := s) (rest := rest) (by rw [htodo]; rfl)
  simp only [step, htodo, hb, State.runPending, State.runWord, hw]

/-- The step of a presented operation that is not taken (45_control_ops.md R218). -/
theorem step_of_notTaken {s : State} {word : OpWord} {rest : List Pending} {i : Instr} (htodo : s.todo = .op word :: rest)
    (hw : decode word = .ok i) (ha : s.beginStep.accepts i = false) : step s = .next s.beginStep := by
  have hb := State.beginStep_of_tail (s := s) (rest := rest) (by rw [htodo]; rfl)
  simp only [step, htodo, hb, State.runPending, State.runWord, hw, ha, Bool.false_eq_true, if_false]

/-- A command with a reserved field decodes to no operation (30_encoding.md R102). -/
theorem decodeCommand_of_reserved {cmd : CmdByte} (a : ArgA) (b : ArgB)
    (h : (cmd.extractLsb' 4 4).toNat = 0 ∨ 9 ≤ (cmd.extractLsb' 4 4).toNat ∨ cmd.getLsbD 3 = true
      ∨ 5 ≤ (cmd.extractLsb' 0 3).toNat) : ∃ e, decodeCommand cmd a b = .error e := by
  cases hd : decodeCommand cmd a b with
  | error e => exact ⟨e, rfl⟩
  | ok i =>
    obtain ⟨h3, hp, hlo, hhi⟩ := (decoderJudgesACommandByItsThreeFields cmd a b).1.1 ⟨i, hd⟩
    simp only [h3, Bool.false_eq_true, false_or] at h
    omega

theorem takenDuringIsrecv_sendInstr (p : Proto) (a : ArgA) (n : BitVec 8) : takenDuringIsrecv (sendInstr p a n) = false := by
  cases p <;> rfl

/-- A SEND to a protocol without an encoder is not taken, or is taken and does nothing (30_encoding.md R102; 46_encoder.md R233). -/
theorem step_of_absent_send {s : State} {p : Proto} {a : ArgA} {b : ArgB} {rest : List Pending}
    (htodo : s.todo = .op (.command (cmdByte 8 p) a b) :: rest) (htx : txPresent s.params p = false) :
    step s = .next s.beginStep := by
  have hw := decodeCommand_send p a b
  cases ha : s.beginStep.accepts (sendInstr p a b) with
  | false => exact step_of_notTaken htodo hw ha
  | true =>
    have hnone : s.beginStep.isrecv = none := by
      simpa [State.accepts_iff, takenDuringIsrecv_sendInstr] using ha
    rw [step_of_op htodo hw ha (exec_sendInstr p a b _), State.send_of_ignore (s := s.beginStep) (.inl htx),
      State.isrecvPoll_of_none hnone]

/-- Settles O51: the decoder refuses a reserved field, and a SEND without its encoder does nothing. -/
theorem reservedCommandIsIgnored : Obligations.ReservedCommandIsIgnored := by
  intro s cmd a b rest htodo h
  rw [State.beginStep_of_tail (by rw [htodo]; rfl)]
  by_cases hsend : ∃ p, cmd = BitVec.ofNat 8 (0x80 + pidOf p) ∧ txPresent s.params p = false
  · obtain ⟨p, rfl, htx⟩ := hsend
    exact step_of_absent_send htodo htx
  · obtain ⟨e, he⟩ := decodeCommand_of_reserved a b (by simpa only [hsend, or_false] using h)
    exact step_of_reserved htodo he

/-! ### Frame words -/

/-- The exclusive or of a word with one bit more below it (30_encoding.md R95). -/
theorem xorOfAllBits_append_ofBool (x : BitVec W) (b : Bool) : xorOfAllBits (x ++ BitVec.ofBool b) = xor b (xorOfAllBits x) := by
  unfold xorOfAllBits
  rw [foldl_xor_succ]
  simp only [BitVec.getLsbD_append]
  simp

/-- A parity bit makes the exclusive or of the whole word 0 (30_encoding.md R95, R98). -/
theorem xorOfAllBits_append_parity (x : BitVec W) : xorOfAllBits (x ++ BitVec.ofBool (xorOfAllBits x)) = false := by
  rw [xorOfAllBits_append_ofBool, Bool.xor_self]

theorem extractLsb'_eq_iff_toNat {l : Nat} (w : BitVec W) (k : Nat) (x : BitVec l) :
    w.extractLsb' k l = x ↔ w.toNat / 2 ^ k % 2 ^ l = x.toNat := by
  rw [← BitVec.toNat_inj, BitVec.extractLsb'_toNat, Nat.shiftRight_eq_div_pow]

theorem aurFields_framewordAur (addr : BitVec 8) (temp : BitVec 12) (n1 : BitVec 4) (n2 : BitVec 7) :
    aurFields (framewordAur addr temp n1 n2) =
      { addr := addr, temp := temp, n1 := n1, n2 := n2, par := BitVec.ofBool (xorOfAllBits (addr ++ temp ++ n1 ++ n2)) } := by
  generalize hpar : BitVec.ofBool (xorOfAllBits (addr ++ temp ++ n1 ++ n2)) = par
  simp only [aurFields, framewordAur, hpar, AurFields.mk.injEq, extractLsb'_eq_iff_toNat, append_toNat_add]
  omega

theorem wt4Fields_framewordWt4 (addr : BitVec 4) (chan : BitVec 2) (hum : BitVec 7) (temp : BitVec 15) :
    wt4Fields (framewordWt4 addr chan hum temp) =
      { addr := addr, chan := chan, const := 0b110#3, hum := hum, temp := temp,
        par := BitVec.ofBool (xorOfAllBits (addr ++ chan ++ 0b110#3 ++ hum ++ temp)) } := by
  generalize hpar : BitVec.ofBool (xorOfAllBits (addr ++ chan ++ 0b110#3 ++ hum ++ temp)) = par
  simp only [wt4Fields, framewordWt4, hpar, Wt4Fields.mk.injEq, extractLsb'_eq_iff_toNat, append_toNat_add, BitVec.toNat_ofNat]
  omega

theorem livFields_framewordLiv (addr : BitVec 16) (unit : BitVec 14) :
    livFields (framewordLiv addr unit) = { addr := addr, unit := unit } := by
  simp only [livFields, framewordLiv, LivFields.mk.injEq, extractLsb'_eq_iff_toNat, append_toNat_add]
  omega

theorem kopFields_framewordKop (addr : BitVec 16) (unit : BitVec 8) :
    kopFields (framewordKop addr unit) = { addr := addr, unit := unit } := by
  simp only [kopFields, framewordKop, KopFields.mk.injEq, extractLsb'_eq_iff_toNat, append_toNat_add]
  omega

theorem quhFields_framewordQuh (addr : BitVec 28) (unit : BitVec 8) :
    quhFields (framewordQuh addr unit) = { addr := addr, unit := unit } := by
  simp only [quhFields, framewordQuh, QuhFields.mk.injEq, extractLsb'_eq_iff_toNat, append_toNat_add]
  omega

theorem validFrame_framewordAur (addr : BitVec 8) (temp : BitVec 12) (n1 : BitVec 4) (n2 : BitVec 7) :
    validFrame descAur (framewordAur addr temp n1 n2) = true := by
  have hpar : xorOfAllBits (framewordAur addr temp n1 n2) = false := xorOfAllBits_append_parity _
  simp [validFrame, hpar, descAur]

theorem validFrame_framewordWt4 (addr : BitVec 4) (chan : BitVec 2) (hum : BitVec 7) (temp : BitVec 15) :
    validFrame descWt4 (framewordWt4 addr chan hum temp) = true := by
  have hpar : xorOfAllBits (framewordWt4 addr chan hum temp) = false := xorOfAllBits_append_parity _
  have hconst : (framewordWt4 addr chan hum temp).extractLsb' 23 3 = 0b110#3 :=
    congrArg Wt4Fields.const (wt4Fields_framewordWt4 addr chan hum temp)
  simp [validFrame, hpar, hconst]

/-- A protocol without parity and constant takes every word (30_encoding.md R97). -/
theorem validFrame_of_no_check {C : Desc} (hp : C.hasPar = false) (hc : C.hasConst = false) (w : BitVec W) :
    validFrame C w = true := by simp [validFrame, hp, hc]

/-- Settles O5: the slices of a frame word undo its concatenation, and its parity bit makes its exclusive or 0. -/
theorem framewordHoldsItsFieldsAndIsValid : Obligations.FramewordHoldsItsFieldsAndIsValid :=
  ⟨fun addr temp n1 n2 => ⟨aurFields_framewordAur addr temp n1 n2, validFrame_framewordAur addr temp n1 n2⟩,
    fun addr chan hum temp => ⟨wt4Fields_framewordWt4 addr chan hum temp, validFrame_framewordWt4 addr chan hum temp⟩,
    fun addr unit => ⟨livFields_framewordLiv addr unit, validFrame_of_no_check rfl rfl _⟩,
    fun addr unit => ⟨kopFields_framewordKop addr unit, validFrame_of_no_check rfl rfl _⟩,
    fun addr unit => ⟨quhFields_framewordQuh addr unit, validFrame_of_no_check rfl rfl _⟩⟩

/-! ### The length of one frame -/

/-- A sum over the bits of a frame lies between the frame's length times the bounds for one bit. -/
theorem sum_wireBits_bounds (w : BitVec W) {f : Bool → Nat} {lo hi : Nat} (h : ∀ b, lo ≤ f b ∧ f b ≤ hi) :
    W * lo ≤ ((wireBits w).map f).sum ∧ ((wireBits w).map f).sum ≤ W * hi := by
  have hlo := ((wireBits w).map f).card_nsmul_le_sum lo (List.forall_mem_map.2 fun b _ => (h b).1)
  have hhi := ((wireBits w).map f).sum_le_card_nsmul hi (List.forall_mem_map.2 fun b _ => (h b).2)
  simpa using And.intro hlo hhi

theorem frameSegs_length_bounds (C : Desc) (w : BitVec W) {lo hi : Nat} (h : ∀ b, lo ≤ (sym C b).length ∧ (sym C b).length ≤ hi) :
    W * lo ≤ (frameSegs C w).length ∧ (frameSegs C w).length ≤ W * hi := by
  rw [frameSegs, List.length_flatMap]
  exact sum_wireBits_bounds w h

theorem frameSegs_sum_bounds (C : Desc) (w : BitVec W) {lo hi : Nat} (h : ∀ b, lo ≤ (sym C b).sum ∧ (sym C b).sum ≤ hi) :
    W * lo ≤ (frameSegs C w).sum ∧ (frameSegs C w).sum ≤ W * hi := by
  rw [frameSegs, List.flatMap_def, List.sum_flatten, List.map_map]
  exact sum_wireBits_bounds w h

/-- Settles O42: each number of R104 is the frame's length times a bound for one bit. -/
theorem frameLengths : Obligations.FrameLengths := by
  refine ⟨fun w => ?_, fun w => ?_, fun w => ?_, fun w => ?_, fun w => ?_⟩
  · have hlen := frameSegs_length_bounds descAur w (lo := 2) (hi := 2) (by decide)
    have hsum := frameSegs_sum_bounds descAur w (lo := 1000) (hi := 2000) (by decide)
    omega
  · have hlen := frameSegs_length_bounds descWt4 w (lo := 1) (hi := 2) (by decide)
    have hsum := frameSegs_sum_bounds descWt4 w (lo := 2000) (hi := 2000) (by decide)
    omega
  · have hlen := frameSegs_length_bounds descLiv w (lo := 1) (hi := 2) (by decide)
    have hsum := frameSegs_sum_bounds descLiv w (lo := 280) (hi := 420) (by decide)
    omega
  · have hlen := frameSegs_length_bounds descKop w (lo := 2) (hi := 2) (by decide)
    have hsum := frameSegs_sum_bounds descKop w (lo := 480) (hi := 480) (by decide)
    omega
  · have hlen := frameSegs_length_bounds descQuh w (lo := 2) (hi := 2) (by decide)
    have hsum := frameSegs_sum_bounds descQuh w (lo := 700) (hi := 1400) (by decide)
    omega

/-! ### A frame reaches its decoder in the machine -/

/-- An enabled decoder at the start of bit 0, with nothing received of it yet (41_decoder_step.md R142). -/
structure Dec.InBit0 (d : Dec W) : Prop where
  en : d.en = true
  insync : d.insync = true
  k : d.k = 0
  ph : d.ph = false
  first : d.first = false
  cand : d.cand = 0
  px : d.px = false

theorem Dec.InBit0.withLastTs {d : Dec W} (h : d.InBit0) (t : Timestamp) : Dec.InBit0 { d with lastTs := t } :=
  ⟨h.en, h.insync, h.k, h.ph, h.first, h.cand, h.px⟩

/-- The machine after a POLL of decoder `p` that returned 1: an ISRECV that waits for `p` has answered (45_control_ops.md R216). -/
def State.answered (s : State) (p : Proto) : State :=
  if (s.isrecv.map fun r => r.p) = some p then
    { s with isrecv := none, resStb := true, res := true, obs := s.obs ++ [.result true] }
  else s

theorem State.answered_of_eq {s : State} {p : Proto} (h : (s.isrecv.map fun r => r.p) = some p) :
    s.answered p = { s with isrecv := none, resStb := true, res := true, obs := s.obs ++ [.result true] } := if_pos h

theorem State.answered_of_ne {s : State} {p : Proto} (h : (s.isrecv.map fun r => r.p) ≠ some p) : s.answered p = s := if_neg h

theorem State.answered_isrecv_ne (s : State) (p : Proto) : ((s.answered p).isrecv.map fun r => r.p) ≠ some p := by
  unfold State.answered
  split
  · simp
  · assumption

@[simp] theorem State.answered_answered (s : State) (p : Proto) : (s.answered p).answered p = s.answered p :=
  State.answered_of_ne (s.answered_isrecv_ne p)

theorem State.answered_waiting {s : State} (h : s.Waiting) (p : Proto) : (s.answered p).Waiting := by
  unfold State.answered
  split
  · simp [State.Waiting]
  · exact h

/-- A pending ISRECV still waits when a decoder's record is written, unless it waits for that decoder and finds it receiving now
(45_control_ops.md R214). -/
theorem State.setDec_waiting {s : State} (h : s.Waiting) {p : Proto} {d : Dec (Config.total p)}
    (hd : (s.isrecv.map fun r => r.p) = some p → d.receiving = false) : (s.setDec p d).Waiting := by
  intro r hr
  have hr' : s.isrecv = some r := by simpa using hr
  by_cases hp : r.p = p
  · subst hp
    rw [State.dec_setDec_same]
    exact hd (by rw [hr']; rfl)
  · rw [State.dec_setDec_ne s d hp]
    exact h r hr'

/-- The POLL after decoder `p` has moved: it answers an ISRECV of `p` where `p` is receiving now, and no other ISRECV. -/
theorem State.isrecvPoll_setDec {s : State} (h : s.Waiting) (p : Proto) (d : Dec (Config.total p)) :
    (s.setDec p d).isrecvPoll = (if d.receiving then s.answered p else s).setDec p d := by
  cases hd : d.receiving with
  | false => exact State.isrecvPoll_of_waiting (State.setDec_waiting h fun _ => hd)
  | true =>
    by_cases hp : (s.isrecv.map fun r => r.p) = some p
    · rw [if_pos rfl, State.answered_of_eq hp]
      obtain ⟨⟨q, n⟩, hr, rfl⟩ := Option.map_eq_some_iff.1 hp
      simp only [State.isrecvPoll, State.setDec_isrecv, hr, State.dec_setDec_same, hd, if_true]
      cases q <;> rfl
    · rw [if_pos rfl, State.answered_of_ne hp]
      exact State.isrecvPoll_of_waiting (State.setDec_waiting h fun hp' => absurd hp' hp)

/-- Between two pulses a pending ISRECV waits: each pulse ends with its POLL (log 5). -/
theorem State.pulses_waiting {s : State} (h : s.Waiting) (p : Proto) (ds : List Nat) : (s.pulses p ds).Waiting := by
  induction ds generalizing s with
  | nil => exact h
  | cons d ds ih => exact ih (State.isrecvPoll_waiting _)

theorem State.pulse_setDec {s : State} {p : Proto} {d d' : Dec (Config.total p)} {e : Option (DecEvent (Config.total p))} {x : Nat}
    (h : d.edge (desc p) (d.lastTs + BitVec.ofNat 32 x) = (d', e)) :
    (s.setDec p d).pulse p x = ((s.setDec p d').signal p e).isrecvPoll := by
  simp only [State.pulse, State.edge, State.dec_setDec_same, h, State.setDec_setDec]

/-- The pulses of one bit in the machine: the decoder shifts the bit in, and then a pending ISRECV polls; the POLL after a first
pulse of two finds it as it was (46_encoder.md R234, 45_control_ops.md R214). -/
theorem State.pulses_bit {s : State} {p : Proto} {d d' : Dec (Config.total p)} {e : Option (DecEvent (Config.total p))} {b : Bool}
    (hw : (s.setDec p d).Waiting) (he : d.en = true) (hi : d.insync = true) (hp : d.ph = false) (hf : d.first = false)
    (h : Dec.shiftIn (desc p) { d with lastTs := d.lastTs + BitVec.ofNat 32 (sym (desc p) b).sum } b = (d', e)) :
    (s.setDec p d).pulses p (sym (desc p) b) = ((s.setDec p d').signal p e).isrecvPoll := by
  rcases Dec.edges_of_bit p d b he hi hp hf with ⟨x, hsym, hx⟩ | ⟨x, y, f, hsym, hx, hy⟩
  · rw [hsym, State.pulses_cons, State.pulses_nil, State.pulse_setDec (hx.trans h)]
  · have hw' : (s.setDec p { d with lastTs := d.lastTs + BitVec.ofNat 32 x, ph := true, first := f }).Waiting := by
      rw [← State.setDec_setDec s p d]
      refine State.setDec_waiting hw fun hr => ?_
      obtain ⟨r, hr, rfl⟩ := Option.map_eq_some_iff.1 hr
      have hwait := hw r hr
      rwa [State.dec_setDec_same] at hwait
    rw [hsym, State.pulses_cons, State.pulses_cons, State.pulses_nil, State.pulse_setDec hx, State.signal_none,
      State.isrecvPoll_of_waiting hw', State.pulse_setDec (hy.trans h)]

@[simp] theorem Dec.afterBits_en {p : Proto} (d : Dec (Config.total p)) (w : BitVec (Config.total p)) (i : Nat) :
    (d.afterBits w i).en = d.en := rfl
@[simp] theorem Dec.afterBits_insync {p : Proto} (d : Dec (Config.total p)) (w : BitVec (Config.total p)) (i : Nat) :
    (d.afterBits w i).insync = d.insync := rfl

/-- A decoder with `RECV_BITS` bits of a word is receiving (45_control_ops.md R214). -/
theorem Dec.afterBits_receiving {p : Proto} {d : Dec (Config.total p)} (hi : d.insync = true) (w : BitVec (Config.total p))
    {i : Nat} (h : i < Config.total p) : (d.afterBits w i).receiving = decide (Config.recvBits ≤ i) := by
  have hk : (BitVec.ofNat 6 i).toNat = i := by
    rw [BitVec.toNat_ofNat, Nat.mod_eq_of_lt]
    have := Config.total_le p
    omega
  simp [Dec.receiving, Dec.afterBits, hi, hk]

/-- The machine after the first `i` bits of a frame, not all of them: the decoder holds them, and an ISRECV of its own has answered
once `RECV_BITS` of them were in. -/
theorem State.pulses_firstBits {s : State} (hw : s.Waiting) {p : Proto} (hb : (s.dec p).InBit0) {w : BitVec (Config.total p)}
    (hc : constOk p w) (i : Nat) (hlt : i < Config.total p) :
    s.pulses p (((wireBits w).take i).flatMap (sym (desc p))) =
      (if Config.recvBits ≤ i then s.answered p else s).setDec p ((s.dec p).afterBits w i) := by
  induction i with
  | zero => rw [Dec.afterBits_zero _ _ hb.k hb.ph hb.first hb.cand hb.px]; simp [Config.recvBits]
  | succ i ih =>
    have ih := ih (by omega)
    have hwait := ih ▸ State.pulses_waiting hw p (((wireBits w).take i).flatMap (sym (desc p)))
    have hbase : (if Config.recvBits ≤ i then s.answered p else s).Waiting := by
      split
      · exact State.answered_waiting hw p
      · exact hw
    rw [wireBits_take_succ w (by omega), List.flatMap_append, State.pulses_append, ih, List.flatMap_singleton,
      State.pulses_bit hwait hb.en hb.insync rfl rfl (Dec.shiftIn_afterBits (s.dec p) w hc hlt), State.signal_none,
      State.isrecvPoll_setDec hbase, Dec.afterBits_receiving hb.insync w hlt]
    congr 1
    by_cases h : Config.recvBits ≤ i
    · simp [h, show Config.recvBits ≤ i + 1 by omega]
    · simp [h]

/-- A completion ends with the decoder at bit 0, so no longer receiving (41_decoder_step.md R151, R152). -/
theorem Dec.complete_receiving {C : Desc} {d d' : Dec W} {w : BitVec W} {px' : Bool} {e : Option (DecEvent W)}
    (h : d.complete C w px' = (d', e)) : d'.receiving = false := by
  have hk : d'.k = 0 := by
    obtain rfl : (d.complete C w px').1 = d' := by rw [h]
    cases hv : completionValid C px' with
    | false => rw [Dec.complete_of_invalid hv]; rfl
    | true =>
      rw [Dec.complete_of_valid hv, Dec.repeatFilter_frame]
      cases C.rearm <;> rfl
  simp [Dec.receiving, hk, Config.recvBits]

/-- FRAME with the constant in place completes its word, whatever its parity; an ISRECV of its decoder has answered on the way
(30_encoding.md R89, R106; 41_decoder_step.md R151). -/
theorem State.frame_eq {s : State} (hw : s.Waiting) {p : Proto} (hb : (s.dec p).InBit0) {w : BitVec (Config.total p)}
    (hc : constOk p w) {d : Dec (Config.total p)} {e : Option (DecEvent (Config.total p))}
    (h : Dec.complete (desc p) { s.dec p with lastTs := (s.dec p).lastTs + BitVec.ofNat 32 (frameSegs (desc p) w).sum } w
      (xorOfAllBits w) = (d, e)) :
    s.frame p w = ((s.answered p).setDec p d).signal p e := by
  obtain ⟨n, hn⟩ : ∃ n, n + 1 = Config.total p := ⟨Config.total p - 1, Nat.sub_add_cancel (Config.total_pos p)⟩
  have hbits : wireBits w = (wireBits w).take n ++ [w.getMsbD n] := by
    rw [← wireBits_take_succ w (by omega), hn, List.take_of_length_le (by rw [wireBits_length])]
  have hrecv : Config.recvBits ≤ n := by
    have : Config.recvBits < Config.total p := by cases p <;> decide
    omega
  have hpre := State.pulses_firstBits hw hb hc n (by omega)
  rw [if_pos hrecv] at hpre
  have hwait := hpre ▸ State.pulses_waiting hw p (((wireBits w).take n).flatMap (sym (desc p)))
  have hend : (((s.answered p).setDec p d).signal p e).Waiting :=
    (State.setDec_waiting (State.answered_waiting hw p) fun _ => Dec.complete_receiving h).congr (State.signal_dec _ p e)
      (State.signal_isrecv _ p e)
  rw [State.frame, frameSegs, hbits, List.flatMap_append, State.pulses_append, hpre, List.flatMap_singleton,
    State.pulses_bit hwait hb.en hb.insync rfl rfl ((Dec.shiftIn_lastBit (s.dec p) w hn).trans h),
    State.isrecvPoll_of_waiting hend]

theorem Dec.InBit0.gotoWaitingSync_eq {d : Dec W} (h : d.InBit0) : d.gotoWaitingSync = { d with insync := false } := by
  obtain ⟨-, -, hk, hph, hf, hc, hx⟩ := h
  simp [Dec.gotoWaitingSync, hk, hph, hf, hc, hx]

theorem Dec.InBit0.gotoBit0_eq {d : Dec W} (h : d.InBit0) : d.gotoBit0 = { d with insync := true } := by
  obtain ⟨-, -, hk, hph, hf, hc, hx⟩ := h
  simp [Dec.gotoBit0, hk, hph, hf, hc, hx]

/-- Where a completion leaves a decoder that was in BIT_0: WT4 there again, the others in WAITING_SYNC (41_decoder_step.md R152). -/
theorem Dec.InBit0.rearmed {p : Proto} {d : Dec (Config.total p)} (h : d.InBit0) :
    (if (desc p).rearm then d.gotoBit0 else d.gotoWaitingSync) = { d with insync := decide (p = .wt4) } := by
  cases p with
  | wt4 => exact h.gotoBit0_eq
  | aur | liv | kop | quh => exact h.gotoWaitingSync_eq

/-- Settles O24: the frame completes its word, which is valid, so the completion is the repeat filter's. -/
theorem frameDeliversItsWordToTheFilter : Obligations.FrameDeliversItsWordToTheFilter := by
  intro p s w d u he hi hk hph hf hc hx hw hv hd hu
  have hb : (s.dec p).InBit0 := ⟨he, hi, hk, hph, hf, hc, hx⟩
  obtain ⟨hconst, hpar⟩ := constOk_of_validFrame hv
  have hb' := hb.withLastTs ((s.dec p).lastTs + BitVec.ofNat 32 (frameSegs (desc p) w).sum)
  have hcomp := (Dec.complete_of_valid hpar _ w).trans (congrArg (Dec.repeatFilter · w) hb'.rearmed)
  rw [exec_frameInstr, State.frame_eq hw hb hconst hcomp, hd, hu]
  rfl

/-- Settles O25: the frame completes its word, whose parity is wrong, so the completion is E4. -/
theorem frameWithAWrongParityIsRejected : Obligations.FrameWithAWrongParityIsRejected := by
  intro p s w hp hpar he hi hk hph hf hc hx hnone
  have hb : (s.dec p).InBit0 := ⟨he, hi, hk, hph, hf, hc, hx⟩
  have hw : s.Waiting := by simp [State.Waiting, hnone]
  have hconst : constOk p w := by
    rintro rfl
    have hfield : w.extractLsb' 23 3 = 0b110#3 := by simpa using hp
    rwa [← BitVec.toNat_inj, BitVec.extractLsb'_toNat, Nat.shiftRight_eq_div_pow] at hfield
  have hinvalid : completionValid (desc p) (xorOfAllBits w) = false := by
    rw [hpar]
    rcases hp with rfl | ⟨rfl, -⟩ <;> rfl
  rw [exec_frameInstr, State.frame_eq hw hb hconst (Dec.complete_of_invalid hinvalid _ w), State.answered_of_ne (by simp [hnone]),
    (hb.withLastTs _).gotoWaitingSync_eq, State.signal, State.emit, State.setDec_obs]

end Sys2Proof.Machine

namespace Sys2Proof.Machine

/-! ### The classifier over every duration (40_classifier.md R121 to R130) -/

theorem classify_eq_short_iff {C : Desc} {d : Timestamp} :
    classify C d = .short ↔ C.shortLo ≤ d.toNat ∧ d.toNat < C.shortHi := by
  unfold classify
  split_ifs <;> simp_all

theorem classify_eq_sync_iff {C : Desc} {d : Timestamp} :
    classify C d = .sync ↔ ¬ (C.shortLo ≤ d.toNat ∧ d.toNat < C.shortHi) ∧ ¬ (C.longLo ≤ d.toNat ∧ d.toNat < C.longHi)
      ∧ C.syncLo ≤ d.toNat ∧ d.toNat < C.syncHi := by
  unfold classify
  split_ifs <;> simp_all

theorem classify_eq_invalid_iff {C : Desc} {d : Timestamp} :
    classify C d = .invalid ↔ ¬ (C.shortLo ≤ d.toNat ∧ d.toNat < C.shortHi) ∧ ¬ (C.longLo ≤ d.toNat ∧ d.toNat < C.longHi)
      ∧ ¬ (C.syncLo ≤ d.toNat ∧ d.toNat < C.syncHi) := by
  unfold classify
  split_ifs <;> simp_all

/-- What 00_scope.md R12 says of the order of the window bounds. -/
theorem windows_of_meetsR12 {C : Desc} {W : Nat} (h : meetsR12 C W = true) :
    0 < C.shortLo ∧ C.shortLo < C.shortHi ∧ C.shortHi ≤ C.longLo ∧ C.longLo < C.longHi ∧ C.syncLo < C.syncHi := by
  simp only [meetsR12, Bool.and_eq_true, decide_eq_true_iff] at h
  obtain ⟨⟨⟨⟨⟨⟨⟨⟨⟨⟨hpos, hshort⟩, hgap⟩, hlong⟩, hsync⟩, -⟩, -⟩, -⟩, -⟩, -⟩, -⟩ := h
  exact ⟨hpos, hshort, hgap, hlong, hsync⟩

theorem longHi_le_syncLo {p : Proto} (h : p ≠ .wt4) : (desc p).longHi ≤ (desc p).syncLo := by
  cases p with
  | wt4 => exact absurd rfl h
  | aur | liv | kop | quh => decide

/-- A sync window above both data windows is disjoint from them, so `sync_hit` is the class SYNC (R122). -/
theorem syncHit_eq_classify_sync {C : Desc} (hs : C.shortHi ≤ C.syncLo) (hl : C.longHi ≤ C.syncLo) (d : Timestamp) :
    syncHit C d = decide (classify C d = .sync) := by
  rw [Bool.eq_iff_iff, syncHit_iff, decide_eq_true_iff, classify_eq_sync_iff]
  omega

/-- A sync window that is the SHORT window is hit by the durations of class SHORT, which `classify` tests first (R123). -/
theorem syncHit_eq_classify_short {C : Desc} (hlo : C.syncLo = C.shortLo) (hhi : C.syncHi = C.shortHi) (d : Timestamp) :
    syncHit C d = decide (classify C d = .short) := by
  rw [Bool.eq_iff_iff, syncHit_iff, decide_eq_true_iff, classify_eq_short_iff, hlo, hhi]

theorem classify_ne_sync {C : Desc} (hlo : C.syncLo = C.shortLo) (hhi : C.syncHi = C.shortHi) (d : Timestamp) :
    classify C d ≠ .sync := by
  rw [Ne, classify_eq_sync_iff, hlo, hhi]
  exact fun ⟨hshort, _, hsync⟩ => hshort hsync

/-- Settles O7: four sync windows lie above both data windows, and that of WT4 is its SHORT window. -/
theorem syncHitAgreesWithClassify : Obligations.SyncHitAgreesWithClassify := by
  refine fun p d => ⟨fun hp => ?_, ?_⟩
  · obtain ⟨-, -, hgap, hlong, -⟩ := windows_of_meetsR12 (meetsR12_desc p)
    have hsync := longHi_le_syncLo hp
    exact syncHit_eq_classify_sync (by omega) hsync d
  · rintro rfl
    exact ⟨syncHit_eq_classify_short rfl rfl d, classify_ne_sync rfl rfl d⟩

/-! The tables give each interval by its last duration, the bound `HI` of a half-open window less 1. -/

/-- The shape of the tables with a sync row of their own (R126, R128, R129, R130): seven intervals, in ascending order. -/
theorem classify_desc_of_ne_wt4 {p : Proto} (hp : p ≠ .wt4) (d : Timestamp) :
    classify (desc p) d = if d.toNat ≤ (desc p).shortLo - 1 then .invalid else if d.toNat ≤ (desc p).shortHi - 1 then .short
      else if d.toNat ≤ (desc p).longLo - 1 then .invalid else if d.toNat ≤ (desc p).longHi - 1 then .long
      else if d.toNat ≤ (desc p).syncLo - 1 then .invalid else if d.toNat ≤ (desc p).syncHi - 1 then .sync else .invalid := by
  obtain ⟨hpos, hshort, hgap, hlong, hsync⟩ := windows_of_meetsR12 (meetsR12_desc p)
  have habove := longHi_le_syncLo hp
  split_ifs
  · exact classify_eq_invalid_iff.mpr (by omega)
  · exact classify_short (by omega)
  · exact classify_eq_invalid_iff.mpr (by omega)
  · exact classify_long hgap (by omega)
  · exact classify_eq_invalid_iff.mpr (by omega)
  · exact classify_eq_sync_iff.mpr (by omega)
  · exact classify_eq_invalid_iff.mpr (by omega)

/-- The table of WT4 (R127), whose SHORT row is the sync row too: five intervals, in ascending order. -/
theorem classify_desc_wt4 (d : Timestamp) :
    classify (desc .wt4) d = if d.toNat ≤ (desc .wt4).shortLo - 1 then .invalid
      else if d.toNat ≤ (desc .wt4).shortHi - 1 then .short else if d.toNat ≤ (desc .wt4).longLo - 1 then .invalid
      else if d.toNat ≤ (desc .wt4).longHi - 1 then .long else .invalid := by
  obtain ⟨hpos, hshort, hgap, hlong, -⟩ := windows_of_meetsR12 (meetsR12_desc .wt4)
  have hlo : (desc .wt4).syncLo = (desc .wt4).shortLo := rfl
  have hhi : (desc .wt4).syncHi = (desc .wt4).shortHi := rfl
  split_ifs
  · exact classify_eq_invalid_iff.mpr (by omega)
  · exact classify_short (by omega)
  · exact classify_eq_invalid_iff.mpr (by omega)
  · exact classify_long hgap (by omega)
  · exact classify_eq_invalid_iff.mpr (by omega)

theorem syncHit_desc (p : Proto) (d : Timestamp) :
    syncHit (desc p) d = (decide ((desc p).syncLo ≤ d.toNat) && decide (d.toNat ≤ (desc p).syncHi - 1)) := by
  obtain ⟨-, -, -, -, hsync⟩ := windows_of_meetsR12 (meetsR12_desc p)
  rw [Bool.eq_iff_iff, syncHit_iff, Bool.and_eq_true, decide_eq_true_iff, decide_eq_true_iff]
  omega

/-- Settles O6: the five tables are the general ones with the bounds of each descriptor put in. -/
theorem classifierTables : Obligations.ClassifierTables := fun d =>
  ⟨⟨classify_desc_of_ne_wt4 (p := .aur) (by decide) d, syncHit_desc .aur d⟩,
    ⟨classify_desc_wt4 d, syncHit_desc .wt4 d⟩,
    ⟨classify_desc_of_ne_wt4 (p := .liv) (by decide) d, syncHit_desc .liv d⟩,
    ⟨classify_desc_of_ne_wt4 (p := .kop) (by decide) d, syncHit_desc .kop d⟩,
    ⟨classify_desc_of_ne_wt4 (p := .quh) (by decide) d, syncHit_desc .quh d⟩⟩

end Sys2Proof.Machine

namespace Sys2Proof.Machine

variable {W : Nat}

/-! ### The pulse tables of the three coding kinds (41_decoder_step.md R146 to R148) -/

theorem symStep_of_pw2 {C : Desc} (h : C.kind = .pw2) (ph first : Bool) (c : PulseClass) :
    symStep C ph first c = symStepPw2 ph c := by rw [symStep, h]

theorem symStep_of_pp {C : Desc} (h : C.kind = .pp) (ph first : Bool) (c : PulseClass) :
    symStep C ph first c = symStepPp ph first c := by rw [symStep, h]

theorem symStep_of_var {C : Desc} (h : C.kind = .var) (ph first : Bool) (c : PulseClass) :
    symStep C ph first c = symStepVar C.vlong ph c := by rw [symStep, h]

/-- Every coding kind takes a SHORT as the first pulse of a bit (41_decoder_step.md R146 to R148). -/
theorem symStep_short_first (C : Desc) (first : Bool) : symStep C false first .short = .more false := by
  cases h : C.kind with
  | pw2 => rw [symStep_of_pw2 h]; rfl
  | pp => rw [symStep_of_pp h]; rfl
  | var => rw [symStep_of_var h]; rfl

/-- Settles O9: the descriptors of each part have one coding kind (for VAR with its `VLONG`), whose table has these rows. -/
theorem symStepTables : Obligations.SymStepTables := by
  refine ⟨fun C hC first => ?_, ?_, fun x hx first => ?_⟩
  · have hk : C.kind = .pw2 := by
      rcases List.mem_pair.1 hC with rfl | rfl <;> rfl
    simp [symStep_of_pw2 hk, symStepPw2]
  · simp [symStep_of_pp (C := descKop) rfl, symStepPp]
  · obtain ⟨hk, hv⟩ : x.1.kind = .var ∧ x.1.vlong = x.2 := by
      rcases List.mem_pair.1 hx with rfl | rfl <;> exact ⟨rfl, rfl⟩
    simp [symStep_of_var hk, hv, symStepVar]

/-! ### EDGE through the step of one decoder -/

/-- EDGE in the machine is the EDGE step of its decoder's record and the outputs of what that raises. -/
theorem exec_edgeInstr_of_edge {p : Proto} {s : State} {ts : Timestamp} {d : Dec (Config.total p)}
    {e : Option (DecEvent (Config.total p))} (h : (s.dec p).edge (desc p) ts = (d, e)) :
    exec (edgeInstr p ts) s = .next ((s.setDec p d).signal p e) := by rw [exec_edgeInstr, State.edge, h]

/-- A first pulse sets `ph` and `first` (41_decoder_step.md R145). -/
theorem Dec.edge_of_first {C : Desc} {ts : Timestamp} {d : Dec W} {f : Bool} (he : d.en = true) (hi : d.insync = true)
    (hsym : symStep C d.ph d.first (classify C (ts - d.lastTs)) = .more f) :
    d.edge C ts = ({ d with lastTs := ts, ph := true, first := f }, none) := by
  rw [Dec.edge_of_bit he hi, Dec.bitStep_of_more (by exact hsym)]

/-- A bit that is not the last one is shifted in (41_decoder_step.md R149, R150). -/
theorem Dec.edge_of_next {p : Proto} {ts : Timestamp} {d : Dec (Config.total p)} {b : Bool} (he : d.en = true)
    (hi : d.insync = true) (hsym : symStep (desc p) d.ph d.first (classify (desc p) (ts - d.lastTs)) = .bit b)
    (hk : d.k.toNat + 1 ≠ Config.total p) (hconst : p = .wt4 → d.k.toNat = 8 → (2 * d.cand.toNat + b.toNat) % 8 = 6) :
    d.edge (desc p) ts =
      ({ d with
        lastTs := ts, ph := false, first := false, cand := BitVec.ofNat _ (2 * d.cand.toNat + b.toNat)
        px := xor d.px b, k := d.k + 1 }, none) := by
  have hstruct : structuralOk (desc p) (d.k.toNat + 1) (nextCand d.cand b) = true :=
    (structuralOk_iff p _ _ _).2 fun hp h9 => hconst hp (by omega)
  have hnext : BitVec.ofNat 6 (d.k.toNat + 1) = d.k + 1 := by simp [BitVec.ofNat_add]
  rw [Dec.edge_of_bit he hi, Dec.bitStep_of_bit (by exact hsym), Dec.shiftIn_of_next (by exact hstruct) (by exact hk)]
  simp only [hnext, nextCand_eq_ofNat, nextParity]

/-- The completion check reads the parity for AUR and WT4 alone (41_decoder_step.md R151, 30_encoding.md R95). -/
theorem completionValid_iff (p : Proto) (px' : Bool) :
    completionValid (desc p) px' = true ↔ (p = .aur ∨ p = .wt4 → px' = false) := by
  cases p <;> simp [completionValid, desc, descAur, descWt4, descLiv, descKop, descQuh]

/-- Where a completion leaves its decoder before the filter: WT4 in BIT_0, the others in WAITING_SYNC (41_decoder_step.md R152). -/
theorem Dec.rearm_eq {p : Proto} (d : Dec (Config.total p)) :
    (if (desc p).rearm then d.gotoBit0 else d.gotoWaitingSync) =
      { d with insync := decide (p = .wt4), k := 0, ph := false, first := false, cand := 0, px := false } := by
  cases p <;> rfl

/-- The last bit of a valid frame gives its word to the repeat filter (41_decoder_step.md R151, R152). The constant, which is
complete nine bits into the frame, is not looked at again. -/
theorem Dec.edge_of_completion {p : Proto} {ts : Timestamp} {d : Dec (Config.total p)} {b : Bool} (he : d.en = true)
    (hi : d.insync = true) (hsym : symStep (desc p) d.ph d.first (classify (desc p) (ts - d.lastTs)) = .bit b)
    (hk : d.k.toNat + 1 = Config.total p) (hpar : p = .aur ∨ p = .wt4 → xor d.px b = false) :
    d.edge (desc p) ts =
      Dec.repeatFilter
        { d with
          lastTs := ts, insync := decide (p = .wt4), k := 0, ph := false, first := false, cand := 0, px := false }
        (BitVec.ofNat _ (2 * d.cand.toNat + b.toNat)) := by
  have hstruct : structuralOk (desc p) (d.k.toNat + 1) (nextCand d.cand b) = true := by
    refine (structuralOk_iff p _ _ _).2 fun hp h9 => ?_
    subst hp
    have h32 : d.k.toNat + 1 = 32 := hk
    omega
  have hvalid : completionValid (desc p) (nextParity d.px b) = true := (completionValid_iff p _).2 hpar
  rw [Dec.edge_of_bit he hi, Dec.bitStep_of_bit (by exact hsym), Dec.shiftIn_of_last (by exact hstruct) (by exact hk),
    Dec.complete_of_valid (by exact hvalid), Dec.rearm_eq, nextCand_eq_ofNat]

/-- Settles O14: the decoder's step raises nothing, so its record is all that changes. -/
theorem edgeShiftsABitIn : Obligations.EdgeShiftsABitIn := by
  intro p s ts b he hi hsym hk hconst
  exact exec_edgeInstr_of_edge (Dec.edge_of_next he hi hsym hk.ne hconst)

/-- Settles O17: the filter only counts, for the run `nextRep` of the completed word is below the minimum. -/
theorem edgeCompletionBelowTheMinimumCounts : Obligations.EdgeCompletionBelowTheMinimumCounts := by
  rintro p s ts b w he hi hsym hk hpar rfl hrun
  have hedge := Dec.edge_of_completion he hi hsym hk hpar
  rw [Dec.repeatFilter_of_count (by exact hrun)] at hedge
  exact exec_edgeInstr_of_edge hedge

/-- Settles O10: the decoder's step leaves its record and raises nothing. -/
theorem edgeOfADisabledDecoderChangesNothing : Obligations.EdgeOfADisabledDecoderChangesNothing := by
  intro p s ts he
  rw [exec_edgeInstr, State.edge_of_disabled he]

/-- Settles O11: the step of WAITING_SYNC, with the window of the sync hit written out. -/
theorem edgeWhileWaitingForSync : Obligations.EdgeWhileWaitingForSync := by
  intro p s ts he hi
  have hedge := Dec.edge_of_waiting he hi (desc p) ts
  simp only [syncHit_iff] at hedge
  exact exec_edgeInstr_of_edge hedge

/-- Settles O13: a SHORT begins a bit in every coding, and a LONG begins one in KOP's. -/
theorem edgeWithTheFirstPulseOfABit : Obligations.EdgeWithTheFirstPulseOfABit := by
  intro p s ts he hi hph
  refine ⟨fun hshort => ?_, fun hlong hp => ?_⟩
  · exact exec_edgeInstr_of_edge (Dec.edge_of_first he hi (by rw [hph, hshort, symStep_short_first]))
  · subst hp
    exact exec_edgeInstr_of_edge (Dec.edge_of_first he hi (by rw [hph, hlong, symStep_of_pp rfl]; rfl))

end Sys2Proof.Machine

namespace Sys2Proof.Machine

variable {W : Nat}

/-! ### An illegal pulse and the sync after it (42_decoder_protocols.md R176) -/

/-- An illegal pulse takes the decoder to WAITING_SYNC and raises E1 (60_exceptions.md R260). -/
theorem Dec.edge_of_illegal {C : Desc} {ts : Timestamp} {d : Dec W} (he : d.en = true) (hi : d.insync = true)
    (hbad : IllegalPulse C d.ph d.first (classify C (ts - d.lastTs))) :
    d.edge C ts = ({ d with lastTs := ts }.gotoWaitingSync, some (.error .e1)) := by
  have hsym := (symStep_bad_iff C d.ph d.first (classify C (ts - d.lastTs))).2 hbad
  rw [Dec.edge_of_bit he hi, Dec.bitStep_of_bad (by exact hsym)]

/-- A sync hit takes the waiting decoder to BIT_0 (41_decoder_step.md R144). -/
theorem Dec.edge_of_sync {C : Desc} {ts : Timestamp} {d : Dec W} (he : d.en = true) (hi : d.insync = false)
    (hsync : syncHit C (ts - d.lastTs) = true) : d.edge C ts = ({ d with lastTs := ts }.gotoBit0, none) := by
  rw [Dec.edge_of_waiting he hi, if_pos hsync]

/-- Settles O23: the first EDGE leaves WAITING_SYNC with its instant in `last_ts`, from which the second measures its sync. -/
theorem invalidPulseThenSyncStartsAfresh : Obligations.InvalidPulseThenSyncStartsAfresh := by
  intro p s ts1 ts2 he hi hbad hsync
  have hreset : (s.edge p ts1).dec p = { s.dec p with lastTs := ts1 }.gotoWaitingSync := by
    rw [State.edge_dec_same, Dec.edge_of_illegal he hi hbad]
  refine ⟨s.edge p ts1, (s.edge p ts1).edge p ts2, exec_edgeInstr p ts1 s, ?_, exec_edgeInstr p ts2 _, ?_⟩
  · rw [hreset, Dec.gotoWaitingSync_insync]
  · rw [State.edge_dec_same, hreset, Dec.edge_of_sync (by exact he) rfl (by exact hsync)]
    rfl

end Sys2Proof.Machine

namespace Sys2Proof.Machine

variable {W : Nat}

/-! ### Runs of frames through the repeat filter, every CALLBACK answered (43_repeat_filter.md R190 to R192) -/

@[simp] theorem Dec.cbret_prev (d : Dec W) : d.cbret.prev = d.prev := by
  unfold Dec.cbret
  split <;> rfl
@[simp] theorem Dec.cbret_rep (d : Dec W) : d.cbret.rep = d.rep := by
  unfold Dec.cbret
  split <;> rfl
@[simp] theorem Dec.cbret_minrep (d : Dec W) : d.cbret.minrep = d.minrep := by
  unfold Dec.cbret
  split <;> rfl
@[simp] theorem Dec.cbret_inCb (d : Dec W) : d.cbret.inCb = false := by
  unfold Dec.cbret
  split
  case isTrue => rfl
  case isFalse h => exact Bool.eq_false_of_not_eq_true h

/-- The filter saves the completed frame in `prev`, whether it counts, delivers or drops (R191). -/
@[simp] theorem Dec.repeatFilter_prev (d : Dec W) (w : BitVec W) : (d.repeatFilter w).1.prev = w := by rw [Dec.repeatFilter_frame]

@[simp] theorem Dec.repeatFilter_minrep (d : Dec W) (w : BitVec W) : (d.repeatFilter w).1.minrep = d.minrep := by
  rw [Dec.repeatFilter_frame]

theorem Dec.nextRep_of_ne {d : Dec W} {w : BitVec W} (h : w ≠ d.prev) : d.nextRep w = 1 := by simp [Dec.nextRep, h]

theorem Dec.nextRep_of_prev {d : Dec W} {w : BitVec W} (h : d.prev = w) : d.nextRep w = d.rep.toNat + 1 := by
  simp [Dec.nextRep, h]

/-- A count that has not run past the minimum is kept modulo the minimum, and reaches 0 with the CALLBACK (R191). -/
theorem Dec.repeatFilter_mod {d : Dec W} {w : BitVec W} (hc : d.inCb = false) (hle : d.nextRep w ≤ d.minrep.toNat) :
    (d.repeatFilter w).1.rep.toNat = d.nextRep w % d.minrep.toNat
    ∧ (d.repeatFilter w).2 = if d.nextRep w % d.minrep.toNat = 0 then some (.callback w) else none := by
  rcases hle.lt_or_eq with hlt | heq
  · have hbyte : d.nextRep w < 2 ^ 8 := hlt.trans d.minrep.isLt
    have hpos : d.nextRep w ≠ 0 := Nat.succ_ne_zero _
    rw [Dec.repeatFilter_of_count hlt, Nat.mod_eq_of_lt hlt, if_neg hpos]
    exact ⟨(BitVec.toNat_ofNat _ _).trans (Nat.mod_eq_of_lt hbyte), rfl⟩
  · rw [Dec.repeatFilter_of_deliver heq.ge hc, heq, Nat.mod_self, if_pos rfl]
    exact ⟨rfl, rfl⟩

theorem filterRun_cons (d : Dec W) (w : BitVec W) (ws : List (BitVec W)) :
    filterRun d (w :: ws) =
      ((filterRun (d.repeatFilter w).1.cbret ws).1, (d.repeatFilter w).2 :: (filterRun (d.repeatFilter w).1.cbret ws).2) := rfl

/-- A run read from its end: the last frame meets the decoder that the frames before it left. -/
theorem filterRun_concat (d : Dec W) (ws : List (BitVec W)) (w : BitVec W) :
    filterRun d (ws ++ [w]) =
      (((filterRun d ws).1.repeatFilter w).1.cbret, (filterRun d ws).2 ++ [((filterRun d ws).1.repeatFilter w).2]) := by
  induction ws generalizing d with
  | nil => rfl
  | cons v ws ih => rw [List.cons_append, filterRun_cons, filterRun_cons, ih, List.cons_append]

/-- Decoder `d` stands in a run of frames `w` with minimum `N`, `r` of them after the last CALLBACK. -/
structure Dec.InRun (d : Dec W) (w : BitVec W) (N r : Nat) : Prop where
  minrep : d.minrep.toNat = N
  free : d.inCb = false
  next : d.nextRep w = r + 1

/-- One more frame of a run, and the CBRET if it called back. -/
theorem Dec.InRun.repeatFilter {d : Dec W} {w : BitVec W} {N r : Nat} (h : d.InRun w N r) (hr : r < N) :
    Dec.InRun (d.repeatFilter w).1.cbret w N ((r + 1) % N)
    ∧ (d.repeatFilter w).2 = if (r + 1) % N = 0 then some (.callback w) else none := by
  obtain ⟨rfl, hfree, hnext⟩ := h
  obtain ⟨hrep, hraised⟩ := Dec.repeatFilter_mod (w := w) hfree (by omega)
  rw [hnext] at hrep hraised
  refine ⟨⟨by simp, by simp, ?_⟩, hraised⟩
  rw [Dec.nextRep_of_prev (by simp), Dec.cbret_rep, hrep]

/-- After `n` frames of a run the count is `n` modulo the minimum, and every multiple of it has called back (R192). -/
theorem Dec.InRun.filterRun_replicate {d : Dec W} {w : BitVec W} {N : Nat} (h : d.InRun w N 0) (hN : 0 < N) (n : Nat) :
    Dec.InRun (filterRun d (List.replicate n w)).1 w N (n % N)
    ∧ (filterRun d (List.replicate n w)).2 =
        (List.range n).map fun i => if (i + 1) % N = 0 then some (.callback w) else none := by
  induction n with
  | zero => exact ⟨by rwa [Nat.zero_mod], rfl⟩
  | succ n ih =>
    obtain ⟨hrun, hraised⟩ := ih
    obtain ⟨hrun', hlast⟩ := hrun.repeatFilter (Nat.mod_lt n hN)
    rw [Nat.mod_add_mod] at hrun' hlast
    rw [List.replicate_succ', filterRun_concat, List.range_succ, List.map_append]
    exact ⟨hrun', by rw [hraised, hlast]; rfl⟩

theorem filterRun_replicate_prev (d : Dec W) (w : BitVec W) {n : Nat} (hn : 0 < n) :
    (filterRun d (List.replicate n w)).1.prev = w := by
  obtain ⟨m, rfl⟩ := Nat.exists_eq_add_of_lt hn
  rw [Nat.zero_add, List.replicate_succ', filterRun_concat, Dec.cbret_prev, Dec.repeatFilter_prev]

/-- Settles O26: the decoder starts the run at 0 frames, and `prev` is `w` after the first of them, so `rep` is the count. -/
theorem repeatRunCallsBackOncePerN : Obligations.RepeatRunCallsBackOncePerN := by
  intro p d w n hmin hfree hstart
  have hnext : d.nextRep w = 0 + 1 := by
    by_cases hw : d.prev = w
    · rw [Dec.nextRep_of_prev hw, hstart.resolve_right (not_not_intro hw)]
      rfl
    · exact Dec.nextRep_of_ne (Ne.symm hw)
  obtain ⟨hrun, hraised⟩ := Dec.InRun.filterRun_replicate ⟨rfl, hfree, hnext⟩ hmin n
  refine ⟨hraised, fun hn => ?_⟩
  have hprev := filterRun_replicate_prev d w hn
  exact ⟨Nat.succ.inj ((Dec.nextRep_of_prev hprev).symm.trans hrun.next), hprev⟩

/-- A frame unlike the one before it is the first of its run, which under a minimum of 2 or more raises nothing (R190, R191). -/
theorem Dec.repeatFilter_of_ne {d : Dec W} {w : BitVec W} (hmin : 2 ≤ d.minrep.toNat) (h : w ≠ d.prev) :
    d.repeatFilter w = ({ d with prev := w, rep := 1 }, none) := by
  have hnext := Dec.nextRep_of_ne h
  rw [Dec.repeatFilter_of_count (by omega), hnext]
  rfl

/-- Settles O27, by induction on the words: each leaves itself in `prev`, which the next one differs from. -/
theorem runWithoutRepeatsNeverCallsBack : Obligations.RunWithoutRepeatsNeverCallsBack := by
  intro p d w ws hmin hne hchain
  induction ws generalizing d w with
  | nil =>
    rw [filterRun_cons, Dec.repeatFilter_of_ne hmin hne]
    exact ⟨rfl, Dec.cbret_rep _, Dec.cbret_prev _⟩
  | cons v ws ih =>
    obtain ⟨hv, hchain'⟩ := List.isChain_cons_cons.1 hchain
    obtain ⟨hraised, hrep, hprev⟩ := ih (d.repeatFilter w).1.cbret v (by simpa using hmin) (by simpa using hv) hchain'
    rw [filterRun_cons d w]
    refine ⟨?_, hrep, ?_⟩
    · rw [hraised, Dec.repeatFilter_of_ne hmin hne]
      rfl
    · rw [hprev, List.getLast_cons_cons]

end Sys2Proof.Machine

namespace Sys2Proof.Machine

variable {W : Nat}

/-! ### Trap entry, the drop, and CBRET in the machine (44_dispatcher.md R201 to R203) -/

/-- A CALLBACK raises the strobe of its own decoder, next to the write of that decoder's record (R201). -/
theorem State.signal_callback_setDec (s : State) (p : Proto) (d : Dec (Config.total p)) (w : BitVec (Config.total p)) :
    (s.setDec p d).signal p (some (.callback w)) =
      { s.setDec p d with msgStb := s.msgStb.set p true, obs := s.obs ++ [.callback p (w.setWidth 36)] } := by
  simp [State.signal, State.emit]

/-- A drop is only recorded: no strobe is raised (R202). -/
theorem State.signal_drop_setDec (s : State) (p : Proto) (d : Dec (Config.total p)) (w : BitVec (Config.total p)) :
    (s.setDec p d).signal p (some (.drop w)) = { s.setDec p d with obs := s.obs ++ [.drop p (w.setWidth 36)] } := by
  simp [State.signal, State.emit]

/-- CBRET from a callback in progress (R203). -/
theorem Dec.cbret_of_inCb {d : Dec W} (h : d.inCb = true) : d.cbret = { d with inCb := false }.gotoWaitingSync := if_pos h

/-- CBRET without a callback in progress is ignored (R203). -/
theorem Dec.cbret_of_free {d : Dec W} (h : d.inCb = false) : d.cbret = d := if_neg (by simp [h])

/-- Settles O18: the filter, which a completion calls after the re-arm, delivers the word, for `in_cb` is clear. -/
theorem edgeCompletionAtTheMinimumCallsBack : Obligations.EdgeCompletionAtTheMinimumCallsBack := by
  rintro p s ts b w he hi hsym hk hpar rfl hrun hfree
  have hedge := Dec.edge_of_completion he hi hsym hk hpar
  rw [Dec.repeatFilter_of_deliver (by exact hrun) (by exact hfree)] at hedge
  rw [exec_edgeInstr_of_edge hedge, State.signal_callback_setDec]

/-- Settles O19: the same call of the filter drops the word, for `in_cb` is set; the run has ended before the dispatch. -/
theorem edgeCompletionDuringACallbackIsDropped : Obligations.EdgeCompletionDuringACallbackIsDropped := by
  rintro p s ts b w he hi hsym hk hpar rfl hrun hbusy
  have hedge := Dec.edge_of_completion he hi hsym hk hpar
  rw [Dec.repeatFilter_of_drop (by exact hrun) (by exact hbusy)] at hedge
  rw [exec_edgeInstr_of_edge hedge, State.signal_drop_setDec]

/-- Settles O29: CBRET in the machine is the CBRET of its decoder's record, in its two cases. -/
theorem cbretReturnsFromTheCallback : Obligations.CbretReturnsFromTheCallback := by
  intro p s
  refine ⟨decodeCommand_cbret p, fun hbusy => ?_, fun hfree => ?_⟩
  · rw [exec_cbretInstr, State.cbret, Dec.cbret_of_inCb hbusy, Dec.gotoWaitingSync]
  · rw [exec_cbretInstr, State.cbret, Dec.cbret_of_free hfree, State.setDec_dec]

end Sys2Proof.Machine

namespace Sys2Proof.Machine

variable {W : Nat}

/-! ### POLL and the wait of an ISRECV (45_control_ops.md R214 to R217) -/

/-- The threshold of R214, with `RECV_BITS` written out. -/
theorem Dec.receiving_iff (d : Dec W) : d.receiving = true ↔ d.insync = true ∧ 4 ≤ d.k.toNat := by
  rw [Dec.receiving, Bool.and_eq_true, decide_eq_true_iff, Config.recvBits]

/-- What the POLL after an operation does to a pending ISRECV: the answer 1 where its decoder is receiving, else nothing (R216). -/
theorem State.isrecvPoll_of_some {s : State} {r : Isrecv} (h : s.isrecv = some r) :
    s.isrecvPoll =
      if (s.dec r.p).insync = true ∧ 4 ≤ (s.dec r.p).k.toNat then { s with isrecv := none }.answer true else s := by
  simp only [State.isrecvPoll, h, Dec.receiving_iff]

/-- `s` while the ISRECV `r` waits in it, with `n` ticks as the operations left to do. The wait changes nothing of `s` itself. -/
def State.awaiting (s : State) (r : Isrecv) (n : Nat) (o : List Obs) : State :=
  { s with isrecv := some r, todo := List.replicate n .msTick, obs := o }

@[simp] theorem State.awaiting_dec (s : State) (r : Isrecv) (n : Nat) (o : List Obs) (p : Proto) :
    (s.awaiting r n o).dec p = s.dec p := by cases p <;> rfl

theorem State.awaiting_of_isrecv {s : State} {r : Isrecv} (h : s.isrecv = some r) (n : Nat) :
    s.awaiting r n s.obs = { s with todo := List.replicate n .msTick } := by rw [State.awaiting, ← h]

/-- The step of a millisecond tick. -/
theorem step_of_msTick {s : State} {rest : List Pending} (htodo : s.todo = .msTick :: rest) :
    step s = .next s.beginStep.msTick := by
  simp only [step, htodo, State.runPending, State.beginStep_of_tail (s := s) (rest := rest) (by rw [htodo]; rfl)]

/-- A tick before the bound is counted, and nothing else (R217). -/
theorem step_awaiting_of_left {r : Isrecv} (hr : r.ticksLeft ≠ 0) (s : State) (n : Nat) (o : List Obs) :
    step (s.awaiting r (n + 1) o) = .next (s.awaiting { r with ticksLeft := r.ticksLeft - 1 } n []) := by
  rw [step_of_msTick (rest := List.replicate n .msTick) rfl]
  simp only [State.msTick, State.beginStep, State.awaiting, if_neg hr]
  rfl

/-- The tick of the bound makes the last POLL, and the ISRECV ends with its answer (R217). -/
theorem step_awaiting_of_bound {r : Isrecv} (hr : r.ticksLeft = 0) (s : State) (n : Nat) (o : List Obs) :
    step (s.awaiting r (n + 1) o) =
      .next { s with
        todo := List.replicate n .msTick, isrecv := none, resStb := true, res := (s.dec r.p).receiving
        obs := [.result (s.dec r.p).receiving] } := by
  rw [step_of_msTick (rest := List.replicate n .msTick) rfl, ← s.awaiting_dec r (n + 1) o, ← State.beginStep_dec]
  simp only [State.msTick, State.beginStep, State.awaiting, if_pos hr]
  rfl

/-- A pending ISRECV counts `j` ticks towards its bound in `j` steps, and nothing else happens (R217). -/
theorem core_run_awaiting (s : State) (m : Nat) {j : Nat} {r : Isrecv} (hj : j ≤ r.ticksLeft.toNat) (o : List Obs) :
    ∃ o', Sys2Proof.core.run j (s.awaiting r (j + m) o) =
      .next (s.awaiting { r with ticksLeft := r.ticksLeft - BitVec.ofNat 16 j } m o') := by
  induction j generalizing r o with
  | zero => exact ⟨o, by simp [Host.Core.run]⟩
  | succ j ih =>
    have hleft : r.ticksLeft ≠ 0 := by intro h; simp [h] at hj
    obtain ⟨o', ho'⟩ := ih (r := { r with ticksLeft := r.ticksLeft - 1 }) (by bv_omega) []
    have hcount : r.ticksLeft - 1 - BitVec.ofNat 16 j = r.ticksLeft - BitVec.ofNat 16 (j + 1) := by bv_omega
    rw [Nat.succ_add, core_run_succ (step_awaiting_of_left hleft s (j + m) o), ho', hcount]
    exact ⟨o', rfl⟩

/-- A run in two parts. -/
theorem run_add_of_next (M : Host.Core) {j : Nat} {s t : M.State} (h : M.run j s = .next t) (k : Nat) :
    M.run (j + k) s = M.run k t := by
  induction j generalizing s with
  | zero => cases h; rw [Nat.zero_add]
  | succ j ih =>
    rw [Host.Core.run] at h
    split at h
    next u hu => rw [Nat.succ_add, run_succ_of_next M hu, ih h]
    all_goals cases h

/-- Settles O35: `n` ticks are counted, by induction on their number, and the next is the tick of the bound. -/
theorem isrecvEndsAtTheTickAfterItsTimeout : Obligations.IsrecvEndsAtTheTickAfterItsTimeout := by
  intro s r hr hidle
  rw [← State.awaiting_of_isrecv hr]
  constructor
  · intro j hj
    obtain ⟨m, hm⟩ := Nat.exists_eq_add_of_le (Nat.le_add_right_of_le (k := 1) hj)
    obtain ⟨o, ho⟩ := core_run_awaiting s m hj s.obs
    rw [hm]
    exact ⟨_, ho, rfl, rfl⟩
  · obtain ⟨o, ho⟩ := core_run_awaiting s 1 le_rfl s.obs
    rw [run_add_of_next Sys2Proof.core ho, core_run_succ (step_awaiting_of_bound (by simp) s 0 o), hidle]
    rfl

/-! ### What is taken during an ISRECV (R218) -/

section
variable (p : Proto)

@[simp] theorem takenDuringIsrecv_edgeInstr (ts : Timestamp) : takenDuringIsrecv (edgeInstr p ts) = true := by cases p <;> rfl
@[simp] theorem takenDuringIsrecv_enableInstr : takenDuringIsrecv (enableInstr p) = false := by cases p <;> rfl
@[simp] theorem takenDuringIsrecv_disableInstr : takenDuringIsrecv (disableInstr p) = false := by cases p <;> rfl
@[simp] theorem takenDuringIsrecv_initInstr (minrep irq : BitVec 8) : takenDuringIsrecv (initInstr p minrep irq) = false := by
  cases p <;> rfl
@[simp] theorem takenDuringIsrecv_pollInstr : takenDuringIsrecv (pollInstr p) = false := by cases p <;> rfl
@[simp] theorem takenDuringIsrecv_isrecvInstr (timeoutMs : BitVec 16) : takenDuringIsrecv (isrecvInstr p timeoutMs) = false := by
  cases p <;> rfl
@[simp] theorem takenDuringIsrecv_cbretInstr : takenDuringIsrecv (cbretInstr p) = true := by cases p <;> rfl

end

/-- The operation of a command is taken during an ISRECV by its code: 1 is EDGE, 7 is CBRET (30_encoding.md R101). -/
theorem takenDuringIsrecv_of_decodeCommand {cmd : CmdByte} {a : ArgA} {b : ArgB} {i : Instr}
    (h : decodeCommand cmd a b = .ok i) :
    takenDuringIsrecv i = true ↔ (cmd.extractLsb' 4 4).toNat = 1 ∨ (cmd.extractLsb' 4 4).toNat = 7 := by
  obtain ⟨h3, hp, hlo, hhi⟩ := (decoderJudgesACommandByItsThreeFields cmd a b).1.1 ⟨i, h⟩
  obtain ⟨p, hpid⟩ := protoOfPid_of_lt hp
  simp only [decodeCommand, h3, hpid] at h
  generalize (cmd.extractLsb' 4 4).toNat = op at h hlo hhi
  interval_cases op <;> cases h <;> simp [takenDuringIsrecv_sendInstr]

/-- The step of an operation that is taken in every state: the operation, then the POLL of a pending ISRECV (R216). -/
theorem step_of_taken {s t : State} {word : OpWord} {rest : List Pending} {i : Instr} (htodo : s.todo = .op word :: rest)
    (hw : decode word = .ok i) (hi : takenDuringIsrecv i = true) (h : exec i s.beginStep = .next t) :
    step s = .next t.isrecvPoll :=
  step_of_op htodo hw ((State.accepts_iff _ i).2 (.inr hi)) h

/-- The step of a command that is not taken: the decoder refuses it, or the ISRECV shuts it out. -/
theorem step_of_command_notTaken {s : State} {r : Isrecv} {cmd : CmdByte} {a : ArgA} {b : ArgB} {rest : List Pending}
    (hr : s.isrecv = some r) (htodo : s.todo = .op (.command cmd a b) :: rest) (h1 : (cmd.extractLsb' 4 4).toNat ≠ 1)
    (h7 : (cmd.extractLsb' 4 4).toNat ≠ 7) : step s = .next s.beginStep := by
  cases hw : decodeCommand cmd a b with
  | error e => exact step_of_reserved htodo hw
  | ok i =>
    have hi : ¬ takenDuringIsrecv i = true := by rw [takenDuringIsrecv_of_decodeCommand hw]; exact not_or.2 ⟨h1, h7⟩
    exact step_of_notTaken htodo hw (by simp [State.accepts, hr, hi])

/-- Settles O36: the EDGE leaves the ISRECV pending, so the step ends with its POLL. -/
theorem isrecvEndsWhenReceptionIsSeen : Obligations.IsrecvEndsWhenReceptionIsSeen := by
  intro s t r q ts rest hr htodo hexec
  rw [State.beginStep_of_tail (by rw [htodo]; rfl)] at hexec
  obtain rfl : s.beginStep.edge q ts = t := by simpa using hexec
  have hpending : (s.beginStep.edge q ts).isrecv = some r := by rw [State.edge_isrecv]; exact hr
  rw [step_of_taken htodo rfl (takenDuringIsrecv_edgeInstr q ts) hexec, State.isrecvPoll_of_some hpending]
  rfl

/-- Settles O37: a command is refused or shut out by its code, and EDGE and CBRET are taken in every state. -/
theorem commandsDuringAnIsrecv : Obligations.CommandsDuringAnIsrecv := by
  intro s r cmd a b rest hr htodo
  rw [State.beginStep_of_tail (by rw [htodo]; rfl)]
  refine ⟨step_of_command_notTaken hr htodo, fun p => ⟨?_, ?_⟩⟩
  · rintro rfl
    exact ⟨_, exec_edgeInstr p _ _, step_of_taken htodo (decodeCommand_edge p a b) (by simp) (exec_edgeInstr p _ _)⟩
  · rintro rfl
    exact ⟨_, exec_cbretInstr p _, step_of_taken htodo (decodeCommand_cbret p a b) (by simp) (exec_cbretInstr p _)⟩

/-! ### The control operations themselves (R211 to R216) -/

/-- Settles O30. -/
theorem enableResult : Obligations.EnableResult := by
  intro p s
  refine ⟨decodeCommand_enable p, ?_⟩
  rw [exec_enableInstr, State.enable, Dec.enable, Dec.gotoWaitingSync]

/-- Settles O31. -/
theorem disableResult : Obligations.DisableResult := by
  intro p s
  refine ⟨decodeCommand_disable p, ?_⟩
  rw [exec_disableInstr, State.disable, Dec.disable]

/-- Settles O32: the minimum is the low bits of `arg_a`, and the record after INIT is written out. -/
theorem initResult : Obligations.InitResult := by
  intro p s minrep irq
  constructor
  · rintro a rfl
    exact decodeCommand_init p a irq
  · rw [exec_initInstr, State.initDec, Dec.init, Dec.gotoWaitingSync]

/-- Settles O33: the answer is `receiving`, whose threshold R214 gives. -/
theorem pollAnswersReceiving : Obligations.PollAnswersReceiving := by
  rintro p s b rfl
  refine ⟨decodeCommand_poll p, ?_⟩
  rw [exec_pollInstr, State.poll, State.answer, State.emit, Dec.receiving, Config.recvBits]

/-- Settles O34: the first POLL answers or leaves the ISRECV to wait, as `receiving` says. -/
theorem isrecvStartsWithAPoll : Obligations.IsrecvStartsWithAPoll := by
  intro p s timeoutMs _
  rw [exec_isrecvInstr, State.isrecvStart, ← Dec.receiving_iff]
  refine ⟨fun hrecv => ?_, fun hidle => ?_⟩
  · rw [if_pos hrecv, State.answer, State.emit]
  · rw [if_neg hidle]

end Sys2Proof.Machine

namespace Sys2Proof

variable {α : Type}

@[simp] theorem PerProto.set_set (x : PerProto α) (p : Proto) (v v' : α) : (x.set p v).set p v' = x.set p v' := by
  cases p <;> rfl

end Sys2Proof

namespace Sys2Proof.Machine

variable {W : Nat}

/-! ### SEND and TXSTEP as operations (46_encoder.md R233, R237) -/

/-- Settles O38: each SEND is the accepted SEND of its own frame word, and every protocol but AUR has its encoder. -/
theorem sendLoadsTheBurst : Obligations.SendLoadsTheBurst := by
  intro s n hb hn
  exact ⟨fun addr temp n1 n2 htx => congrArg Host.Outcome.next (State.send_of_accept (p := .aur) htx hb hn _),
    fun addr chan hum temp => congrArg Host.Outcome.next (State.send_of_accept (p := .wt4) rfl hb hn _),
    fun addr unit => congrArg Host.Outcome.next (State.send_of_accept (p := .liv) rfl hb hn _),
    fun addr unit => congrArg Host.Outcome.next (State.send_of_accept (p := .kop) rfl hb hn _),
    fun addr unit => congrArg Host.Outcome.next (State.send_of_accept (p := .quh) rfl hb hn _)⟩

/-- Settles O39: the three ways in which a SEND does nothing. -/
theorem sendIsIgnored : Obligations.SendIsIgnored := by
  intro s p a n h
  have hignore : txPresent s.params p = false ∨ s.enc.busy = true ∨ n = 0 := by
    rcases h with hb | hn | ⟨rfl, htx⟩
    · exact .inr (.inl hb)
    · exact .inr (.inr hn)
    · exact .inl htx
  rw [exec_sendInstr, State.send_of_ignore hignore]

/-- Settles O43: the three cases of TXSTEP with their records written out. -/
theorem txstepTakesOneSegment : Obligations.TxstepTakesOneSegment := by
  intro s
  refine ⟨fun hb => ?_, fun hb hq => ?_, fun d rest hb hq => ?_⟩
  · rw [exec_txstep, State.txstep_of_idle hb]
  · rw [exec_txstep, State.txstep_of_end hb hq, State.txEnd]
  · rw [exec_txstep, State.txstep_of_segment hb hq, State.txSegment, State.emit]

/-! ### The segments of a burst (46_encoder.md R235, R236, R244) -/

/-- Settles O40: the terminator makes the number odd, and every segment is a nominal duration of the protocol. -/
theorem burstHasOddLengthAndSmallSegments : Obligations.BurstHasOddLengthAndSmallSegments :=
  fun p w n => ⟨burst_length_mod_two (desc p) w n, burst_bounds p w n⟩

theorem burstBody_succ (C : Desc) (w : BitVec W) (n : Nat) :
    burstBody C w (n + 1) = burstBody C w n ++ burstFrame C w n := by simp [burstBody, List.range_succ]

theorem desc_syncPerFrame_iff (p : Proto) : (desc p).syncPerFrame = true ↔ p ≠ .wt4 := by cases p <;> decide

theorem burst_ne_nil (C : Desc) (w : BitVec W) (n : Nat) : burst C w n ≠ [] := by
  intro h
  have hodd := burst_length_mod_two C w n
  simp [h] at hodd

theorem burstFrame_sum (C : Desc) (w : BitVec W) (f : Nat) :
    (burstFrame C w f).sum = (if C.syncPerFrame || f == 0 then C.syncNom else 0) + (frameSegs C w).sum := by
  rw [burstFrame, List.sum_append]
  split <;> simp

/-- A body with a sync before every frame. -/
theorem burstBody_sum_of_sync {C : Desc} (h : C.syncPerFrame = true) (w : BitVec W) (n : Nat) :
    (burstBody C w n).sum = n * (C.syncNom + (frameSegs C w).sum) := by
  induction n with
  | zero => simp [burstBody]
  | succ n ih => rw [burstBody_succ, List.sum_append, ih, burstFrame_sum, h, Nat.succ_mul]; simp

/-- A body with one sync before its first frame. -/
theorem burstBody_sum_of_rearm {C : Desc} (h : C.syncPerFrame = false) (w : BitVec W) {n : Nat} (hn : 1 ≤ n) :
    (burstBody C w n).sum = C.syncNom + n * (frameSegs C w).sum := by
  induction n, hn using Nat.le_induction with
  | base => rw [burstBody_succ, List.sum_append, burstFrame_sum]; simp [burstBody]
  | succ n hn ih =>
    have hlater : (C.syncPerFrame || n == 0) = false := by simp [h, Nat.one_le_iff_ne_zero.1 hn]
    rw [burstBody_succ, List.sum_append, ih, burstFrame_sum, hlater, Nat.succ_mul]
    simp [Nat.add_assoc]

theorem burst_sum (C : Desc) (w : BitVec W) (n : Nat) :
    (burst C w n).sum = (burstBody C w n).sum + if (burstBody C w n).length % 2 = 0 then C.shortNom else 0 := by
  unfold burst
  dsimp only
  split <;> simp

/-- Settles O41: WT4 is the one protocol whose later frames have no sync. -/
theorem burstLastsItsFramesAndTerminator : Obligations.BurstLastsItsFramesAndTerminator := by
  intro p w n hn
  rw [burst_sum]
  by_cases hp : p = .wt4
  · have hsync : (desc p).syncPerFrame = false := by rw [hp]; rfl
    rw [if_pos hp, burstBody_sum_of_rearm hsync w hn]
  · rw [if_neg hp, burstBody_sum_of_sync ((desc_syncPerFrame_iff p).2 hp)]

/-! ### A burst from its SEND to its last TXSTEP (46_encoder.md R237, R243) -/

/-- Every protocol but AUR has an encoder (46_encoder.md R231). -/
theorem txPresent_iff (q : Params) (p : Proto) : txPresent q p = true ↔ (p = .aur → q.txPresentAur = true) := by
  cases p <;> simp [txPresent]

/-- Encoder `p` is in the middle of a burst. -/
structure State.Sending (s : State) (p : Proto) : Prop where
  inv : Enc.Inv s.params s.enc
  busy : s.enc.busy = true
  proto : s.enc.p = p

/-- While a burst runs every TXSTEP toggles the pin. So does the last: no segment is left, an even number of them, so the pin is HIGH
(46_encoder.md R236, R237). -/
theorem State.Sending.txstep_toggles {s : State} {p : Proto} (h : s.Sending p) :
    s.txstep.enc.level.get p = !s.enc.level.get p := by
  obtain ⟨⟨-, hbusy, -⟩, hb, rfl⟩ := h
  obtain ⟨-, hlevel, -⟩ := hbusy hb
  cases hq : s.enc.queue with
  | nil => rw [State.txstep_of_end hb hq]; simp [State.txEnd, hlevel, hq]
  | cons d rest => rw [State.txstep_of_segment hb hq]; simp [State.txSegment]

theorem State.Sending.txstep {s : State} {p : Proto} (h : s.Sending p) {d : Nat} {rest : List Nat}
    (hq : s.enc.queue = d :: rest) : s.txstep.Sending p ∧ s.txstep.enc.queue = rest := by
  have hinv := State.txstep_encInv h.inv
  rw [State.txstep_of_segment h.busy hq] at hinv ⊢
  exact ⟨⟨hinv, h.busy, h.proto⟩, rfl⟩

theorem State.Sending.txstep_of_empty {s : State} {p : Proto} (h : s.Sending p) (hq : s.enc.queue = []) :
    s.txstep.enc.busy = false := by rw [State.txstep_of_end h.busy hq]; rfl

/-- An accepted SEND starts a burst on a pin that is LOW: an odd number of segments (46_encoder.md R233, R236). -/
theorem State.sending_send {s : State} {p : Proto} {n : BitVec 8} (htx : txPresent s.params p = true) (hb : s.enc.busy = false)
    (hlow : s.enc.level = allLow) (hn : n ≠ 0) (w : BitVec (Config.total p)) :
    (s.send p w n).Sending p ∧ (s.send p w n).enc.queue = burst (desc p) w n.toNat := by
  rw [State.send_of_accept htx hb hn]
  refine ⟨⟨⟨fun hb' => absurd hb' (by simp), fun _ => ⟨htx, ?_, fun q _ _ => ?_⟩, burst_bounds p w n.toNat⟩, rfl, rfl⟩, rfl⟩
  · simp [hlow, burst_length_mod_two]
  · simp [hlow]

theorem foldl_andThen_txstep (k : Nat) (s : State) :
    (List.replicate k Instr.txstep).foldl andThen (.next s) = .next (State.txstep^[k] s) := by
  induction k generalizing s with
  | zero => rfl
  | succ k ih => rw [List.replicate_succ, List.foldl_cons, andThen, exec_txstep, ih, Function.iterate_succ_apply]

/-- As many TXSTEPs as there are segments leave the burst with none, not yet ended. -/
theorem State.Sending.txstep_iterate {s : State} {p : Proto} {segs : List Nat} (h : s.Sending p) (hq : s.enc.queue = segs) :
    (State.txstep^[segs.length] s).Sending p ∧ (State.txstep^[segs.length] s).enc.queue = [] := by
  induction segs generalizing s with
  | nil => exact ⟨h, hq⟩
  | cons d rest ih =>
    obtain ⟨h', hq'⟩ := h.txstep hq
    exact ih h' hq'

theorem State.Sending.level_of_empty {s : State} {p : Proto} (h : s.Sending p) (hq : s.enc.queue = []) :
    s.enc.level.get p = true := by
  obtain ⟨⟨-, hbusy, -⟩, hb, rfl⟩ := h
  obtain ⟨-, hlevel, -⟩ := hbusy hb
  simpa [hq] using hlevel

/-- One TXSTEP more ends the burst, whose segments have been put out. -/
theorem State.txstep_iterate_burst {s : State} {segs : List Nat} (hb : s.enc.busy = true) (hq : s.enc.queue = segs) :
    State.txstep^[segs.length + 1] s = { s with
      enc := { busy := false, p := s.enc.p, queue := [], level := s.enc.level.set s.enc.p false, left := 0 }
      obs := s.obs ++ segmentsFrom s.enc.p (s.enc.level.get s.enc.p) segs } := by
  induction segs generalizing s with
  | nil =>
    rw [List.length_nil, Function.iterate_one, State.txstep_of_end hb hq]
    simp [State.txEnd, hq, segmentsFrom]
  | cons d rest ih =>
    rw [List.length_cons, Function.iterate_succ_apply, State.txstep_of_segment hb hq, ih (by exact hb) rfl]
    simp [State.txSegment, State.emit, segmentsFrom]

/-- Settles O44: the SEND loads the segments, which the TXSTEPs put out one by one, by induction on them. -/
theorem sendAndItsTxstepsPutOutTheBurst : Obligations.SendAndItsTxstepsPutOutTheBurst := by
  intro s p a n segs hb hlow hn htx hsegs
  have htx' := (txPresent_iff s.params p).2 htx
  obtain ⟨hs, hq⟩ := State.sending_send htx' hb hlow hn (sendWord p a)
  rw [← hsegs] at hq
  rw [exec_sendInstr, foldl_andThen_txstep, foldl_andThen_txstep]
  constructor
  · obtain ⟨hs', hq'⟩ := hs.txstep_iterate hq
    exact ⟨_, rfl, hs'.busy, hq', hs'.level_of_empty hq'⟩
  · have hlow' : allLow.set p false = allLow := by cases p <;> rfl
    rw [State.txstep_iterate_burst hs.busy hq, State.send_of_accept htx' hb hn]
    simp [hlow, hlow']

/-! ### The down-counter (46_encoder.md R244) -/

/-- The clock of a cycle in which nothing arrives. -/
theorem State.clock_of_no_input {s : State} (h : s.inputs = []) :
    s.clock.enc = { s.enc with left := s.enc.left - 1 } ∧ s.clock.todo = s.todo ∧ s.clock.inputs = [] := by
  obtain ⟨henc, htodo, hin, -⟩ := s.nextCycle_fields
  have hclock : s.clock = s.nextCycle := by simp [State.clock, h]
  rw [hclock]
  exact ⟨henc, htodo, hin.trans h⟩

/-- While nothing arrives and no TXSTEP is due, the steps are cycles, which the down-counter counts. -/
theorem core_run_of_counting {s : State} {k : Nat} (htodo : s.todo = []) (hin : s.inputs = []) (hk : k ≤ s.enc.left) :
    ∃ t, Sys2Proof.core.run k s = .next t ∧ t.enc = { s.enc with left := s.enc.left - k } ∧ t.todo = [] := by
  induction k generalizing s with
  | zero => exact ⟨s, rfl, rfl, htodo⟩
  | succ k ih =>
    obtain ⟨henc, htodo', hin'⟩ := State.clock_of_no_input (s := s.beginStep) hin
    rw [State.beginStep_enc] at henc
    have hempty : s.beginStep.clock.todo = [] := by rw [htodo', State.beginStep, htodo]; rfl
    obtain ⟨t, hrun, hleft, ht⟩ := ih hempty hin' (by rw [henc]; exact Nat.le_sub_one_of_lt hk)
    rw [core_run_succ (step_of_idle htodo fun h => by omega)]
    refine ⟨t, hrun, ?_, ht⟩
    rw [hleft, henc, Nat.sub_sub, Nat.add_comm 1 k]

/-- Settles O45: the counter counts the cycles, and at 0 the TXSTEP is due. -/
theorem segmentLastsItsDuration : Obligations.SegmentLastsItsDuration := by
  intro s k hb htodo hin hk
  obtain ⟨t, hrun, henc, ht⟩ := core_run_of_counting htodo hin hk
  refine ⟨t, hrun, henc, ht, fun hleft => ?_⟩
  have hdue : t.txDue = true := (State.txDue_iff t).2 (by rw [henc, hleft]; exact ⟨hb, Nat.sub_self _⟩)
  rw [State.beginStep_of_nil ht]
  exact ⟨_, exec_txstep _, step_of_txDue ht hdue⟩

end Sys2Proof.Machine

namespace Sys2Proof.Machine

variable {W : Nat}

/-! ### TXSTEP under LOOPBACK (30_encoding.md R106, 46_encoder.md R246) -/

/-- What a host does to a decoder between two edges: nothing outside a callback, and it neither disables the decoder nor moves its
`last_ts`. -/
structure HostAnswer (g : Dec W → Dec W) : Prop where
  acts : ActsInCallback g
  en : ∀ d, (g d).en = d.en
  lastTs : ∀ d, (g d).lastTs = d.lastTs

/-- The host that never answers. -/
theorem hostAnswer_id : HostAnswer (id : Dec W → Dec W) := ⟨actsInCallback_id, fun _ => rfl, fun _ => rfl⟩

@[simp] theorem Dec.cbret_en (d : Dec W) : d.cbret.en = d.en := by
  unfold Dec.cbret
  split <;> rfl

@[simp] theorem Dec.cbret_lastTs (d : Dec W) : d.cbret.lastTs = d.lastTs := by
  unfold Dec.cbret
  split <;> rfl

/-- The host that answers every CALLBACK at once. -/
theorem hostAnswer_cbret : HostAnswer (Dec.cbret : Dec W → Dec W) := ⟨actsInCallback_cbret, Dec.cbret_en, Dec.cbret_lastTs⟩

/-- An EDGE of decoder `p`, and what the host does after it. -/
def State.edgeBy (s : State) (p : Proto) (g : Dec (Config.total p) → Dec (Config.total p)) (ts : Timestamp) : State :=
  (s.edge p ts).setDec p (g ((s.edge p ts).dec p))

/-- The CALLBACK that a decoder's event puts out, if it is one. -/
def calledBack (p : Proto) : Option (DecEvent (Config.total p)) → List Obs
  | some (.callback w) => [.callback p (w.setWidth 36)]
  | some (.drop _) | some (.error _) | none => []

theorem State.signal_callbacksOf_same (s : State) (p : Proto) (e : Option (DecEvent (Config.total p))) :
    callbacksOf p (s.signal p e).obs = callbacksOf p s.obs ++ calledBack p e := by
  rw [State.signal_obs, callbacksOf_append]
  rcases e with _ | ⟨w⟩ | ⟨w⟩ | ⟨l⟩ <;> simp [callbacksOf, calledBack]

section
variable (s : State) (p : Proto) (g : Dec (Config.total p) → Dec (Config.total p)) (ts : Timestamp)

@[simp] theorem State.edgeBy_enc : (s.edgeBy p g ts).enc = s.enc := by simp [State.edgeBy]
@[simp] theorem State.edgeBy_params : (s.edgeBy p g ts).params = s.params := by simp [State.edgeBy]
@[simp] theorem State.edgeBy_dec : (s.edgeBy p g ts).dec p = g ((s.dec p).edge (desc p) ts).1 := by simp [State.edgeBy]

theorem State.edgeBy_callbacksOf :
    callbacksOf p (s.edgeBy p g ts).obs = callbacksOf p s.obs ++ calledBack p ((s.dec p).edge (desc p) ts).2 := by
  rw [State.edgeBy, State.setDec_obs, State.edge, State.signal_callbacksOf_same, State.setDec_obs]

end

theorem State.Sending.edgeBy {s : State} {p : Proto} (h : s.Sending p) (g : Dec (Config.total p) → Dec (Config.total p))
    (ts : Timestamp) : (s.edgeBy p g ts).Sending p :=
  ⟨by simpa using h.inv, by simpa using h.busy, by simpa using h.proto⟩

/-- One TXSTEP under LOOPBACK and what the host does after it. -/
def loopbackStepBy (p : Proto) (g : Dec (Config.total p) → Dec (Config.total p)) (x : State × Timestamp) : State × Timestamp :=
  ((loopbackStep p x).1.setDec p (g ((loopbackStep p x).1.dec p)), (loopbackStep p x).2)

/-- LOOPBACK with no CBRET is that of the host that never answers. -/
theorem loopbackRun_eq_iterate (p : Proto) (m : Nat) (x : State × Timestamp) :
    loopbackRun p m x = (loopbackStepBy p id)^[m] x := by
  induction m generalizing x with
  | zero => rfl
  | succ m ih =>
    have hstep : loopbackStepBy p id x = loopbackStep p x := by simp [loopbackStepBy]
    rw [loopbackRun, ih, Function.iterate_succ_apply, hstep]

/-- LOOPBACK with every CALLBACK answered. -/
theorem loopbackRunAnswered_eq_iterate (p : Proto) (m : Nat) (x : State × Timestamp) :
    loopbackRunAnswered p m x = (loopbackStepBy p Dec.cbret)^[m] x := by
  induction m generalizing x with
  | zero => rfl
  | succ m ih => rw [loopbackRunAnswered, ih, Function.iterate_succ_apply]; rfl

/-- While a burst runs every TXSTEP brings the EDGE of its own instant. -/
theorem loopbackStepBy_of_sending {s : State} {p : Proto} (h : s.Sending p) (g : Dec (Config.total p) → Dec (Config.total p))
    (ts : Timestamp) :
    loopbackStepBy p g (s, ts) = (s.txstep.edgeBy p g ts, ts + BitVec.ofNat 32 (s.enc.queue.headD 0)) := by
  have htoggle : s.txstep.enc.level.get p ≠ s.enc.level.get p := by simp [h.txstep_toggles]
  simp only [loopbackStepBy, loopbackStep, if_neg htoggle]
  rfl

/-- After the burst nothing is put out any more. -/
theorem loopback_idle_callbacksOf {s : State} (hb : s.enc.busy = false) (p : Proto)
    (g : Dec (Config.total p) → Dec (Config.total p)) (j : Nat) (ts : Timestamp) :
    callbacksOf p ((loopbackStepBy p g)^[j] (s, ts)).1.obs = callbacksOf p s.obs := by
  induction j generalizing s ts with
  | zero => rfl
  | succ j ih =>
    have hstep : loopbackStepBy p g (s, ts) =
        (s.setDec p (g (s.dec p)), ts + BitVec.ofNat 32 (s.enc.queue.headD 0)) := by
      simp [loopbackStepBy, loopbackStep, State.txstep_of_idle hb]
    rw [Function.iterate_succ_apply, hstep, ih (by simpa using hb), State.setDec_obs]

/-! ### The burst as pulses at the decoder -/

/-- An enabled decoder takes the instant of every edge (41_decoder_step.md R143). -/
theorem Dec.edge_lastTs {d : Dec W} (he : d.en = true) (C : Desc) (ts : Timestamp) : (d.edge C ts).1.lastTs = ts := by
  have hc := Dec.edge_cases C ts d
  generalize d.edge C ts = r at hc ⊢
  cases hc with
  | disabled h => rw [he] at h; cases h
  | complete => rw [Dec.repeatFilter_frame]
  | _ => rfl

/-- With the segment `d` on the pin, `j` TXSTEPs close it and those after it: what they call back is what decoder `p` raises on that
many pulses (46_encoder.md R232, R246). -/
theorem loopback_callbacksOf {p : Proto} {g : Dec (Config.total p) → Dec (Config.total p)} (hg : HostAnswer g) (j : Nat)
    {s : State} (hs : s.Sending p) (he : (s.dec p).en = true) (d : Nat) :
    callbacksOf p ((loopbackStepBy p g)^[j] (s, (s.dec p).lastTs + BitVec.ofNat 32 d)).1.obs =
      callbacksOf p s.obs
        ++ (Dec.pulseRun g (desc p) (s.dec p) ((d :: s.enc.queue).take j)).2.flatMap (calledBack p) := by
  induction j generalizing s d with
  | zero => simp [Dec.pulseRun]
  | succ j ih =>
    rw [Function.iterate_succ_apply, loopbackStepBy_of_sending hs, List.take_succ_cons]
    simp only [Dec.pulseRun, List.flatMap_cons, ← List.append_assoc]
    have hobs := s.txstep.edgeBy_callbacksOf p g ((s.dec p).lastTs + BitVec.ofNat 32 d)
    have hdec := s.txstep.edgeBy_dec p g ((s.dec p).lastTs + BitVec.ofNat 32 d)
    rw [State.txstep_dec, State.txstep_callbacksOf] at hobs
    rw [State.txstep_dec] at hdec
    cases hq : s.enc.queue with
    | nil =>
      rw [loopback_idle_callbacksOf (by simpa using hs.txstep_of_empty hq), hobs]
      simp [Dec.pulseRun]
    | cons x rest =>
      obtain ⟨hs', hq'⟩ := hs.txstep hq
      have he' : (g ((s.dec p).edge (desc p) ((s.dec p).lastTs + BitVec.ofNat 32 d)).1).en = true := by
        obtain ⟨hen, -⟩ := Dec.edge_keeps (desc p) ((s.dec p).lastTs + BitVec.ofNat 32 d) (s.dec p)
        rw [hg.en, hen, he]
      have ih' := ih (hs'.edgeBy g ((s.dec p).lastTs + BitVec.ofNat 32 d)) (by rw [hdec]; exact he') x
      rw [hdec, hg.lastTs, Dec.edge_lastTs he, State.edgeBy_enc, hq', hobs] at ih'
      exact ih'

/-- A decoder right after the edge at `t` that opens a burst, which is no sync hit (41_decoder_step.md R144). -/
def Dec.openedAt (d : Dec W) (t : Timestamp) : Dec W := { d with lastTs := t }

@[simp] theorem Dec.openedAt_lastTs (d : Dec W) (t : Timestamp) : (d.openedAt t).lastTs = t := rfl

theorem Dec.edge_of_opening {d : Dec W} {C : Desc} {t : Timestamp} (he : d.en = true) (hi : d.insync = false)
    (hsync : syncHit C (t - d.lastTs) = false) : d.edge C t = (d.openedAt t, none) := by
  rw [Dec.edge_of_waiting he hi, hsync]
  rfl

/-- A whole LOOPBACK from its first TXSTEP, whose edge opens the first segment and is none that the waiting decoder looks for. -/
theorem loopback_callbacksOf_of_waiting {p : Proto} {g : Dec (Config.total p) → Dec (Config.total p)} (hg : HostAnswer g)
    {s : State} (hs : s.Sending p) (hne : s.enc.queue ≠ []) (he : (s.dec p).en = true) (hi : (s.dec p).insync = false)
    (hc : (s.dec p).inCb = false) {t0 : Timestamp} (hsync : syncHit (desc p) (t0 - (s.dec p).lastTs) = false) (j : Nat) :
    callbacksOf p ((loopbackStepBy p g)^[j + 1] (s, t0)).1.obs =
      callbacksOf p s.obs
        ++ (Dec.pulseRun g (desc p) ((s.dec p).openedAt t0) (s.enc.queue.take j)).2.flatMap (calledBack p) := by
  obtain ⟨d, rest, hq⟩ := List.exists_cons_of_ne_nil hne
  obtain ⟨hs', hq'⟩ := hs.txstep hq
  have hedge := Dec.edge_of_opening he hi hsync
  have hdec := s.txstep.edgeBy_dec p g t0
  have hobs := s.txstep.edgeBy_callbacksOf p g t0
  rw [State.txstep_dec, hedge, hg.acts _ (by exact hc)] at hdec
  rw [State.txstep_dec, hedge, State.txstep_callbacksOf] at hobs
  have hrun := loopback_callbacksOf hg j (hs'.edgeBy g t0) (by rw [hdec]; exact he) d
  rw [hdec, State.edgeBy_enc, hq', hobs] at hrun
  rw [Function.iterate_succ_apply, loopbackStepBy_of_sending hs, hq]
  simpa [calledBack] using hrun

end Sys2Proof.Machine

namespace Sys2Proof.Machine

variable {W : Nat}

/-! ### A frame of a burst at the decoder -/

/-- A body starts with every shorter one, and a burst with its body. -/
theorem burstBody_isPrefix (C : Desc) (w : BitVec W) {m n : Nat} (h : m ≤ n) : burstBody C w m <+: burst C w n := by
  have hbody : burstBody C w m <+: burstBody C w n := by
    induction n, h using Nat.le_induction with
    | base => exact ⟨[], List.append_nil _⟩
    | succ n _ ih => rw [burstBody_succ]; exact ih.trans ⟨_, rfl⟩
  unfold burst
  dsimp only
  split
  · exact hbody.trans ⟨_, rfl⟩
  · exact hbody

/-- Decoder `p` stands where frame number `f` of a burst finds it: it waits for the sync pulse where that frame has one, else it is in
BIT_0 by the re-arm (46_encoder.md R235, 41_decoder_step.md R152). -/
structure Dec.ReadyFor {p : Proto} (d : Dec (Config.total p)) (f : Nat) : Prop where
  en : d.en = true
  waiting : ((desc p).syncPerFrame || f == 0) = true → d.insync = false
  bit0 : ((desc p).syncPerFrame || f == 0) = false → d.InBit0

theorem syncHit_syncNom (p : Proto) : syncHit (desc p) (BitVec.ofNat 32 (desc p).syncNom) = true := by cases p <;> decide

/-- The sync pulse of a frame takes a waiting decoder to BIT_0 (41_decoder_step.md R144). -/
theorem Dec.pulseRun_sync {p : Proto} {g : Dec (Config.total p) → Dec (Config.total p)} (hg : HostAnswer g)
    {d : Dec (Config.total p)} (he : d.en = true) (hi : d.insync = false) (hc : d.inCb = false) :
    Dec.pulseRun g (desc p) d [(desc p).syncNom] =
      ({ d with lastTs := d.lastTs + BitVec.ofNat 32 (desc p).syncNom }.gotoBit0, [none]) := by
  have hedge := Dec.edge_of_sync (ts := d.lastTs + BitVec.ofNat 32 (desc p).syncNom) he hi
    (by rw [add_sub_cancel_left]; exact syncHit_syncNom p)
  simp only [Dec.pulseRun, hedge]
  rw [hg.acts _ (by exact hc)]

theorem frameSegs_length_pos (p : Proto) (w : BitVec (Config.total p)) : 0 < (frameSegs (desc p) w).length := by
  have hlen := frameSegs_length_bounds (desc p) w (lo := 1) (hi := 2) (by cases p <;> decide)
  have := Config.total_pos p
  omega

theorem Dec.InBit0.pulseRun_frame {p : Proto} {g : Dec (Config.total p) → Dec (Config.total p)} (hg : HostAnswer g)
    {b : Dec (Config.total p)} (hb : b.InBit0) (hc : b.inCb = false) {w : BitVec (Config.total p)}
    (hv : validFrame (desc p) w = true) :
    Dec.pulseRun g (desc p) b (frameSegs (desc p) w) =
      (g (b.frameResult w).1, List.replicate ((frameSegs (desc p) w).length - 1) none ++ [(b.frameResult w).2]) :=
  Dec.pulseRun_frame hg.acts b w hv hb.en hb.insync hb.k hb.ph hb.first hb.cand hb.px hc

/-- A frame of a burst, with its sync pulse if it has one, gives its word to the filter of a decoder in BIT_0, whose run is that of the
decoder before the frame; no edge but the last raises anything. -/
theorem Dec.ReadyFor.pulseRun_eq {p : Proto} {g : Dec (Config.total p) → Dec (Config.total p)} (hg : HostAnswer g)
    {d : Dec (Config.total p)} {w : BitVec (Config.total p)} (hv : validFrame (desc p) w = true) {f N r : Nat}
    (hd : d.ReadyFor f) (hrun : d.InRun w N r) :
    ∃ b : Dec (Config.total p), b.InBit0 ∧ b.InRun w N r ∧
      Dec.pulseRun g (desc p) d (burstFrame (desc p) w f) =
        (g (b.frameResult w).1,
          List.replicate ((burstFrame (desc p) w f).length - 1) none ++ [(b.frameResult w).2]) := by
  obtain ⟨hmin, hfree, hnext⟩ := hrun
  cases hf : (desc p).syncPerFrame || f == 0 with
  | false =>
    refine ⟨d, hd.bit0 hf, ⟨hmin, hfree, hnext⟩, ?_⟩
    simpa [burstFrame, hf] using (hd.bit0 hf).pulseRun_frame hg hfree hv
  | true =>
    have hsync := Dec.pulseRun_sync hg hd.en (hd.waiting hf) hfree
    have hb : Dec.InBit0 { d with lastTs := d.lastTs + BitVec.ofNat 32 (desc p).syncNom }.gotoBit0 :=
      ⟨hd.en, rfl, rfl, rfl, rfl, rfl, rfl⟩
    have hlen : (burstFrame (desc p) w f).length - 1 = ((frameSegs (desc p) w).length - 1) + 1 := by
      have := frameSegs_length_pos p w
      rw [burstFrame, if_pos hf, List.length_append, List.length_singleton]
      omega
    refine ⟨_, hb, ⟨hmin, hfree, hnext⟩, ?_⟩
    rw [hlen, List.replicate_succ, burstFrame, if_pos hf, Dec.pulseRun_append, hsync]
    simp only [hb.pulseRun_frame hg hfree hv, List.cons_append, List.nil_append]

theorem desc_rearm_eq_not_syncPerFrame (p : Proto) : (desc p).rearm = !(desc p).syncPerFrame := by cases p <;> rfl

/-- After a completed frame and the CBRET, if it called back, a decoder that re-syncs for each frame waits for the next sync. -/
theorem Dec.frameResult_cbret_insync {p : Proto} (b : Dec (Config.total p)) (w : BitVec (Config.total p))
    (h : (desc p).syncPerFrame = true) : (b.frameResult w).1.cbret.insync = false := by
  have hwait : (b.frameResult w).1.insync = false := by
    rw [Dec.frameResult, Dec.repeatFilter_frame, desc_rearm_eq_not_syncPerFrame, h]; rfl
  unfold Dec.cbret
  split
  · rfl
  · exact hwait

/-- After a completed frame that has not called back a decoder that re-arms is in BIT_0 again. -/
theorem Dec.InBit0.frameResult {p : Proto} {b : Dec (Config.total p)} (hb : b.InBit0) (w : BitVec (Config.total p))
    (h : (desc p).syncPerFrame = false) : (b.frameResult w).1.InBit0 := by
  rw [Dec.frameResult, Dec.repeatFilter_frame, desc_rearm_eq_not_syncPerFrame, h]
  obtain ⟨he, -, hk, hp, hf, hc, hx⟩ := hb
  exact ⟨he, rfl, hk, hp, hf, hc, hx⟩

/-- The filter takes a frame of a burst into the run, and a host that answers at once leaves the decoder as CBRET does. -/
theorem Dec.InRun.frameResult {p : Proto} {b : Dec (Config.total p)} {w : BitVec (Config.total p)} {N r : Nat}
    (h : b.InRun w N r) (hr : r < N) :
    Dec.InRun (b.frameResult w).1.cbret w N ((r + 1) % N)
    ∧ (b.frameResult w).2 = if (r + 1) % N = 0 then some (.callback w) else none :=
  Dec.InRun.repeatFilter ⟨h.minrep, h.free, h.next⟩ hr

/-- Below the minimum a completed frame begins no callback. -/
theorem Dec.InRun.frameResult_inCb {p : Proto} {b : Dec (Config.total p)} {w : BitVec (Config.total p)} {N r : Nat}
    (h : b.InRun w N r) (hr : r + 1 < N) : (b.frameResult w).1.inCb = false := by
  obtain ⟨rfl, hfree, hnext⟩ := h
  rw [Dec.frameResult, Dec.repeatFilter_of_count (by exact hnext.trans_lt hr)]
  exact hfree

theorem Dec.frameResult_en {p : Proto} (b : Dec (Config.total p)) (w : BitVec (Config.total p)) :
    (b.frameResult w).1.en = b.en := (Dec.repeatFilter_keeps _ w).1

/-- A frame of a burst leaves the decoder ready for the next one and counts in its run, if it does not call back, or if the host
answers it and the protocol re-syncs: CBRET forces a WT4 decoder out of the BIT_0 where the next frame needs it (44_dispatcher.md
R203). -/
theorem Dec.ReadyFor.pulseRun_burstFrame {p : Proto} {g : Dec (Config.total p) → Dec (Config.total p)} (hg : HostAnswer g)
    {d : Dec (Config.total p)} {w : BitVec (Config.total p)} (hv : validFrame (desc p) w = true) {f N r : Nat}
    (hd : d.ReadyFor f) (hrun : d.InRun w N r) (hr : r < N) (hcase : r + 1 < N ∨ g = Dec.cbret ∧ p ≠ .wt4) :
    (Dec.pulseRun g (desc p) d (burstFrame (desc p) w f)).1.ReadyFor (f + 1)
    ∧ (Dec.pulseRun g (desc p) d (burstFrame (desc p) w f)).1.InRun w N ((r + 1) % N)
    ∧ (Dec.pulseRun g (desc p) d (burstFrame (desc p) w f)).2 =
        List.replicate ((burstFrame (desc p) w f).length - 1) none
          ++ [if (r + 1) % N = 0 then some (.callback w) else none] := by
  obtain ⟨b, hb, hbrun, heq⟩ := hd.pulseRun_eq hg hv hrun
  obtain ⟨hrun', hraised⟩ := hbrun.frameResult hr
  have hanswer : g (b.frameResult w).1 = (b.frameResult w).1.cbret := by
    rcases hcase with hlt | ⟨rfl, -⟩
    · have hfree := hbrun.frameResult_inCb hlt
      rw [hg.acts _ hfree, Dec.cbret_of_free hfree]
    · rfl
  rw [heq, hraised, hanswer]
  refine ⟨⟨?_, fun hs => ?_, fun hs => ?_⟩, hrun', rfl⟩
  · rw [Dec.cbret_en, Dec.frameResult_en, hb.en]
  · exact b.frameResult_cbret_insync w (by simpa using hs)
  · have hsync : (desc p).syncPerFrame = false := by simpa using hs
    have hlt : r + 1 < N := hcase.resolve_right fun ⟨_, hp⟩ => by simp [(desc_syncPerFrame_iff p).2 hp] at hsync
    rw [Dec.cbret_of_free (hbrun.frameResult_inCb hlt)]
    exact hb.frameResult w hsync

/-- The frames of a burst one after another: `n` of them count `n` modulo the minimum, and every multiple of it calls back
(43_repeat_filter.md R192). -/
theorem Dec.ReadyFor.pulseRun_burstBody {p : Proto} {g : Dec (Config.total p) → Dec (Config.total p)} (hg : HostAnswer g)
    {d : Dec (Config.total p)} {w : BitVec (Config.total p)} (hv : validFrame (desc p) w = true) {N : Nat} (hN : 0 < N)
    (hd : d.ReadyFor 0) (hrun : d.InRun w N 0) (n : Nat) (hcase : n < N ∨ g = Dec.cbret ∧ p ≠ .wt4) :
    (Dec.pulseRun g (desc p) d (burstBody (desc p) w n)).1.ReadyFor n
    ∧ (Dec.pulseRun g (desc p) d (burstBody (desc p) w n)).1.InRun w N (n % N)
    ∧ (Dec.pulseRun g (desc p) d (burstBody (desc p) w n)).2.flatMap (calledBack p) =
        List.replicate (n / N) (.callback p (w.setWidth 36)) := by
  induction n with
  | zero => exact ⟨hd, by rwa [Nat.zero_mod], by simp [burstBody, Dec.pulseRun]⟩
  | succ n ih =>
    obtain ⟨hready, hcount, hcalls⟩ := ih (hcase.imp_left Nat.lt_of_succ_lt)
    have hnext : n % N + 1 < N ∨ g = Dec.cbret ∧ p ≠ .wt4 :=
      hcase.imp_left fun h => by rwa [Nat.mod_eq_of_lt (Nat.lt_of_succ_lt h)]
    obtain ⟨hready', hcount', hlast⟩ := hready.pulseRun_burstFrame hg hv hcount (Nat.mod_lt n hN) hnext
    rw [Nat.mod_add_mod] at hcount' hlast
    rw [burstBody_succ, Dec.pulseRun_append]
    refine ⟨hready', hcount', ?_⟩
    rw [List.flatMap_append, hcalls, hlast, Nat.succ_div, List.flatMap_append]
    by_cases hdvd : N ∣ n + 1
    · simp [Nat.mod_eq_zero_of_dvd hdvd, hdvd, calledBack, List.replicate_succ', List.flatMap_replicate]
    · simp [mt Nat.dvd_of_mod_eq_zero hdvd, hdvd, calledBack, List.flatMap_replicate]

end Sys2Proof.Machine

namespace Sys2Proof.Machine

variable {W : Nat}

/-! ### The CALLBACKs of a whole burst -/

/-- The frame that brings the run to its minimum begins the callback. -/
theorem Dec.InRun.frameResult_of_last {p : Proto} {b : Dec (Config.total p)} {w : BitVec (Config.total p)} {N r : Nat}
    (h : b.InRun w N r) (hr : r + 1 = N) :
    (b.frameResult w).1.inCb = true ∧ (b.frameResult w).2 = some (.callback w) := by
  obtain ⟨rfl, hfree, hnext⟩ := h
  rw [Dec.frameResult, Dec.repeatFilter_of_deliver (by exact (hnext.trans hr).ge) (by exact hfree)]
  exact ⟨rfl, rfl⟩

/-- A callback that nobody answers is the last one (44_dispatcher.md R202). -/
theorem Dec.pulseRun_of_inCb {p : Proto} (ds : List Nat) {d : Dec (Config.total p)} (hc : d.inCb = true) :
    ∀ e ∈ (Dec.pulseRun id (desc p) d ds).2, calledBack p e = [] := by
  induction ds generalizing d with
  | nil => simp [Dec.pulseRun]
  | cons x ds ih =>
    obtain ⟨-, -, -, hkeep⟩ := Dec.edge_keeps (desc p) (d.lastTs + BitVec.ofNat 32 x) d
    obtain ⟨hc', -, hne⟩ := hkeep hc
    refine List.forall_mem_cons.2 ⟨?_, ih hc'⟩
    generalize (d.edge (desc p) (d.lastTs + BitVec.ofNat 32 x)).2 = e at hne
    rcases e with _ | ⟨v⟩ | ⟨v⟩ | ⟨l⟩
    · rfl
    · exact absurd rfl (hne v)
    · rfl
    · rfl

/-- What the first `k` elements of a list give, where one element alone gives anything. -/
theorem flatMap_take_of_unique {α β : Type} {f : α → List β} {xs ys : List α} (hx : xs.flatMap f = []) (x : α)
    (hy : ys.flatMap f = []) (k : Nat) :
    ((xs ++ x :: ys).take k).flatMap f = if xs.length < k then f x else [] := by
  rw [List.flatMap_eq_nil_iff] at hx hy
  rw [List.take_append, List.flatMap_append, List.flatMap_eq_nil_iff.2 fun a ha => hx a (List.mem_of_mem_take ha),
    List.nil_append]
  split
  next h =>
    obtain ⟨m, hm⟩ : ∃ m, k - xs.length = m + 1 := ⟨k - xs.length - 1, by omega⟩
    rw [hm, List.take_succ_cons, List.flatMap_cons, List.flatMap_eq_nil_iff.2 fun a ha => hy a (List.mem_of_mem_take ha),
      List.append_nil]
  next h => rw [Nat.sub_eq_zero_of_le (Nat.le_of_not_lt h), List.take_zero, List.flatMap_nil]

/-- A burst with no CBRET calls back once, on the pulse that closes frame number `N`. -/
theorem Dec.ReadyFor.callbacks_unanswered {p : Proto} {d : Dec (Config.total p)} {w : BitVec (Config.total p)}
    (hv : validFrame (desc p) w = true) {N n : Nat} (hN : 0 < N) (hn : N ≤ n) (hd : d.ReadyFor 0) (hrun : d.InRun w N 0)
    (k : Nat) :
    (Dec.pulseRun id (desc p) d ((burst (desc p) w n).take k)).2.flatMap (calledBack p) =
      if (burstBody (desc p) w N).length ≤ k then [.callback p (w.setWidth 36)] else [] := by
  obtain ⟨M, rfl⟩ := Nat.exists_eq_add_one.2 hN
  obtain ⟨rest, hrest⟩ := burstBody_isPrefix (desc p) w hn
  obtain ⟨hready, hcount, hcalls⟩ := hd.pulseRun_burstBody hostAnswer_id hv hN hrun M (.inl M.lt_succ_self)
  rw [Nat.mod_eq_of_lt M.lt_succ_self] at hcount
  rw [Nat.div_eq_of_lt M.lt_succ_self, List.replicate_zero] at hcalls
  obtain ⟨b, -, hbrun, hframe⟩ := hready.pulseRun_eq hostAnswer_id hv hcount
  obtain ⟨hc, hraised⟩ := hbrun.frameResult_of_last rfl
  have hlen : 0 < (burstFrame (desc p) w M).length := by
    have := frameSegs_length_pos p w
    rw [burstFrame, List.length_append]
    omega
  have hbefore : ((Dec.pulseRun id (desc p) d (burstBody (desc p) w M)).2
      ++ List.replicate ((burstFrame (desc p) w M).length - 1) none).flatMap (calledBack p) = [] := by
    rw [List.flatMap_append, hcalls, List.flatMap_replicate]; simp [calledBack]
  have hafter := List.flatMap_eq_nil_iff.2 (Dec.pulseRun_of_inCb rest hc)
  rw [Dec.pulseRun_take, ← hrest, burstBody_succ, Dec.pulseRun_append, Dec.pulseRun_append, hframe, hraised, ← List.append_assoc,
    List.append_assoc _ [some (DecEvent.callback w)], List.singleton_append]
  refine (flatMap_take_of_unique hbefore _ hafter k).trans ?_
  simp only [List.length_append, Dec.pulseRun_length, List.length_replicate, calledBack]
  congr 1
  simp only [eq_iff_iff]
  omega

/-- A burst with every CALLBACK answered calls back once per `N` frames, where each frame has its sync. -/
theorem Dec.ReadyFor.callbacks_answered {p : Proto} (hp : p ≠ .wt4) {d : Dec (Config.total p)} {w : BitVec (Config.total p)}
    (hv : validFrame (desc p) w = true) {N : Nat} (hN : 0 < N) (hd : d.ReadyFor 0) (hrun : d.InRun w N 0) (n : Nat) :
    (Dec.pulseRun Dec.cbret (desc p) d (burst (desc p) w n)).2.flatMap (calledBack p) =
      List.replicate (n / N) (.callback p (w.setWidth 36)) := by
  obtain ⟨hready, -, hcalls⟩ := hd.pulseRun_burstBody hostAnswer_cbret hv hN hrun n (.inr ⟨rfl, hp⟩)
  unfold burst
  dsimp only
  split
  · have hwait := hready.waiting (by simp [(desc_syncPerFrame_iff p).2 hp])
    have hterm := Dec.edge_of_waiting hready.en hwait (desc p)
    rw [Dec.pulseRun_append, List.flatMap_append, hcalls]
    simp [Dec.pulseRun, hterm, calledBack]
  · exact hcalls

/-! ### The round trip -/

theorem validFrame_sendWord (p : Proto) (a : ArgA) : validFrame (desc p) (sendWord p a) = true := by
  cases p with
  | aur => exact validFrame_framewordAur _ _ _ _
  | wt4 => exact validFrame_framewordWt4 _ _ _ _
  | liv => exact validFrame_of_no_check rfl rfl _
  | kop => exact validFrame_of_no_check rfl rfl _
  | quh => exact validFrame_of_no_check rfl rfl _

/-- The edge that opens a burst leaves a waiting decoder ready for the first frame. -/
theorem Dec.openedAt_readyFor {p : Proto} {d : Dec (Config.total p)} (he : d.en = true) (hi : d.insync = false)
    (t : Timestamp) : (d.openedAt t).ReadyFor 0 :=
  ⟨he, fun _ => hi, fun h => absurd h (by simp)⟩

/-- With `rep` at 0 a decoder is at the start of a run of any word. -/
theorem Dec.openedAt_inRun {d : Dec W} (hc : d.inCb = false) (hrep : d.rep = 0) (t : Timestamp) (w : BitVec W) :
    (d.openedAt t).InRun w d.minrep.toNat 0 :=
  ⟨rfl, hc, by simp [Dec.nextRep, Dec.openedAt, hrep]⟩

/-- What a SEND under LOOPBACK calls back is what the waiting decoder raises on the segments of the burst as pulses. -/
theorem loopback_callbacksOf_send {p : Proto} {g : Dec (Config.total p) → Dec (Config.total p)} (hg : HostAnswer g) {s : State}
    {n : BitVec 8} (hinv : Enc.Inv s.params s.enc) (hb : s.enc.busy = false) (htx : p = .aur → s.params.txPresentAur = true)
    (hn : 0 < n.toNat) (he : (s.dec p).en = true) (hi : (s.dec p).insync = false) (hc : (s.dec p).inCb = false) {t0 : Timestamp}
    (hsync : syncHit (desc p) (t0 - (s.dec p).lastTs) = false) (w : BitVec (Config.total p)) :
    (s.send p w n).enc.queue = burst (desc p) w n.toNat
    ∧ ∀ j, callbacksOf p ((loopbackStepBy p g)^[j + 1] (s.send p w n, t0)).1.obs =
        callbacksOf p s.obs
          ++ (Dec.pulseRun g (desc p) ((s.dec p).openedAt t0) ((burst (desc p) w n.toNat).take j)).2.flatMap
              (calledBack p) := by
  have hn0 : n ≠ 0 := by rintro rfl; simp at hn
  obtain ⟨-, -, hlow⟩ := hinv.1 hb
  obtain ⟨hs, hq⟩ := State.sending_send ((txPresent_iff _ p).2 htx) hb hlow hn0 w
  refine ⟨hq, fun j => ?_⟩
  have hrun := loopback_callbacksOf_of_waiting hg hs (hq ▸ burst_ne_nil _ _ _) (by simpa using he) (by simpa using hi)
    (by simpa using hc) (by simpa using hsync) j
  rwa [State.send_obs, State.send_dec, hq] at hrun

/-- Settles O59: the burst reaches the decoder as its pulses, of which the one that closes frame `m` calls back, and none after it. -/
theorem loopbackDeliversTheMessageSent : Obligations.LoopbackDeliversTheMessageSent := by
  intro s t p a n t0 j hinv hb htx he hi hc hrep hmin hn hsync hexec
  obtain rfl : s.send p (sendWord p a) n = t := by simpa using hexec
  rw [loopbackRun_eq_iterate]
  cases j with
  | zero => simp [State.send_obs]
  | succ j =>
    obtain ⟨-, hcalls⟩ := loopback_callbacksOf_send hostAnswer_id hinv hb htx (hmin.trans hn) he hi hc hsync (sendWord p a)
    rw [hcalls, (Dec.openedAt_readyFor he hi t0).callbacks_unanswered (validFrame_sendWord p a) hmin hn
      (Dec.openedAt_inRun hc hrep t0 _)]
    simp only [Nat.lt_succ_iff]

/-- Settles O60: the same pulses with the host's CBRET after each, which leaves the decoder waiting for the sync of the next frame. -/
theorem loopbackWithEveryCallbackAnswered : Obligations.LoopbackWithEveryCallbackAnswered := by
  intro s t p a n t0 hp hinv hb htx he hi hc hrep hmin hn hsync hexec
  obtain rfl : s.send p (sendWord p a) n = t := by simpa using hexec
  obtain ⟨hq, hcalls⟩ := loopback_callbacksOf_send hostAnswer_cbret hinv hb htx (hmin.trans hn) he hi hc hsync (sendWord p a)
  rw [State.loopbackAnswered, loopbackRunAnswered_eq_iterate, hq, hcalls, List.take_length,
    (Dec.openedAt_readyFor he hi t0).callbacks_answered hp (validFrame_sendWord p a) hmin (Dec.openedAt_inRun hc hrep t0 _)]

end Sys2Proof.Machine

namespace Sys2Proof.Machine

variable {W : Nat}

/-! ### What an EDGE raises, and from where (60_exceptions.md R260 to R263, R268) -/

/-- A call of the filter that raises something: a CALLBACK of its word while `in_cb` is clear, or the drop of it (44_dispatcher.md
R201, R202). -/
theorem Dec.repeatFilter_event {d : Dec W} {w : BitVec W} {e : DecEvent W} (h : (d.repeatFilter w).2 = some e) :
    (d.inCb = false ∧ e = .callback w) ∨ (d.inCb = true ∧ e = .drop w) := by
  rcases Dec.repeatFilter_cases d w with ⟨_, hf⟩ | ⟨_, hc, hf⟩ | ⟨_, hc, hf⟩ <;> rw [hf] at h
  · cases h
  · exact .inl ⟨hc, (Option.some.inj h).symm⟩
  · exact .inr ⟨hc, (Option.some.inj h).symm⟩

/-- The place of each event that an EDGE at `ts` can raise in decoder `d`, one constructor for each kind of event. -/
inductive RaisedAt (C : Desc) (ts : Timestamp) (d : Dec W) : DecEvent W → Prop
  | illegal : d.insync = true → IllegalPulse C d.ph d.first (classify C (ts - d.lastTs)) → RaisedAt C ts d (.error .e1)
  | mismatch (b : Bool) : d.insync = true → structuralOk C (d.k.toNat + 1) (nextCand d.cand b) = false →
      RaisedAt C ts d (.error .e2)
  | parity (b : Bool) : d.insync = true → d.k.toNat + 1 = W → completionValid C (nextParity d.px b) = false →
      RaisedAt C ts d (.error .e4)
  | drop (b : Bool) : d.inCb = true → d.k.toNat + 1 = W → RaisedAt C ts d (.drop (nextCand d.cand b))
  | callback (b : Bool) : d.inCb = false → d.k.toNat + 1 = W → completionValid C (nextParity d.px b) = true →
      RaisedAt C ts d (.callback (nextCand d.cand b))

theorem Dec.raisedAt_of_edge {C : Desc} {ts : Timestamp} {d : Dec W} {e : DecEvent W} (h : (d.edge C ts).2 = some e) :
    RaisedAt C ts d e := by
  have hc := Dec.edge_cases C ts d
  generalize d.edge C ts = r at hc h
  cases hc with
  | disabled | ignored | sync | first | shift => cases h
  | illegal _ hi hbad => cases h; exact .illegal hi hbad
  | mismatch b _ hi _ hs => cases h; exact .mismatch b hi hs
  | parity b _ hi _ _ hk hv => cases h; exact .parity b hi hk hv
  | complete b _ _ _ _ hk hv =>
    rcases Dec.repeatFilter_event h with ⟨hfree, rfl⟩ | ⟨hbusy, rfl⟩
    · exact .callback b hfree hk hv
    · exact .drop b hbusy hk

/-- The output of a decoder's event (44_dispatcher.md R201; 60_exceptions.md R284). -/
def DecEvent.output (p : Proto) : DecEvent (Config.total p) → Obs
  | .callback w => .callback p (w.setWidth 36)
  | .drop w => .drop p (w.setWidth 36)
  | .error l => .error p l

theorem State.signal_obs_some (s : State) (p : Proto) (e : DecEvent (Config.total p)) :
    (s.signal p (some e)).obs = s.obs ++ [e.output p] := by cases e <;> rfl

/-- An EDGE puts out nothing, or the output of one event, raised in its place (60_exceptions.md R268). -/
theorem State.edge_outputs (s : State) (p : Proto) (ts : Timestamp) :
    (s.edge p ts).obs = s.obs
    ∨ ∃ e, RaisedAt (desc p) ts (s.dec p) e ∧ (s.edge p ts).obs = s.obs ++ [e.output p] := by
  rw [State.edge]
  cases he : ((s.dec p).edge (desc p) ts).2 with
  | none => exact .inl (by simp)
  | some e => exact .inr ⟨e, Dec.raisedAt_of_edge he, by rw [State.signal_obs_some, State.setDec_obs]⟩

/-- The structural check fails nowhere but on the bit that completes WT4's constant (41_decoder_step.md R150). -/
theorem place_of_mismatch {p : Proto} {k' : Nat} {c : BitVec (Config.total p)} {b : Bool}
    (h : structuralOk (desc p) k' (nextCand c b) = false) : p = .wt4 ∧ k' = 9 := by
  rw [Bool.eq_false_iff, Ne, structuralOk_iff] at h
  simp only [Classical.not_imp] at h
  obtain ⟨hp, hk, -⟩ := h
  exact ⟨hp, hk⟩

/-- The completion check fails only for the protocols with a parity, whose frames have 32 bits (30_encoding.md R95). -/
theorem place_of_parity {p : Proto} {px' : Bool} (h : completionValid (desc p) px' = false) :
    (p = .aur ∨ p = .wt4) ∧ Config.total p = 32 := by
  cases p with
  | aur => exact ⟨.inl rfl, rfl⟩
  | wt4 => exact ⟨.inr rfl, rfl⟩
  | liv | kop | quh => cases h

/-- The place in decoder `p` of each output of an EDGE at `ts`; a label E3, a segment and a result have none (60_exceptions.md R260
to R263, R268; E3 is the drop, log 11). -/
def State.edgePlace (s : State) (p : Proto) (ts : Timestamp) : Obs → Prop
  | .error _ .e1 => (s.dec p).insync = true
      ∧ IllegalPulse (desc p) (s.dec p).ph (s.dec p).first (classify (desc p) (ts - (s.dec p).lastTs))
  | .error _ .e2 => p = .wt4 ∧ (s.dec p).insync = true ∧ (s.dec p).k.toNat = 8
  | .error _ .e4 => (p = .aur ∨ p = .wt4) ∧ (s.dec p).insync = true ∧ (s.dec p).k.toNat = 31
  | .drop _ _ => (s.dec p).inCb = true ∧ (s.dec p).k.toNat + 1 = Config.total p
  | .callback _ _ => (s.dec p).inCb = false ∧ (s.dec p).k.toNat + 1 = Config.total p
  | .error _ .e3 | .seg _ _ _ | .result _ => False

theorem State.edgePlace_of_raisedAt {s : State} {p : Proto} {ts : Timestamp} {e : DecEvent (Config.total p)}
    (h : RaisedAt (desc p) ts (s.dec p) e) : s.edgePlace p ts (e.output p) := by
  cases h with
  | illegal hi hbad => exact ⟨hi, hbad⟩
  | mismatch b hi hs =>
    obtain ⟨hp, hk⟩ := place_of_mismatch hs
    exact ⟨hp, hi, Nat.succ.inj hk⟩
  | parity b hi hk hv =>
    obtain ⟨hp, h32⟩ := place_of_parity hv
    exact ⟨hp, hi, Nat.succ.inj (hk.trans h32)⟩
  | drop b hbusy hk => exact ⟨hbusy, hk⟩
  | callback b hfree hk => exact ⟨hfree, hk⟩

theorem State.edgePlace_of_output {s : State} {p : Proto} {ts : Timestamp} {o : Obs}
    (h : (s.edge p ts).obs = s.obs ++ [o]) : s.edgePlace p ts o := by
  rcases s.edge_outputs p ts with hnone | ⟨e, he, hout⟩
  · simp [hnone] at h
  · obtain rfl : e.output p = o := by simpa [hout] using h
    exact State.edgePlace_of_raisedAt he

/-- Settles O21: what an EDGE puts out is the output of one event, and each clause is the place of one output. -/
theorem edgeLabelsComeOnlyFromTheirPlaces : Obligations.EdgeLabelsComeOnlyFromTheirPlaces := by
  intro p s t ts h
  obtain rfl : s.edge p ts = t := by simpa using h
  have place {o : Obs} : (s.edge p ts).obs = s.obs ++ [o] → s.edgePlace p ts o := State.edgePlace_of_output
  exact ⟨place, place, place, place, fun _ => place, fun _ => place⟩

/-! ### The three resets of an EDGE: E1, E2 and E4 -/

/-- A raised error is only recorded, next to the write of its decoder's record (60_exceptions.md R264). -/
theorem State.signal_error_setDec (s : State) (p : Proto) (d : Dec (Config.total p)) (l : ErrLabel) :
    (s.setDec p d).signal p (some (.error l)) = { s.setDec p d with obs := s.obs ++ [.error p l] } := by
  rw [State.signal, State.emit, State.setDec_obs]

/-- An EDGE that resets its decoder with an error, with the writes of `goto WAITING_SYNC` (41_decoder_step.md R141). -/
theorem exec_edgeInstr_of_error {p : Proto} {s : State} {ts : Timestamp} {l : ErrLabel}
    (h : (s.dec p).edge (desc p) ts = ({ s.dec p with lastTs := ts }.gotoWaitingSync, some (.error l))) :
    exec (edgeInstr p ts) s = .next { s.setDec p
      { s.dec p with lastTs := ts, insync := false, k := 0, ph := false, first := false, cand := 0, px := false } with
      obs := s.obs ++ [.error p l] } := by
  rw [exec_edgeInstr_of_edge h, State.signal_error_setDec, Dec.gotoWaitingSync]

/-- A bit that completes a wrong constant is E2 (60_exceptions.md R261). -/
theorem Dec.edge_of_mismatch {C : Desc} {ts : Timestamp} {d : Dec W} {b : Bool} (he : d.en = true) (hi : d.insync = true)
    (hsym : symStep C d.ph d.first (classify C (ts - d.lastTs)) = .bit b)
    (hs : structuralOk C (d.k.toNat + 1) (nextCand d.cand b) = false) :
    d.edge C ts = ({ d with lastTs := ts }.gotoWaitingSync, some (.error .e2)) := by
  rw [Dec.edge_of_bit he hi, Dec.bitStep_of_bit (by exact hsym), Dec.shiftIn_of_mismatch (by exact hs)]

/-- A last bit that makes the parity wrong is E4, before the filter and the re-arm (60_exceptions.md R263). -/
theorem Dec.edge_of_wrongParity {C : Desc} {ts : Timestamp} {d : Dec W} {b : Bool} (he : d.en = true) (hi : d.insync = true)
    (hsym : symStep C d.ph d.first (classify C (ts - d.lastTs)) = .bit b)
    (hs : structuralOk C (d.k.toNat + 1) (nextCand d.cand b) = true) (hk : d.k.toNat + 1 = W)
    (hv : completionValid C (nextParity d.px b) = false) :
    d.edge C ts = ({ d with lastTs := ts }.gotoWaitingSync, some (.error .e4)) := by
  rw [Dec.edge_of_bit he hi, Dec.bitStep_of_bit (by exact hsym), Dec.shiftIn_of_last (by exact hs) (by exact hk),
    Dec.complete_of_invalid (by exact hv)]

/-- Settles O12: an illegal pulse is one of the three resets. -/
theorem edgeWithAnIllegalPulseIsE1 : Obligations.EdgeWithAnIllegalPulseIsE1 := by
  intro p s ts he hi hbad
  exact exec_edgeInstr_of_error (Dec.edge_of_illegal he hi hbad)

/-- Settles O15: the bit is the ninth, on which the structural check reads the constant. -/
theorem edgeWithAWrongConstantIsE2 : Obligations.EdgeWithAWrongConstantIsE2 := by
  intro s ts b he hi hsym hk hwrong
  have hs : structuralOk (desc .wt4) (s.wt4.k.toNat + 1) (nextCand s.wt4.cand b) = false := by
    rw [Bool.eq_false_iff, Ne, structuralOk_iff]
    exact fun hok => hwrong (hok rfl (by rw [hk]))
  exact exec_edgeInstr_of_error (p := .wt4) (Dec.edge_of_mismatch he hi hsym hs)

/-- The constant is not looked at on the last bit of a frame. -/
theorem structuralOk_last {p : Proto} {k' : Nat} (hk : k' = Config.total p) (c : BitVec (Config.total p)) (b : Bool) :
    structuralOk (desc p) k' (nextCand c b) = true := by
  refine (structuralOk_iff p k' c b).2 ?_
  rintro rfl h9
  exact absurd (hk.symm.trans h9) (by decide)

/-- Settles O16: BIT_31 is the last bit of both protocols, and both have a parity. -/
theorem edgeWithAWrongParityIsE4 : Obligations.EdgeWithAWrongParityIsE4 := by
  intro p s ts b hp he hi hsym hk hpar
  have hlast : (s.dec p).k.toNat + 1 = Config.total p := by
    rw [hk]
    rcases hp with rfl | rfl <;> rfl
  have hv : completionValid (desc p) (nextParity (s.dec p).px b) = false := by
    rw [Bool.eq_false_iff, Ne, completionValid_iff]
    exact fun hok => Bool.false_ne_true ((hok hp).symm.trans hpar)
  exact exec_edgeInstr_of_error (Dec.edge_of_wrongParity he hi hsym (structuralOk_last hlast _ b) hlast hv)

/-! ### Every message delivered is a valid frame (10_state.md R28; 60_exceptions.md R264) -/

/-- The converse of `constOk_of_validFrame`: the constant and the parity are all that the validation reads (30_encoding.md R95
to R97). -/
theorem validFrame_of_constOk {p : Proto} {w : BitVec (Config.total p)} (hc : constOk p w)
    (hv : completionValid (desc p) (xorOfAllBits w) = true) : validFrame (desc p) w = true := by
  refine (Bool.and_eq_true _ _).mpr ⟨hv, ?_⟩
  cases p with
  | wt4 =>
    rw [Bool.or_eq_true, beq_iff_eq, extractLsb'_eq_iff_toNat]
    exact .inr (hc rfl)
  | aur | liv | kop | quh => rfl

/-- The word that a valid completion gives to the filter passes its protocol's validation: the running parity is that of the
candidate, and WT4's constant, checked on the ninth bit, has been shifted to its place (10_state.md R27, R28). -/
theorem Dec.Inv.validFrame_nextCand {p : Proto} {d : Dec (Config.total p)} (h : Dec.Inv (desc p) d) {b : Bool}
    (hk : d.k.toNat + 1 = Config.total p) (hv : completionValid (desc p) (nextParity d.px b) = true) :
    validFrame (desc p) (nextCand d.cand b) = true := by
  obtain ⟨-, -, -, -, hcand, hpx, -, hconst⟩ := h
  have hb := Bool.toNat_le b
  have hfits : 2 * d.cand.toNat + b.toNat < 2 ^ Config.total p := calc
    2 * d.cand.toNat + b.toNat < 2 ^ (d.k.toNat + 1) := by rw [Nat.pow_succ]; omega
    _ = 2 ^ Config.total p := congrArg (2 ^ ·) hk
  refine validFrame_of_constOk ?_ ?_
  · rintro rfl
    have h31 : d.k.toNat + 1 = 32 := hk
    rw [nextCand_toNat, Nat.mod_eq_of_lt hfits]
    have hshift := const_shifted hb (by omega) (by omega) fun h9 => (constField_iff _ _).1 (hconst rfl h9)
    rwa [h31] at hshift
  · rw [xorOfAllBits_nextCand _ _ hfits, ← hpx]
    exact hv

theorem DecEvent.output_harmless {p : Proto} {d : Dec (Config.total p)} (hinv : Dec.Inv (desc p) d) {ts : Timestamp}
    {e : DecEvent (Config.total p)} (h : RaisedAt (desc p) ts d e) : (e.output p).Harmless := by
  cases h with
  | callback b _ hk hv => exact ⟨_, rfl, hinv.validFrame_nextCand hk hv⟩
  | illegal | mismatch | parity | drop => exact trivial

/-- No output of the step so far is a CALLBACK with a word that is no valid frame. -/
def State.Harmless (s : State) : Prop := ∀ o ∈ s.obs, o.Harmless

/-- Only the CALLBACKs can do harm. -/
theorem State.Harmless.congr {s t : State} (h : s.Harmless) (hcb : ∀ p, callbacksOf p t.obs = callbacksOf p s.obs) :
    t.Harmless := by
  intro o ho
  cases o with
  | callback p w =>
    have hmem : Obs.callback p w ∈ callbacksOf p t.obs := List.mem_filter.2 ⟨ho, by simp⟩
    rw [hcb] at hmem
    exact h _ (List.mem_filter.1 hmem).1
  | drop | error | seg | result => exact trivial

theorem State.Harmless.of_obs_eq {s t : State} (h : s.Harmless) (ho : t.obs = s.obs) : t.Harmless :=
  h.congr fun _ => by rw [ho]

theorem State.Harmless.isrecvPoll {s : State} (h : s.Harmless) : s.isrecvPoll.Harmless := h.congr s.isrecvPoll_callbacksOf

theorem State.Harmless.txstep {s : State} (h : s.Harmless) : s.txstep.Harmless := h.congr s.txstep_callbacksOf

theorem State.Harmless.msTick {s : State} (h : s.Harmless) : s.msTick.Harmless := by
  refine h.congr fun p => ?_
  rcases s.msTick_cases with ⟨_, heq⟩ | ⟨r, _, _, heq⟩ | ⟨r, _, _, heq⟩ <;> rw [heq]
  exact State.answer_callbacksOf _ _ p

theorem State.Harmless.clock {s : State} (h : s.Harmless) : s.clock.Harmless := by
  obtain ⟨-, -, -, hobs⟩ := s.clock_strobes
  exact h.of_obs_eq hobs

theorem State.beginStep_harmless (s : State) : s.beginStep.Harmless := fun _ h => absurd h List.not_mem_nil

/-- What an EDGE adds is the output of one event, whose word is valid if it is a CALLBACK. -/
theorem State.Harmless.edge {s : State} (h : s.Harmless) {p : Proto} (hinv : Dec.Inv (desc p) (s.dec p)) (ts : Timestamp) :
    (s.edge p ts).Harmless := by
  rcases s.edge_outputs p ts with hnone | ⟨e, he, hout⟩
  · exact h.of_obs_eq hnone
  · intro o ho
    rw [hout] at ho
    rcases List.mem_append.1 ho with hold | hnew
    · exact h o hold
    · rw [List.mem_singleton.1 hnew]
      exact DecEvent.output_harmless hinv he

/-- The EDGEs of the pulses find the invariant that the EDGEs before them kept. -/
theorem State.Harmless.pulses {s : State} (h : s.Harmless) {p : Proto} (hinv : Dec.Inv (desc p) (s.dec p)) (ds : List Nat) :
    (s.pulses p ds).Harmless := by
  refine (State.pulses_induction (P := fun t => Dec.Inv (desc p) (t.dec p) ∧ t.Harmless) ?_ ?_ ds s ⟨hinv, h⟩).2
  · intro t ts ⟨htinv, ht⟩
    exact ⟨by rw [State.edge_dec_same]; exact Dec.edge_inv htinv ts, ht.edge htinv ts⟩
  · intro t ⟨htinv, ht⟩
    exact ⟨by rw [State.isrecvPoll_dec]; exact htinv, ht.isrecvPoll⟩

/-- EDGE and FRAME deliver valid frames alone, and no other operation calls back. -/
theorem exec_harmless {i : Instr} {s t : State} (hs : PartsInv s) (hh : s.Harmless) (h : exec i s = .next t) : t.Harmless := by
  induction i using Instr.family_cases with
  | edge p ts =>
    obtain rfl : s.edge p ts = t := by simpa using h
    exact hh.edge (hs.dec p) ts
  | enable p =>
    obtain rfl : s.enable p = t := by simpa using h
    exact hh.of_obs_eq (s.setDec_obs p _)
  | disable p =>
    obtain rfl : s.disable p = t := by simpa using h
    exact hh.of_obs_eq (s.setDec_obs p _)
  | init p m irq =>
    obtain rfl : s.initDec p m irq = t := by simpa using h
    exact hh.of_obs_eq (s.setDec_obs p _)
  | poll p =>
    obtain rfl : s.poll p = t := by simpa using h
    exact hh.congr (s.answer_callbacksOf _)
  | isrecv p n =>
    obtain rfl : s.isrecvStart p n = t := by simpa using h
    exact hh.congr (s.isrecvStart_callbacksOf p n)
  | cbret p =>
    obtain rfl : s.cbret p = t := by simpa using h
    exact hh.of_obs_eq (s.setDec_obs p _)
  | send p a n =>
    obtain rfl : s.send p (sendWord p a) n = t := by simpa using h
    exact hh.of_obs_eq (s.send_obs p _ n)
  | reset =>
    obtain rfl : s.resetOp = t := by simpa using h
    exact hh.of_obs_eq s.resetOp_obs
  | txstep =>
    obtain rfl : s.txstep = t := by simpa using h
    exact hh.txstep
  | frame p w =>
    obtain rfl : s.frame p w = t := by simpa using h
    exact hh.pulses (hs.dec p) _

/-- Settles O58: a step begins with no outputs, and whatever it does then puts out no CALLBACK but that of a valid frame. -/
theorem onlyValidMessagesAreDelivered : Obligations.OnlyValidMessagesAreDelivered := by
  intro s t hinv h
  obtain ⟨hparts, -⟩ := (inv_iff s).1 hinv
  have hbegin := s.beginStep_harmless
  cases step_cases h with
  | op _ _ _ hexec => exact (exec_harmless hparts.beginStep hbegin hexec).isrecvPoll
  | reserved => exact hbegin
  | notTaken => exact hbegin
  | msTick => exact hbegin.msTick
  | txstep => exact hbegin.txstep.isrecvPoll
  | clock => exact hbegin.clock

/-! ### No step stops, and RESET -/

/-- The step of a presented operation is that operation where it is taken, and else only the removal of it (30_encoding.md R102;
45_control_ops.md R218). -/
theorem step_next_of_op {s : State} {word : OpWord} {rest : List Pending} (htodo : s.todo = .op word :: rest) :
    ∃ t, step s = .next t := by
  cases hw : decode word with
  | error e => exact ⟨_, step_of_reserved htodo hw⟩
  | ok i =>
    cases ha : s.beginStep.accepts i with
    | false => exact ⟨_, step_of_notTaken htodo hw ha⟩
    | true =>
      obtain ⟨t, ht⟩ := exec_next i s.beginStep
      exact ⟨_, step_of_op htodo hw ha ht⟩

/-- Settles O55, from the queue of the present cycle and, where it is empty, from the encoder's down-counter. -/
theorem machineNeverStops : Obligations.MachineNeverStops := by
  intro s
  cases htodo : s.todo with
  | nil =>
    by_cases hd : s.enc.busy = true ∧ s.enc.left = 0
    · exact ⟨_, step_of_txDue htodo ((State.txDue_iff s).2 hd)⟩
    · exact ⟨_, step_of_idle htodo hd⟩
  | cons x rest =>
    cases x with
    | op word => exact step_next_of_op htodo
    | msTick => exact ⟨_, step_of_msTick htodo⟩

/-- Settles O48: every decoder has the record it has right after reset, and each other field its reset value or its old one. -/
theorem resetOperation : Obligations.ResetOperation := by
  intro s
  obtain ⟨hdec, -⟩ := resetStateValues
  exact ⟨s.resetOp, exec_reset s, fun p => (s.resetOp_dec p).trans (hdec p), s.resetOp_enc, s.resetOp_isrecv, s.resetOp_msgStb,
    s.resetOp_resStb, s.resetOp_res, s.resetOp_params, s.resetOp_inputs, s.resetOp_todo, s.resetOp_obs, s.resetOp_freeIx⟩

end Sys2Proof.Machine
